-- ==== Sys2Proof/Word.lean ====
section
/-! DEFINITION. The word type of GoLC-3 CORE and the two narrower bit patterns its rules speak of. -/

namespace Sys2Proof

/-- Every register, memory word, address and instruction word is a 16-bit value (00_scope.md section 6). -/
abbrev Word := BitVec 16

/-- A character of the output stream or a byte of the input: 8 bits (00_scope.md R6, 10_state.md R21). -/
abbrev Byte := BitVec 8

/-- "register indices are always 3-bit fields" (10_state.md R11): every index names an existing register. -/
abbrev RegIdx := BitVec 3

end Sys2Proof
end

