-- ==== Sys2Proof/Syntax.lean ====
section
/-! DEFINITION. The instructions: one constructor per row of spec/opcode_table.json, in the table's order. A
constructor carries every bit of its word that is not fixed by the row, the ignored bits too (30_encoding.md R53),
so that an instruction and its word determine each other. -/

namespace Sys2Proof

/-- One constructor per row of spec/opcode_table.json. -/
inductive Instr
  /-- BR, `0000 n z p PCoffset9`: the flag field `ir[11:9]` and the offset (43_control.md R120). -/
  | br (nzp : BitVec 3) (off : BitVec 9)
  /-- ADD, register mode, `0001 DR SR1 0 xx SR2` (41_operate.md R90). -/
  | addReg (dr sr1 : RegIdx) (ign : BitVec 2) (sr2 : RegIdx)
  /-- ADD, immediate mode, `0001 DR SR1 1 imm5` (41_operate.md R91). -/
  | addImm (dr sr1 : RegIdx) (imm : BitVec 5)
  /-- LD, `0010 DR PCoffset9` (42_data_movement.md R100). -/
  | ld (dr : RegIdx) (off : BitVec 9)
  /-- ST, `0011 SR PCoffset9` (42_data_movement.md R104). -/
  | st (sr : RegIdx) (off : BitVec 9)
  /-- JSRR, `0100 0 xx BaseR xxxxxx` (43_control.md R123). -/
  | jsrr (ignHi : BitVec 2) (base : RegIdx) (ignLo : BitVec 6)
  /-- JSR, `0100 1 PCoffset11` (43_control.md R122). -/
  | jsr (off : BitVec 11)
  /-- AND, register mode, `0101 DR SR1 0 xx SR2` (41_operate.md R92). -/
  | andReg (dr sr1 : RegIdx) (ign : BitVec 2) (sr2 : RegIdx)
  /-- AND, immediate mode, `0101 DR SR1 1 imm5` (41_operate.md R93). -/
  | andImm (dr sr1 : RegIdx) (imm : BitVec 5)
  /-- LDR, `0110 DR BaseR offset6` (42_data_movement.md R102). -/
  | ldr (dr base : RegIdx) (off : BitVec 6)
  /-- STR, `0111 SR BaseR offset6` (42_data_movement.md R106). -/
  | str (sr base : RegIdx) (off : BitVec 6)
  /-- RTI, reserved, `1000 xxxxxxxxxxxx` (43_control.md R124). -/
  | rti (ign : BitVec 12)
  /-- NOT, `1001 DR SR xxxxxx` (41_operate.md R94). -/
  | not (dr sr : RegIdx) (ign : BitVec 6)
  /-- LDI, `1010 DR PCoffset9` (42_data_movement.md R101). -/
  | ldi (dr : RegIdx) (off : BitVec 9)
  /-- STI, `1011 SR PCoffset9` (42_data_movement.md R105). -/
  | sti (sr : RegIdx) (off : BitVec 9)
  /-- JMP, `1100 xxx BaseR xxxxxx` (43_control.md R121). -/
  | jmp (ignHi : BitVec 3) (base : RegIdx) (ignLo : BitVec 6)
  /-- RES, reserved, `1101 xxxxxxxxxxxx` (43_control.md R125). -/
  | res (ign : BitVec 12)
  /-- LEA, `1110 DR PCoffset9` (42_data_movement.md R103). -/
  | lea (dr : RegIdx) (off : BitVec 9)
  /-- TRAP, `1111 xxxx trapvect8` (44_trap.md R140); well-formed with the vectors no refining row names (R147). -/
  | trap (ign : BitVec 4) (vect : BitVec 8)
  /-- TRAP x20, GETC (44_trap.md R141). -/
  | trapGetc (ign : BitVec 4)
  /-- TRAP x21, OUT (44_trap.md R142). -/
  | trapOut (ign : BitVec 4)
  /-- TRAP x22, PUTS (44_trap.md R143). -/
  | trapPuts (ign : BitVec 4)
  /-- TRAP x23, IN (44_trap.md R144). -/
  | trapIn (ign : BitVec 4)
  /-- TRAP x24, PUTSP (44_trap.md R145). -/
  | trapPutsp (ign : BitVec 4)
  /-- TRAP x25, HALT (44_trap.md R146). -/
  | trapHalt (ign : BitVec 4)
  deriving DecidableEq, Repr

end Sys2Proof
end

