-- ==== Sys2Proof/WellFormed.lean ====
section
/-! DEFINITION. Which terms of Instr stand for a row's word. Every field is a bit vector of its own width, so the
only check left is the one between the TRAP row and the six rows that refine it (30_encoding.md R55, R58). -/

namespace Sys2Proof

/-- The six defined trap vectors (30_encoding.md R58). -/
def definedVector (v : BitVec 8) : Bool :=
  v == 0x20#8 || v == 0x21#8 || v == 0x22#8 || v == 0x23#8 || v == 0x24#8 || v == 0x25#8

/-- A term of Instr is well-formed when it is the one its word decodes to: a TRAP with a defined vector is written
with that service's own constructor. -/
def Instr.wf : Instr → Bool
  | .br _ _ => true
  | .addReg _ _ _ _ => true
  | .addImm _ _ _ => true
  | .ld _ _ => true
  | .st _ _ => true
  | .jsrr _ _ _ => true
  | .jsr _ => true
  | .andReg _ _ _ _ => true
  | .andImm _ _ _ => true
  | .ldr _ _ _ => true
  | .str _ _ _ => true
  | .rti _ => true
  | .not _ _ _ => true
  | .ldi _ _ => true
  | .sti _ _ => true
  | .jmp _ _ _ => true
  | .res _ => true
  | .lea _ _ => true
  | .trap _ vect => !definedVector vect
  | .trapGetc _ => true
  | .trapOut _ => true
  | .trapPuts _ => true
  | .trapIn _ => true
  | .trapPutsp _ => true
  | .trapHalt _ => true

end Sys2Proof
end

