-- ==== Sys2Proof/Decode.lean ====
section
/-! DEFINITION. The decoder, from an instruction word to an instruction, and the encoder, written from the same
tables (30_encoding.md R52, R53). Decoding is total: "from any 16-bit word the decoder obtains exactly one" form
(R55), so there is no word to reject; the reserved words decode to RTI and RES, whose meaning raises DecodeError.
PRESUMED (log 1): the opcode numbers and field positions are the spec's own choice (D1, D2). -/

namespace Sys2Proof

/-- Field extraction as the source's utility states it, on the ranges it is defined on; an inverted range, or one
past bit 15, is refused (00_scope.md R1, 93_implementation_defined.md U2; log 29). -/
def extractField (word : Word) (high low : Nat) : Option Word :=
  if low ≤ high ∧ high ≤ 15 then some ((word >>> low) &&& BitVec.ofNat 16 (2 ^ (high - low + 1) - 1)) else none

/-- The opcode, `ir[15:12]` (30_encoding.md R51). -/
def Field.opcode (w : Word) : BitVec 4 := w.extractLsb' 12 4
/-- `ir[11:9]`: DR, SR of a store, the flag field of BR (30_encoding.md R53). -/
def Field.r11_9 (w : Word) : BitVec 3 := w.extractLsb' 9 3
/-- `ir[8:6]`: SR1, SR of NOT, BaseR. -/
def Field.r8_6 (w : Word) : BitVec 3 := w.extractLsb' 6 3
/-- `ir[2:0]`: SR2. -/
def Field.r2_0 (w : Word) : BitVec 3 := w.extractLsb' 0 3
/-- `ir[5]`: the immediate-mode flag of ADD and AND. -/
def Field.mode5 (w : Word) : BitVec 1 := w.extractLsb' 5 1
/-- `ir[11]`: the mode bit of JSR. -/
def Field.mode11 (w : Word) : BitVec 1 := w.extractLsb' 11 1
/-- `ir[4:0]`: imm5. -/
def Field.imm5 (w : Word) : BitVec 5 := w.extractLsb' 0 5
/-- `ir[5:0]`: offset6. -/
def Field.off6 (w : Word) : BitVec 6 := w.extractLsb' 0 6
/-- `ir[8:0]`: PCoffset9. -/
def Field.off9 (w : Word) : BitVec 9 := w.extractLsb' 0 9
/-- `ir[10:0]`: PCoffset11. -/
def Field.off11 (w : Word) : BitVec 11 := w.extractLsb' 0 11
/-- `ir[7:0]`: trapvect8, "a trap vector in bits 7–0" (30_encoding.md R51). -/
def Field.vect8 (w : Word) : BitVec 8 := w.extractLsb' 0 8
/-- `ir[4:3]`, ignored by ADD and AND in register mode (30_encoding.md R56). -/
def Field.ign4_3 (w : Word) : BitVec 2 := w.extractLsb' 3 2
/-- `ir[10:9]`, ignored by JSRR. -/
def Field.ign10_9 (w : Word) : BitVec 2 := w.extractLsb' 9 2
/-- `ir[11:8]`, ignored by TRAP. -/
def Field.ign11_8 (w : Word) : BitVec 4 := w.extractLsb' 8 4
/-- `ir[11:0]`, ignored by RTI and RES. -/
def Field.ign11_0 (w : Word) : BitVec 12 := w.extractLsb' 0 12

/-- A TRAP word's row: the six defined vectors have rows of their own (30_encoding.md R55, R58). -/
def decodeTrap (ign : BitVec 4) (vect : BitVec 8) : Instr :=
  if vect = 0x20#8 then .trapGetc ign
  else if vect = 0x21#8 then .trapOut ign
  else if vect = 0x22#8 then .trapPuts ign
  else if vect = 0x23#8 then .trapIn ign
  else if vect = 0x24#8 then .trapPutsp ign
  else if vect = 0x25#8 then .trapHalt ign
  else .trap ign vect

/-- The decoder (30_encoding.md R52, R53, R55); it refuses no word (log 27). -/
def decode (w : Word) : Instr :=
  match Field.opcode w with
  | 0x0#4 => .br (Field.r11_9 w) (Field.off9 w)
  | 0x1#4 =>
    if Field.mode5 w = 0#1 then .addReg (Field.r11_9 w) (Field.r8_6 w) (Field.ign4_3 w) (Field.r2_0 w)
    else .addImm (Field.r11_9 w) (Field.r8_6 w) (Field.imm5 w)
  | 0x2#4 => .ld (Field.r11_9 w) (Field.off9 w)
  | 0x3#4 => .st (Field.r11_9 w) (Field.off9 w)
  | 0x4#4 =>
    if Field.mode11 w = 0#1 then .jsrr (Field.ign10_9 w) (Field.r8_6 w) (Field.off6 w)
    else .jsr (Field.off11 w)
  | 0x5#4 =>
    if Field.mode5 w = 0#1 then .andReg (Field.r11_9 w) (Field.r8_6 w) (Field.ign4_3 w) (Field.r2_0 w)
    else .andImm (Field.r11_9 w) (Field.r8_6 w) (Field.imm5 w)
  | 0x6#4 => .ldr (Field.r11_9 w) (Field.r8_6 w) (Field.off6 w)
  | 0x7#4 => .str (Field.r11_9 w) (Field.r8_6 w) (Field.off6 w)
  | 0x8#4 => .rti (Field.ign11_0 w)
  | 0x9#4 => .not (Field.r11_9 w) (Field.r8_6 w) (Field.off6 w)
  | 0xA#4 => .ldi (Field.r11_9 w) (Field.off9 w)
  | 0xB#4 => .sti (Field.r11_9 w) (Field.off9 w)
  | 0xC#4 => .jmp (Field.r11_9 w) (Field.r8_6 w) (Field.off6 w)
  | 0xD#4 => .res (Field.ign11_0 w)
  | 0xE#4 => .lea (Field.r11_9 w) (Field.off9 w)
  | _ => decodeTrap (Field.ign11_8 w) (Field.vect8 w)

/-- The encoder: the word of an instruction, its fields laid side by side as 30_encoding.md R53 draws them. -/
def encode : Instr → Word
  | .br nzp off => 0x0#4 ++ nzp ++ off
  | .addReg dr sr1 ign sr2 => 0x1#4 ++ dr ++ sr1 ++ 0#1 ++ ign ++ sr2
  | .addImm dr sr1 imm => 0x1#4 ++ dr ++ sr1 ++ 1#1 ++ imm
  | .ld dr off => 0x2#4 ++ dr ++ off
  | .st sr off => 0x3#4 ++ sr ++ off
  | .jsrr ignHi base ignLo => 0x4#4 ++ 0#1 ++ ignHi ++ base ++ ignLo
  | .jsr off => 0x4#4 ++ 1#1 ++ off
  | .andReg dr sr1 ign sr2 => 0x5#4 ++ dr ++ sr1 ++ 0#1 ++ ign ++ sr2
  | .andImm dr sr1 imm => 0x5#4 ++ dr ++ sr1 ++ 1#1 ++ imm
  | .ldr dr base off => 0x6#4 ++ dr ++ base ++ off
  | .str sr base off => 0x7#4 ++ sr ++ base ++ off
  | .rti ign => 0x8#4 ++ ign
  | .not dr sr ign => 0x9#4 ++ dr ++ sr ++ ign
  | .ldi dr off => 0xA#4 ++ dr ++ off
  | .sti sr off => 0xB#4 ++ sr ++ off
  | .jmp ignHi base ignLo => 0xC#4 ++ ignHi ++ base ++ ignLo
  | .res ign => 0xD#4 ++ ign
  | .lea dr off => 0xE#4 ++ dr ++ off
  | .trap ign vect => 0xF#4 ++ ign ++ vect
  | .trapGetc ign => 0xF#4 ++ ign ++ 0x20#8
  | .trapOut ign => 0xF#4 ++ ign ++ 0x21#8
  | .trapPuts ign => 0xF#4 ++ ign ++ 0x22#8
  | .trapIn ign => 0xF#4 ++ ign ++ 0x23#8
  | .trapPutsp ign => 0xF#4 ++ ign ++ 0x24#8
  | .trapHalt ign => 0xF#4 ++ ign ++ 0x25#8

/-- The instruction word whose bits below `nbits` are `w` and whose other bits are 0; every instruction is one
16-bit word (30_encoding.md R50). -/
def tableWord (nbits w : Nat) : Word := BitVec.ofNat 16 (w % 2 ^ nbits)

/-- What the decoder reads from an instruction numbered as spec/opcode_table.json numbers its bits. -/
def decodeTableWord (nbits w : Nat) : Option Instr := some (decode (tableWord nbits w))

end Sys2Proof
end

