-- ==== Sys2Proof/Config.lean ====
section
/-! DEFINITION. What is fixed for the machine (the addresses the source states), the free values, and the named
parameters the spec leaves open (00_scope.md section 4), as data. Their default values stand in Machine/Defaults.lean. -/

namespace Sys2Proof

/-- The condition register's three values: "Exactly one flag is active at any time" (10_state.md R14). -/
inductive Cond
  | P
  | Z
  | N
  deriving DecidableEq, Repr

/-- The two settings of UNDEFINED_TRAP (44_trap.md R147, 92_eei_decisions.md D13). -/
inductive UndefinedTrap
  | noop
  | fault
  deriving DecidableEq, Repr

/-- The parameters the spec leaves to the machine (00_scope.md section 4). DESIGN CHOICE (log 26): they stand in
State, constant during a run, so that a statement about every state holds for every setting. -/
structure Config where
  /-- UNDEFINED_TRAP: what TRAP does with a vector outside 0x20 to 0x25. -/
  undefinedTrap : UndefinedTrap
  /-- TRAP_INPUT_SETS_CC: whether GETC and IN recompute `cond` from `x[0]` (D12). -/
  trapInputSetsCC : Bool
  /-- IN_PROMPT: the bytes IN emits as its prompt (D14). -/
  inPrompt : List Byte
  /-- SINK_MAY_FAIL: whether the output sink can refuse a character (D20). -/
  sinkMayFail : Bool
  deriving DecidableEq, Repr

/-- "the architecture's fixed program start address (0x3000)" (20_memory.md R38). -/
def Config.startPc : Word := 0x3000#16

/-- KBSR, the keyboard status register's address (10_state.md R19). -/
def Config.kbsr : Word := 0xFE00#16

/-- KBDR, the keyboard data register's address (10_state.md R19). -/
def Config.kbdr : Word := 0xFE02#16

/-- The bytes of an input that never ends, by number. A FREE VALUE (log 32): it has no body, so a statement holds
whatever the bytes are (10_state.md R21: `input` "may be empty, finite or unbounded"). -/
opaque Config.inputByte : Nat → Byte

end Sys2Proof
end

