-- ==== Sys2Proof/Machine/Defaults.lean ====
section
/-! DEFINITION. The values the spec's own decisions give to what the source leaves open: reset values (D5 to D7)
and the parameters' defaults (D12 to D14, D20). -/

namespace Sys2Proof.Machine

/-- RESET_REG. DESIGN CHOICE (log 4): the source gives none; the spec's default (92_eei_decisions.md D5). -/
def resetReg : Word := 0x0000#16

/-- RESET_COND. DESIGN CHOICE (log 5): the source gives none; the spec's default (D6). -/
def resetCond : Cond := .Z

/-- RESET_MEM: what an address that memory does not list reads as. DESIGN CHOICE (log 6): the source gives none;
the spec's default (D7). -/
def resetMem : Word := 0x0000#16

/-- The default IN_PROMPT, the 19 bytes of "Enter a character: " (95_test_vectors.md section 2.6). PRESUMED
(log 13): general knowledge, GK6. -/
def defaultPrompt : List Byte :=
  [0x45#8, 0x6E#8, 0x74#8, 0x65#8, 0x72#8, 0x20#8, 0x61#8, 0x20#8, 0x63#8, 0x68#8, 0x61#8, 0x72#8, 0x61#8,
   0x63#8, 0x74#8, 0x65#8, 0x72#8, 0x3A#8, 0x20#8]

/-- The parameters' defaults (00_scope.md section 4). -/
def defaultConfig : Config where
  undefinedTrap := .noop
  trapInputSetsCC := true
  inPrompt := defaultPrompt
  sinkMayFail := false

/-- How many words one step of the model scans of a PUTS or PUTSP string before it hands over to the next step:
one whole pass over memory. DESIGN CHOICE (log 22); a string with no zero word goes on, step after step, forever. -/
def scanBound : Nat := 65536

end Sys2Proof.Machine
end

