-- ==== Sys2Proof/Machine/State.lean ====
section
/-! DEFINITION. The machine's state as plain data: everything 10_state.md R10 lists, the producer's and the
engine's places inside their sequences (R24, 60_exceptions.md R171), the parameters, and the two lists of free
choices the environment makes. -/

namespace Sys2Proof.Machine

/-- The two agents (40_execution_cycle.md R70). -/
inductive Agent
  | engine
  | producer
  deriving DecidableEq, Repr

/-- The records the `fault` latch can hold (10_state.md R17). -/
inductive FaultRecord
  /-- A reserved opcode: the opcode, the instruction word, the address it was fetched from (60_exceptions.md R161). -/
  | decodeError (opcode : BitVec 4) (word address : Word)
  /-- The sink refused a character; only under SINK_MAY_FAIL (60_exceptions.md R163). -/
  | ioError
  /-- A TRAP vector outside 0x20 to 0x25; only under UNDEFINED_TRAP = fault (44_trap.md R147). -/
  | undefinedTrap (vector : Byte) (word address : Word)
  deriving DecidableEq, Repr

/-- Where the engine stands: between instructions, or in a handler that has not ended (10_state.md R24). -/
inductive Position
  /-- Between instructions: the next engine event is a fetch. -/
  | fetch
  /-- In the wait of GETC (44_trap.md R149). -/
  | getcWait
  /-- In the wait of IN, the prompt already emitted (44_trap.md R144). -/
  | inWait
  /-- In PUTS, the next word to read at `a` (44_trap.md R143). -/
  | puts (a : Word)
  /-- In PUTSP, the next word to read at `a` (44_trap.md R145). -/
  | putsp (a : Word)
  deriving DecidableEq, Repr

/-- The bytes the host will still deliver, a parameter of a run (10_state.md R21): first `bytes`, next first; then,
if `more` is `some n`, the bytes `Config.inputByte n`, `Config.inputByte (n + 1)` and so on without end, and nothing
otherwise. So it can be empty, finite or unbounded (log 32). -/
structure Input where
  bytes : List Byte
  more : Option Nat
  deriving DecidableEq, Repr

/-- An input that ends after the given bytes. -/
def Input.finite (bytes : List Byte) : Input := { bytes := bytes, more := none }

/-- An input that goes on without end after the given bytes. -/
def Input.unbounded (bytes : List Byte) : Input := { bytes := bytes, more := some 0 }

/-- Memory as data: address and word, addresses strictly rising, no word equal to what an unlisted address reads
as (`Memory.wf`, Machine/Ops.lean). DESIGN CHOICE (log 24): a cell is a 16-bit word, the smallest unit this
hardware addresses (20_memory.md R30, R34). -/
abbrev Memory := List (Nat × Word)

/-- The complete state (10_state.md R10). -/
structure State where
  /-- `x[0]` to `x[7]` (R11). -/
  regs : Vector Word 8
  /-- The program counter, a word address (R13). -/
  pc : Word
  /-- The condition register (R14). -/
  cond : Cond
  /-- The run flag (R16). -/
  running : Bool
  /-- The fault latch (R17). -/
  fault : Option FaultRecord
  /-- `mem`, KBSR and KBDR among its words (R18, R19). -/
  mem : Memory
  /-- The characters emitted so far, oldest first (R20). -/
  output : List Byte
  /-- What the producer has still to deliver (R21). -/
  input : Input
  /-- The producer has performed `KbdData` and its next event is `KbdReady` (60_exceptions.md R171). -/
  readyDue : Bool
  /-- The engine's place inside a handler (R24). -/
  pos : Position
  /-- The parameters (00_scope.md section 4); no event changes them. -/
  cfg : Config
  /-- The model's own field, a free choice: which agent has the next atomic event (20_memory.md R42). -/
  sched : List Agent
  /-- The model's own field, a free choice: whether the sink refuses the next characters (60_exceptions.md R163). -/
  sinkPlan : List Bool
  deriving DecidableEq, Repr

/-- Why the machine can have no next state. -/
inductive Fault
  /-- Raised by the step when `running` is false and the producer has no event left: the normal end of a run
  (40_execution_cycle.md R70, 70_reset_and_hazards.md R194). Safe: nothing is claimed past the end. -/
  | halted
  /-- Raised by the step when the `fault` latch is set and the producer has no event left: the run has failed
  (40_execution_cycle.md R70, 60_exceptions.md R161). Safe: nothing is claimed past the end. -/
  | faulted
  deriving DecidableEq, Repr

/-- Why an instruction can have no meaning. -/
inductive Refusal
  /-- Raised by an arm of `exec` whose instruction has no meaning yet; no arm does. Safe: the machine stops. -/
  | notModelled (mnemonic : String)
  deriving DecidableEq, Repr

/-- The state after `Reset` (70_reset_and_hazards.md R190, 10_state.md R23). `pc`, `running`, `fault` and `output`
as stated there; registers, `cond` and memory the spec's defaults (log 4, 5, 6); the environment's fields empty
(log 31). -/
def State.reset : State where
  regs := Vector.replicate 8 resetReg
  pc := Config.startPc
  cond := resetCond
  running := true
  fault := none
  mem := []
  output := []
  input := .finite []
  readyDue := false
  pos := .fetch
  cfg := defaultConfig
  sched := []
  sinkPlan := []

end Sys2Proof.Machine
end

