-- ==== Sys2Proof/Machine/Operands.lean ====
section
/-! DEFINITION. Operand values and effective addresses: sign and zero extension (00_scope.md R2, R3), the low and
high byte of a word, and the three addressing modes (42_data_movement.md R107). -/

namespace Sys2Proof.Machine

/-- `sext_N` of an N-bit field (00_scope.md R2, 30_encoding.md R54). -/
def sext {n : Nat} (v : BitVec n) : Word := v.signExtend 16

/-- `zext_N` of an N-bit field (00_scope.md R3). -/
def zext {n : Nat} (v : BitVec n) : Word := v.setWidth 16

/-- The source's `signExtend(value, bitWidth)` on a whole word: only the low `width` bits count; a width outside
1 to 16 is refused (00_scope.md R2, 93_implementation_defined.md U3; log 29). -/
def signExtendLow (value : Word) (width : Nat) : Option Word :=
  if 1 ≤ width ∧ width ≤ 16 then some (sext (value.setWidth width)) else none

/-- `w[7:0]`. -/
def lowByte (w : Word) : Byte := w.extractLsb' 0 8

/-- `w[15:8]`. -/
def highByte (w : Word) : Byte := w.extractLsb' 8 8

/-- Read of a general register (10_state.md R11). -/
def State.reg (s : State) (i : RegIdx) : Word := s.regs[i.toNat]'i.isLt

/-- PC-relative address; `pc` is the incremented pc (42_data_movement.md R107 (a), 40_execution_cycle.md R72). -/
def eaPc {n : Nat} (off : BitVec n) (s : State) : Word := s.pc + sext off

/-- Base plus offset (42_data_movement.md R107 (c)). -/
def eaBase (base : RegIdx) (off : BitVec 6) (s : State) : Word := s.reg base + sext off

end Sys2Proof.Machine
end

