-- ==== Sys2Proof/Machine/Flags.lean ====
section
/-! DEFINITION. The condition-code generator and the branch test. -/

namespace Sys2Proof.Machine

/-- The flag a written value gives (40_execution_cycle.md R75). -/
def condOf (v : Word) : Cond :=
  if v = 0x0000#16 then .Z else if v.msb then .N else .P

/-- `setcc(v)`: recomputes `cond` and nothing else (40_execution_cycle.md R75). -/
def State.setcc (s : State) (v : Word) : State := { s with cond := condOf v }

/-- The one-hot value of `cond`. PRESUMED (log 2): which bit is which flag is the spec's own choice
(10_state.md R15, D3). -/
def condBits : Cond → BitVec 3
  | .P => 0b001#3
  | .Z => 0b010#3
  | .N => 0b100#3

/-- BR's test: "a 3-bit mask tested against `condition` with bitwise AND" (43_control.md R120). -/
def branchTaken (nzp : BitVec 3) (c : Cond) : Bool := (nzp &&& condBits c) != 0#3

end Sys2Proof.Machine
end

