-- ==== Sys2Proof/Machine/Ops.lean ====
section
/-! DEFINITION. The shared operations over registers, memory, the schedule, the keyboard device and the output
sink, and the setting of the fault latch. Nothing returns from a fault or from a trap service (60_exceptions.md
R161, R167), so there is no operation for it. -/

namespace Sys2Proof.Machine

/-! ### Registers -/

/-- `x[i] <- v` (10_state.md R11). -/
def State.setReg (s : State) (i : RegIdx) (v : Word) : State :=
  { s with regs := s.regs.set i.toNat v i.isLt }

/-- A condition-setting write: `x[DR] <- v`, then `setcc(x[DR])` (40_execution_cycle.md R74, R75). -/
def State.writeDest (s : State) (dr : RegIdx) (v : Word) : State := (s.setReg dr v).setcc v

/-! ### Memory -/

/-- The word listed under key `k`, or what an unlisted address reads as. -/
def Memory.find (k : Nat) : Memory → Word
  | [] => resetMem
  | c :: m => if c.1 = k then c.2 else Memory.find k m

/-- `MemRead(addr, 1)`, total (20_memory.md R31). -/
def Memory.read (m : Memory) (a : Word) : Word := Memory.find a.toNat m

/-- Puts an entry in its place, before the first entry that does not have a lower key. -/
def Memory.place (k : Nat) (v : Word) : Memory → Memory
  | [] => [(k, v)]
  | c :: m => if c.1 < k then c :: Memory.place k v m else (k, v) :: c :: m

/-- `MemWrite(addr, 1, v)`, total (20_memory.md R32). It keeps the canonical form: the old entry goes, and a value
equal to what an unlisted address reads as is not listed. -/
def Memory.write (m : Memory) (a v : Word) : Memory :=
  let rest := m.filter (fun c => c.1 != a.toNat)
  if v = resetMem then rest else Memory.place a.toNat v rest

/-- The canonical form: keys strictly rising, each an address, no word equal to what an unlisted address reads as. -/
abbrev Memory.wf (m : Memory) : Prop :=
  m.Pairwise (fun c d => c.1 < d.1) ∧ ∀ c ∈ m, c.1 < 65536 ∧ c.2 ≠ resetMem

/-- `MemRead` on the machine's memory (20_memory.md R31). -/
def State.readMem (s : State) (a : Word) : Word := Memory.read s.mem a

/-- `MemWrite` on the machine's memory (20_memory.md R32). -/
def State.writeMem (s : State) (a v : Word) : State := { s with mem := Memory.write s.mem a v }

/-! ### The keyboard device and the producer -/

/-- READY, bit 15 of KBSR (10_state.md R19). -/
def State.ready (s : State) : Bool := (s.readMem Config.kbsr).msb

/-- The next byte of an input and what is left after it; nothing when it is exhausted (10_state.md R21). -/
def Input.next (i : Input) : Option (Byte × Input) :=
  match i.bytes with
  | b :: rest => some (b, { i with bytes := rest })
  | [] => i.more.map fun n => (Config.inputByte n, { i with more := some (n + 1) })

/-- The producer is enabled: a byte is left to deliver, or `KbdReady` of the last one is due (60_exceptions.md R171). -/
def State.producerEnabled (s : State) : Bool := s.readyDue || s.input.next.isSome

/-- `KbdData(b)`: the whole word `zext_8(b)` into KBDR (60_exceptions.md R171; D17, log 15). -/
def kbdData (b : Byte) (rest : Input) (s : State) : State :=
  { (s.writeMem Config.kbdr (zext b)) with input := rest, readyDue := true }

/-- `KbdReady`: sets bit 15 of KBSR and no other bit (60_exceptions.md R171; D16, log 15). -/
def kbdReady (s : State) : State :=
  { (s.writeMem Config.kbsr (s.readMem Config.kbsr ||| 0x8000#16)) with readyDue := false }

/-- The producer's next event, whatever READY is and whatever the engine does (60_exceptions.md R171; D28, log 23);
nothing when it has none. -/
def producerEvent (s : State) : State :=
  if s.readyDue then kbdReady s
  else
    match s.input.next with
    | none => s
    | some (b, rest) => kbdData b rest s

/-! ### The schedule -/

/-- The producer events a schedule puts before the engine's next event, and that event's own entry. An exhausted
schedule gives the engine its event. -/
def drain : List Agent → State → State
  | [], s => { s with sched := [] }
  | .engine :: rest, s => { s with sched := rest }
  | .producer :: rest, s => drain rest (producerEvent s)

/-- What happens before one atomic event of the engine: the producer events the schedule puts there
(20_memory.md R36, R42; log 16, log 28). -/
def State.turn (s : State) : State := drain s.sched s

/-! ### The fault latch -/

/-- Sets the `fault` latch and ends the instruction; nothing is saved, no mode changes, control goes nowhere
(10_state.md R17, 60_exceptions.md R161, R163). -/
def State.raise (s : State) (r : FaultRecord) : State := { s with fault := some r, pos := .fetch }

/-- `raise DecodeError(opcode, ir, pc - 1)`; `pc` is the incremented pc (43_control.md R124, R125). -/
def decodeFault (opcode : BitVec 4) (ir : Word) (s : State) : State :=
  s.raise (.decodeError opcode ir (s.pc - 1#16))

/-! ### The output sink -/

/-- The sink refuses the next character: only under SINK_MAY_FAIL, and then as the free plan says
(60_exceptions.md R163; log 18). -/
def State.sinkRefuses (s : State) : Bool := s.cfg.sinkMayFail && s.sinkPlan.headD false

/-- The plan after one `out`. -/
def State.sinkRest (s : State) : List Bool := if s.cfg.sinkMayFail then s.sinkPlan.tail else s.sinkPlan

/-- `out(c)` on an accepting sink: one character appended (00_scope.md R6). -/
def State.emitChar (s : State) (c : Byte) : State :=
  { s with output := s.output ++ [c], sinkPlan := s.sinkRest }

/-- `out` of each character in order. The Bool says whether all were accepted; at a refusal the latch holds
`IOError` and nothing after it happens (60_exceptions.md R163). -/
def emit : List Byte → State → State × Bool
  | [], s => (s, true)
  | c :: cs, s =>
    if s.sinkRefuses then ({ s with sinkPlan := s.sinkRest }.raise .ioError, false) else emit cs (s.emitChar c)

/-! ### The services' shared sequences -/

/-- The consume sequence of GETC and IN from a poll on: E1 poll, E2 read KBDR into `x[0]`, E3 clear READY, then
`setcc`; producer events may fall before each of E1, E2, E3 (44_trap.md R149). The Bool says whether READY was
observed set; if not, the engine holds at `hold` with nothing changed by the poll. -/
def consume (hold : Position) (s : State) : State × Bool :=
  let s1 := s.turn
  if s1.ready then
    let s2 := s1.turn
    let s3 := (s2.setReg 0#3 (s2.readMem Config.kbdr)).turn
    let s4 := s3.writeMem Config.kbsr (s3.readMem Config.kbsr &&& 0x7FFF#16)
    (if s4.cfg.trapInputSetsCC then s4.setcc (s4.reg 0#3) else s4, true)
  else ({ s1 with pos := hold }, false)

/-- The string scan of PUTS and PUTSP: read a word, stop at a zero word, emit its characters, go on at the next
address (44_trap.md R143, R145). After `n` words without an end the engine stands at `hold` of the next address
and the next step goes on from there (log 22). -/
def scan (chars : Word → List Byte) (hold : Word → Position) : Nat → Word → State → State
  | 0, a, s => { s with pos := hold a }
  | n + 1, a, s =>
    let s1 := s.turn
    if s1.readMem a = 0x0000#16 then { s1 with pos := .fetch }
    else
      match emit (chars (s1.readMem a)) s1 with
      | (s2, true) => scan chars hold n (a + 1#16) s2
      | (s2, false) => s2

end Sys2Proof.Machine
end

