-- ==== Sys2Proof/Machine/Alu.lean ====
section
/-! DEFINITION. Operate instructions: ADD, AND, NOT (41_operate.md). Sources are read before the destination is
written; `cond` comes from the result; nothing else changes. -/

namespace Sys2Proof.Machine

/-- ADD, register mode (41_operate.md R90). -/
def execAddReg (dr sr1 sr2 : RegIdx) (s : State) : Host.Outcome State Fault Refusal :=
  .next (s.writeDest dr (s.reg sr1 + s.reg sr2))

/-- ADD, immediate mode (41_operate.md R91). -/
def execAddImm (dr sr1 : RegIdx) (imm : BitVec 5) (s : State) : Host.Outcome State Fault Refusal :=
  .next (s.writeDest dr (s.reg sr1 + sext imm))

/-- AND, register mode (41_operate.md R92). -/
def execAndReg (dr sr1 sr2 : RegIdx) (s : State) : Host.Outcome State Fault Refusal :=
  .next (s.writeDest dr (s.reg sr1 &&& s.reg sr2))

/-- AND, immediate mode (41_operate.md R93). -/
def execAndImm (dr sr1 : RegIdx) (imm : BitVec 5) (s : State) : Host.Outcome State Fault Refusal :=
  .next (s.writeDest dr (s.reg sr1 &&& sext imm))

/-- NOT (41_operate.md R94). -/
def execNot (dr sr : RegIdx) (s : State) : Host.Outcome State Fault Refusal :=
  .next (s.writeDest dr (~~~(s.reg sr)))

end Sys2Proof.Machine
end

