-- ==== Sys2Proof/Machine/Control.lean ====
section
/-! DEFINITION. Control: BR, JMP, JSR, JSRR, and the reserved RTI and RES (43_control.md). `pc` is the incremented
pc; none of these changes `cond`. -/

namespace Sys2Proof.Machine

/-- BR (43_control.md R120). -/
def execBr (nzp : BitVec 3) (off : BitVec 9) (s : State) : Host.Outcome State Fault Refusal :=
  .next (if branchTaken nzp s.cond then { s with pc := eaPc off s } else s)

/-- JMP, and RET when the base is R7 (43_control.md R121). -/
def execJmp (base : RegIdx) (s : State) : Host.Outcome State Fault Refusal :=
  .next { s with pc := s.reg base }

/-- JSR (43_control.md R122). -/
def execJsr (off : BitVec 11) (s : State) : Host.Outcome State Fault Refusal :=
  let s1 := s.setReg 7#3 s.pc
  .next { s1 with pc := eaPc off s1 }

/-- JSRR: the link is written first, the base register read after it, so R7 falls through (43_control.md R123;
D10, log 9). -/
def execJsrr (base : RegIdx) (s : State) : Host.Outcome State Fault Refusal :=
  let s1 := s.setReg 7#3 s.pc
  .next { s1 with pc := s1.reg base }

/-- RTI: reserved; raises DecodeError and does nothing else (43_control.md R124; D9, log 8). -/
def execRti (ign : BitVec 12) (s : State) : Host.Outcome State Fault Refusal :=
  .next (decodeFault 0b1000#4 (0b1000#4 ++ ign) s)

/-- RES: reserved; raises DecodeError and does nothing else (43_control.md R125; D9, log 8). -/
def execRes (ign : BitVec 12) (s : State) : Host.Outcome State Fault Refusal :=
  .next (decodeFault 0b1101#4 (0b1101#4 ++ ign) s)

end Sys2Proof.Machine
end

