-- ==== Sys2Proof/Machine/DataMovement.lean ====
section
/-! DEFINITION. Data movement: LD, LDI, LDR, LEA, ST, STI, STR (42_data_movement.md). `pc` is the incremented pc.
Before each data access stands the engine's turn: the producer events the schedule puts there (20_memory.md R36). -/

namespace Sys2Proof.Machine

/-- LD (42_data_movement.md R100). -/
def execLd (dr : RegIdx) (off : BitVec 9) (s : State) : Host.Outcome State Fault Refusal :=
  let s1 := s.turn
  .next (s1.writeDest dr (s1.readMem (eaPc off s)))

/-- LDI: the pointer first, then the operand, two separate accesses (42_data_movement.md R101). -/
def execLdi (dr : RegIdx) (off : BitVec 9) (s : State) : Host.Outcome State Fault Refusal :=
  let s1 := s.turn
  let ea := s1.readMem (eaPc off s)
  let s2 := s1.turn
  .next (s2.writeDest dr (s2.readMem ea))

/-- LDR: the base is read before DR is written (42_data_movement.md R102). -/
def execLdr (dr base : RegIdx) (off : BitVec 6) (s : State) : Host.Outcome State Fault Refusal :=
  let s1 := s.turn
  .next (s1.writeDest dr (s1.readMem (eaBase base off s)))

/-- LEA: no memory access; condition-setting (42_data_movement.md R103, 40_execution_cycle.md R76). -/
def execLea (dr : RegIdx) (off : BitVec 9) (s : State) : Host.Outcome State Fault Refusal :=
  .next (s.writeDest dr (eaPc off s))

/-- ST (42_data_movement.md R104). -/
def execSt (sr : RegIdx) (off : BitVec 9) (s : State) : Host.Outcome State Fault Refusal :=
  let s1 := s.turn
  .next (s1.writeMem (eaPc off s) (s.reg sr))

/-- STI: the pointer is read once, before the write (42_data_movement.md R105). -/
def execSti (sr : RegIdx) (off : BitVec 9) (s : State) : Host.Outcome State Fault Refusal :=
  let s1 := s.turn
  let ea := s1.readMem (eaPc off s)
  let s2 := s1.turn
  .next (s2.writeMem ea (s.reg sr))

/-- STR (42_data_movement.md R106). -/
def execStr (sr base : RegIdx) (off : BitVec 6) (s : State) : Host.Outcome State Fault Refusal :=
  let s1 := s.turn
  .next (s1.writeMem (eaBase base off s) (s.reg sr))

end Sys2Proof.Machine
end

