-- ==== Sys2Proof/Machine/Trap.lean ====
section
/-! DEFINITION. TRAP and its services (44_trap.md). A service is performed by the engine inside the instruction:
no link, no vector table, `pc` stays the incremented one (R148; D11, log 10). -/

namespace Sys2Proof.Machine

/-- The characters PUTS emits for one word: its low byte (44_trap.md R143; D15, log 14). -/
def putsChars (w : Word) : List Byte := [lowByte w]

/-- The characters PUTSP emits for one word: the low byte always, the high byte if it is not zero (44_trap.md R145). -/
def putspChars (w : Word) : List Byte :=
  if highByte w = 0x00#8 then [lowByte w] else [lowByte w, highByte w]

/-- GETC, from a poll on (44_trap.md R141, R149). -/
def serviceGetc (s : State) : State :=
  match consume .getcWait s with
  | (t, true) => { t with pos := .fetch }
  | (t, false) => t

/-- IN after its prompt, from a poll on: consume, then the echo (44_trap.md R144). -/
def serviceInAfterPrompt (s : State) : State :=
  match consume .inWait s with
  | (t, true) => (emit [lowByte (t.reg 0#3)] { t with pos := .fetch }).1
  | (t, false) => t

/-- IN: the prompt before the wait (44_trap.md R144; D14, log 13), then the rest. -/
def serviceIn (s : State) : State :=
  match emit s.cfg.inPrompt s with
  | (t, true) => serviceInAfterPrompt t
  | (t, false) => t

/-- OUT (44_trap.md R142). -/
def serviceOut (s : State) : State := (emit [lowByte (s.reg 0#3)] s).1

/-- PUTS from address `a` on (44_trap.md R143). -/
def servicePuts (a : Word) (s : State) : State := scan putsChars .puts scanBound a s

/-- PUTSP from address `a` on (44_trap.md R145). -/
def servicePutsp (a : Word) (s : State) : State := scan putspChars .putsp scanBound a s

/-- HALT: clear `running`; no message (44_trap.md R146). -/
def serviceHalt (s : State) : State := { s with running := false }

/-- A vector outside 0x20 to 0x25: nothing, or the UndefinedTrap fault, as the parameter says (44_trap.md R147;
D13, log 12). -/
def undefinedVector (ign : BitVec 4) (vect : BitVec 8) (s : State) : State :=
  match s.cfg.undefinedTrap with
  | .noop => s
  | .fault => s.raise (.undefinedTrap vect (0b1111#4 ++ ign ++ vect) (s.pc - 1#16))

/-- TRAP, dispatch by vector (44_trap.md R140). A well-formed `trap` has a vector outside the six. -/
def execTrap (ign : BitVec 4) (vect : BitVec 8) (s : State) : Host.Outcome State Fault Refusal :=
  .next
    (if vect = 0x20#8 then serviceGetc s
     else if vect = 0x21#8 then serviceOut s
     else if vect = 0x22#8 then servicePuts (s.reg 0#3) s
     else if vect = 0x23#8 then serviceIn s
     else if vect = 0x24#8 then servicePutsp (s.reg 0#3) s
     else if vect = 0x25#8 then serviceHalt s
     else undefinedVector ign vect s)

/-- TRAP x20, GETC (44_trap.md R141). -/
def execTrapGetc (s : State) : Host.Outcome State Fault Refusal := .next (serviceGetc s)

/-- TRAP x21, OUT (44_trap.md R142). -/
def execTrapOut (s : State) : Host.Outcome State Fault Refusal := .next (serviceOut s)

/-- TRAP x22, PUTS (44_trap.md R143). -/
def execTrapPuts (s : State) : Host.Outcome State Fault Refusal := .next (servicePuts (s.reg 0#3) s)

/-- TRAP x23, IN (44_trap.md R144). -/
def execTrapIn (s : State) : Host.Outcome State Fault Refusal := .next (serviceIn s)

/-- TRAP x24, PUTSP (44_trap.md R145). -/
def execTrapPutsp (s : State) : Host.Outcome State Fault Refusal := .next (servicePutsp (s.reg 0#3) s)

/-- TRAP x25, HALT (44_trap.md R146). -/
def execTrapHalt (s : State) : Host.Outcome State Fault Refusal := .next (serviceHalt s)

end Sys2Proof.Machine
end

