-- ==== Sys2Proof/Machine/Dispatch.lean ====
section
/-! DEFINITION. Dispatch: "exactly one handler" per instruction (40_execution_cycle.md R73). Ignored bits are not
handed to the handler (30_encoding.md R56), except where a fault record keeps the whole word. -/

namespace Sys2Proof.Machine

def exec (i : Instr) (s : State) : Host.Outcome State Fault Refusal :=
  match i with
  | .br nzp off => Sys2Proof.Machine.execBr nzp off s
  | .addReg dr sr1 _ sr2 => Sys2Proof.Machine.execAddReg dr sr1 sr2 s
  | .addImm dr sr1 imm => Sys2Proof.Machine.execAddImm dr sr1 imm s
  | .ld dr off => Sys2Proof.Machine.execLd dr off s
  | .st sr off => Sys2Proof.Machine.execSt sr off s
  | .jsrr _ base _ => Sys2Proof.Machine.execJsrr base s
  | .jsr off => Sys2Proof.Machine.execJsr off s
  | .andReg dr sr1 _ sr2 => Sys2Proof.Machine.execAndReg dr sr1 sr2 s
  | .andImm dr sr1 imm => Sys2Proof.Machine.execAndImm dr sr1 imm s
  | .ldr dr base off => Sys2Proof.Machine.execLdr dr base off s
  | .str sr base off => Sys2Proof.Machine.execStr sr base off s
  | .rti ign => Sys2Proof.Machine.execRti ign s
  | .not dr sr _ => Sys2Proof.Machine.execNot dr sr s
  | .ldi dr off => Sys2Proof.Machine.execLdi dr off s
  | .sti sr off => Sys2Proof.Machine.execSti sr off s
  | .jmp _ base _ => Sys2Proof.Machine.execJmp base s
  | .res ign => Sys2Proof.Machine.execRes ign s
  | .lea dr off => Sys2Proof.Machine.execLea dr off s
  | .trap ign vect => Sys2Proof.Machine.execTrap ign vect s
  | .trapGetc _ => Sys2Proof.Machine.execTrapGetc s
  | .trapOut _ => Sys2Proof.Machine.execTrapOut s
  | .trapPuts _ => Sys2Proof.Machine.execTrapPuts s
  | .trapIn _ => Sys2Proof.Machine.execTrapIn s
  | .trapPutsp _ => Sys2Proof.Machine.execTrapPutsp s
  | .trapHalt _ => Sys2Proof.Machine.execTrapHalt s

end Sys2Proof.Machine
end

