-- ==== Sys2Proof/Machine/Engine.lean ====
section
/-! DEFINITION. The events of the two agents put together: the engine's step (fetch, increment, decode, one
handler; 40_execution_cycle.md R71 to R74), going on with an unfinished handler, and what is left when the engine
has no step. -/

namespace Sys2Proof.Machine

/-- The engine has a step: `running` is true and `fault` is `None` (40_execution_cycle.md R70). -/
def State.engineEnabled (s : State) : Bool := s.running && s.fault.isNone

/-- The state whose memory the fetch reads: the engine's entry of the schedule is used up. -/
def State.takeEntry (s : State) : State := { s with sched := s.sched.tail }

/-- The state a handler starts from: `pc` incremented, wrapping, before anything else (40_execution_cycle.md R72). -/
def State.fetched (s : State) : State := { s.takeEntry with pc := s.pc + 1#16 }

/-- Fetch, increment, decode, one handler (40_execution_cycle.md R74). -/
def fetchStep (s : State) : Host.Outcome State Fault Refusal := exec (decode (s.readMem s.pc)) s.fetched

/-- One step of an engine held in a wait: with the schedule used up and READY clear the producer moves if it can
(70_reset_and_hazards.md R198; log 25), otherwise the engine polls (44_trap.md R149; D27, log 19). -/
def waitStep (service : State → State) (s : State) : State :=
  if s.sched.isEmpty && !s.ready && s.producerEnabled then producerEvent s else service s

/-- One step of an enabled engine, from the place it stands at (10_state.md R24). -/
def engineStep (s : State) : Host.Outcome State Fault Refusal :=
  match s.pos with
  | .fetch => fetchStep s
  | .getcWait => .next (waitStep serviceGetc s)
  | .inWait => .next (waitStep serviceInAfterPrompt s)
  | .puts a => .next (servicePuts a s)
  | .putsp a => .next (servicePutsp a s)

/-- What is left when the engine has no step: the producer's events, and then nothing, ever again
(40_execution_cycle.md R70, 70_reset_and_hazards.md R194; D25, log 21). -/
def stoppedStep (s : State) : Host.Outcome State Fault Refusal :=
  if s.producerEnabled then .next (producerEvent s.takeEntry)
  else .fault (if s.fault.isSome then .faulted else .halted)

/-- One step of the whole machine: an event of the producer when the schedule puts one first, else a step of the
engine (40_execution_cycle.md R70, 20_memory.md R42). -/
def machineStep (s : State) : Host.Outcome State Fault Refusal :=
  match s.sched with
  | .producer :: rest => .next (producerEvent { s with sched := rest })
  | _ => if s.engineEnabled then engineStep s else stoppedStep s

end Sys2Proof.Machine
end

