-- ==== Sys2Proof/Machine/Step.lean ====
section
/-! DEFINITION. The step, and how the host places one instruction where the step fetches it. -/

namespace Sys2Proof.Machine

/-- One step of the machine (Machine/Engine.lean). -/
def step (s : State) : Host.Outcome State Fault Refusal := machineStep s

/-- The state with one instruction word stored where the next step fetches, the engine enabled and between
instructions, and no producer event put before the fetch. It stands for the load of a program (log 20). -/
def State.withFetchWord (s : State) (nbits w : Nat) : State :=
  { (s.writeMem s.pc (tableWord nbits w)) with
    running := true
    fault := none
    pos := .fetch
    sched := s.sched.dropWhile (fun a => a == Agent.producer) }

end Sys2Proof.Machine
end

