-- ==== Sys2Proof/Machine/Boot.lean ====
section
/-! DEFINITION. The boot interface: the loader's one effect on memory, between reset and the first step
(70_reset_and_hazards.md R191, R192). The loader is no part of a step. -/

namespace Sys2Proof.Machine

/-- Why the loader rejects an image: "execution must not begin" (60_exceptions.md R162, 70_reset_and_hazards.md
R192), so a rejected load answers no state (93_implementation_defined.md U9). -/
inductive LoadError
  /-- "the stream is shorter than one word". -/
  | tooShort
  /-- An odd number of bytes (93_implementation_defined.md U10; log 20). -/
  | oddLength
  /-- "loading would write past address 0xFFFF". -/
  | pastEnd
  deriving DecidableEq, Repr

/-- The big-endian words of a byte stream; `none` when a single byte trails (20_memory.md R34 (a)). -/
def wordsOfBytes : List Byte → Option (List Word)
  | [] => some []
  | [_] => none
  | hi :: lo :: rest => (wordsOfBytes rest).map fun ws => (hi ++ lo) :: ws

/-- Writes words at consecutive addresses. -/
def storeWords : List Word → Word → Memory → Memory
  | [], _, m => m
  | w :: ws, a, m => storeWords ws (a + 1#16) (Memory.write m a w)

/-- `Load(image)` (70_reset_and_hazards.md R191): the origin, then the words from the origin on; `pc` does not
depend on the origin (D24, log 20). -/
def load (image : List Byte) (s : State) : Except LoadError State :=
  if image.length < 2 then .error .tooShort
  else
    match wordsOfBytes image with
    | none => .error .oddLength
    | some [] => .error .tooShort
    | some (origin :: ws) =>
      if origin.toNat + ws.length ≤ 65536 then .ok { s with mem := storeWords ws origin s.mem }
      else .error .pastEnd

/-- A launch: reset, the parameters and the environment's sequences, then one load (60_exceptions.md R180). DESIGN
CHOICE (log 33): no keyboard event falls between the reset and the load. -/
def launch (cfg : Config) (input : Input) (sched : List Agent) (sinkPlan : List Bool) (image : List Byte) :
    Except LoadError State :=
  load image { State.reset with cfg := cfg, input := input, sched := sched, sinkPlan := sinkPlan }

end Sys2Proof.Machine
end

