-- ==== Sys2Proof/Safety.lean ====
section
/-! DEFINITION. The terms claims are written in: the machine invariant, what a run's ends are, and the frames, that
is, which parts of the state an event leaves as they were. -/

namespace Sys2Proof.Machine

/-- What a record in the `fault` latch says of the state that holds it (10_state.md R17, 60_exceptions.md R161,
R163, 44_trap.md R147). -/
def FaultRecord.Allowed (s : State) : FaultRecord → Prop
  | .decodeError opcode word address =>
    (opcode = 0b1000#4 ∨ opcode = 0b1101#4) ∧ opcode = Field.opcode word ∧ address + 1#16 = s.pc
  | .ioError => s.cfg.sinkMayFail = true
  | .undefinedTrap vector word address =>
    s.cfg.undefinedTrap = .fault ∧ definedVector vector = false ∧ Field.opcode word = 0b1111#4 ∧
      vector = Field.vect8 word ∧ address + 1#16 = s.pc

/-- The machine invariant: memory is in its canonical form, a stopped engine stands between instructions, a run
ends by halt or by fault and not by both (70_reset_and_hazards.md R194), and the latch holds only records the
parameters allow, of the word they name. -/
def State.Inv (s : State) : Prop :=
  Memory.wf s.mem ∧
  (s.engineEnabled = false → s.pos = .fetch) ∧
  (s.running = false → s.fault = none) ∧
  (∀ r, s.fault = some r → r.Allowed s)

/-- The engine is between instructions, enabled, and has the next event: its step is a fetch. -/
def State.Fetching (s : State) : Prop :=
  s.engineEnabled = true ∧ s.pos = .fetch ∧ s.sched.head? ≠ some .producer

/-- The engine is enabled, stands at `p`, and has the next event: its step goes on from there (10_state.md R24). -/
def State.GoesOnAt (s : State) (p : Position) : Prop :=
  s.engineEnabled = true ∧ s.pos = p ∧ s.sched.head? ≠ some .producer

/-- The byte number `k` an input still has to deliver, if it has so many. -/
def Input.byteAt (i : Input) (k : Nat) : Option Byte :=
  match i.bytes[k]? with
  | some b => some b
  | none => i.more.map fun n => Config.inputByte (n + (k - i.bytes.length))

/-- `b` is one of the bytes an input has still to deliver. -/
def Input.Holds (i : Input) (b : Byte) : Prop := ∃ k, i.byteAt k = some b

/-- Everything but registers, `cond`, `pc` and memory is as it was. -/
structure SameRest (s t : State) : Prop where
  running : t.running = s.running
  fault : t.fault = s.fault
  output : t.output = s.output
  input : t.input = s.input
  readyDue : t.readyDue = s.readyDue
  pos : t.pos = s.pos
  cfg : t.cfg = s.cfg
  sched : t.sched = s.sched
  sinkPlan : t.sinkPlan = s.sinkPlan

/-- From `s` to `t` one register is written with `v`, `cond` is recomputed from `v`, and nothing else changes. -/
structure WritesReg (s t : State) (dr : RegIdx) (v : Word) : Prop where
  dest : t.reg dr = v
  cond : t.cond = condOf v
  others : ∀ i, i ≠ dr → t.reg i = s.reg i
  pc : t.pc = s.pc
  mem : ∀ a, t.readMem a = s.readMem a
  rest : SameRest s t

/-- From `s` to `t` one memory word is written with `v` and nothing else changes. -/
structure StoresWord (s t : State) (ea v : Word) : Prop where
  stored : t.readMem ea = v
  others : ∀ a, a ≠ ea → t.readMem a = s.readMem a
  regs : ∀ i, t.reg i = s.reg i
  cond : t.cond = s.cond
  pc : t.pc = s.pc
  rest : SameRest s t

/-- From `s` to `t` only `pc` changes, to `target`. -/
structure MovesPc (s t : State) (target : Word) : Prop where
  pc : t.pc = target
  regs : ∀ i, t.reg i = s.reg i
  cond : t.cond = s.cond
  mem : ∀ a, t.readMem a = s.readMem a
  rest : SameRest s t

/-- From `s` to `t` the link register gets `s.pc`, `pc` becomes `target`, and nothing else changes. -/
structure LinksTo (s t : State) (target : Word) : Prop where
  link : t.reg 7#3 = s.pc
  pc : t.pc = target
  others : ∀ i, i ≠ 7#3 → t.reg i = s.reg i
  cond : t.cond = s.cond
  mem : ∀ a, t.readMem a = s.readMem a
  rest : SameRest s t

/-- From `s` to `t` the latch is set to `r` and nothing else changes; the engine stands between instructions. -/
structure Faults (s t : State) (r : FaultRecord) : Prop where
  fault : t.fault = some r
  pos : t.pos = .fetch
  pc : t.pc = s.pc
  regs : ∀ i, t.reg i = s.reg i
  cond : t.cond = s.cond
  running : t.running = s.running
  mem : ∀ a, t.readMem a = s.readMem a
  output : t.output = s.output
  input : t.input = s.input
  readyDue : t.readyDue = s.readyDue
  cfg : t.cfg = s.cfg
  sched : t.sched = s.sched

/-- What the engine alone can change is the same in `s` and `t`, memory outside the two device words too; the
device words, the input and the schedule are the producer's. -/
structure SameEngineState (s t : State) : Prop where
  regs : ∀ i, t.reg i = s.reg i
  cond : t.cond = s.cond
  pc : t.pc = s.pc
  running : t.running = s.running
  fault : t.fault = s.fault
  output : t.output = s.output
  cfg : t.cfg = s.cfg
  sinkPlan : t.sinkPlan = s.sinkPlan
  mem : ∀ a, a ≠ Config.kbsr → a ≠ Config.kbdr → t.readMem a = s.readMem a

/-- `s` and `t` cannot be told apart: every register, flag and word reads the same and the rest is equal. -/
structure Agree (s t : State) : Prop where
  regs : ∀ i, t.reg i = s.reg i
  cond : t.cond = s.cond
  pc : t.pc = s.pc
  mem : ∀ a, t.readMem a = s.readMem a
  rest : SameRest s t

/-- A completed consume sequence from `s`, whose three accesses E1, E2, E3 are at the states after one, two and
three turns: what it does to registers, `cond` and memory, and what the producer did meanwhile (44_trap.md R149). -/
structure Consumed (s t : State) : Prop where
  data : t.reg 0#3 = s.turn.turn.readMem Config.kbdr
  others : ∀ i, i ≠ 0#3 → t.reg i = s.reg i
  cond : t.cond = if s.cfg.trapInputSetsCC then condOf (t.reg 0#3) else s.cond
  pc : t.pc = s.pc
  kbsr : t.readMem Config.kbsr = s.turn.turn.turn.readMem Config.kbsr &&& 0x7FFF#16
  mem : ∀ a, a ≠ Config.kbsr → t.readMem a = s.turn.turn.turn.readMem a
  input : t.input = s.turn.turn.turn.input
  readyDue : t.readyDue = s.turn.turn.turn.readyDue
  sched : t.sched = s.turn.turn.turn.sched
  running : t.running = s.running
  pos : t.pos = .fetch
  cfg : t.cfg = s.cfg

/-- The two device words' addresses. -/
def IsDevice (a : Word) : Prop := a = Config.kbsr ∨ a = Config.kbdr

/-- The sink accepts the next `n` characters: it cannot fail, or its plan says so (60_exceptions.md R163). -/
def State.SinkAccepts (s : State) (n : Nat) : Prop :=
  s.cfg.sinkMayFail = true → ∀ r ∈ s.sinkPlan.take n, r = false

/-- The sink accepts the next `n` characters and refuses the one after them (60_exceptions.md R163). -/
def State.SinkRefusesAt (s : State) (n : Nat) : Prop :=
  s.cfg.sinkMayFail = true ∧ (∀ r ∈ s.sinkPlan.take n, r = false) ∧ s.sinkPlan[n]? = some true

/-- The sink's plan after `n` characters. -/
def State.sinkAfter (s : State) (n : Nat) : List Bool :=
  if s.cfg.sinkMayFail then s.sinkPlan.drop n else s.sinkPlan

/-- The words from `a` on are `ws`, none of them zero. -/
def State.StringAt (s : State) (a : Word) (ws : List Word) : Prop :=
  ∀ k (h : k < ws.length), s.readMem (a + BitVec.ofNat 16 k) = ws[k] ∧ ws[k] ≠ 0x0000#16

/-- No producer event changes the `n` words from `a` on: none is scheduled, or none of the words is a device's. -/
def State.Undisturbed (s : State) (a : Word) (n : Nat) : Prop :=
  s.sched = [] ∨ ∀ k, k < n → ¬ IsDevice (a + BitVec.ofNat 16 k)

/-- The characters of a PUTS string: the low byte of each word (44_trap.md R143). -/
def putsText (ws : List Word) : List Byte := ws.map fun w => w.setWidth 8

/-- The characters of a PUTSP string: the low byte of each word, then its high byte if that is not zero
(44_trap.md R145). -/
def putspText (ws : List Word) : List Byte :=
  ws.flatMap fun w : Word => w.setWidth 8 :: (if w >>> 8 = 0x0000#16 then [] else [(w >>> 8).setWidth 8])

/-- From `s` to `t` a string service has ended: it emitted `text`, the sink's plan moved on by as many characters,
and nothing else changed but what the producer did meanwhile. -/
structure Emitted (s t : State) (text : List Byte) : Prop where
  output : t.output = s.output ++ text
  sinkPlan : t.sinkPlan = s.sinkAfter text.length
  engine : SameEngineState s { t with output := s.output, sinkPlan := s.sinkPlan }
  pos : t.pos = .fetch
  mem : s.sched = [] → ∀ a, t.readMem a = s.readMem a

/-- From `s` to `t` a string service has stopped at a refused character: the characters before it, `sent`, stay
emitted, the latch holds IOError, and nothing else changed but what the producer did meanwhile. -/
structure StoppedBySink (s t : State) (sent : List Byte) : Prop where
  fault : t.fault = some .ioError
  output : t.output = s.output ++ sent
  sinkPlan : t.sinkPlan = s.sinkAfter (sent.length + 1)
  engine : SameEngineState s { t with fault := s.fault, output := s.output, sinkPlan := s.sinkPlan }
  pos : t.pos = .fetch
  mem : s.sched = [] → ∀ a, t.readMem a = s.readMem a

/-- The bytes of an object image: a big-endian origin, then big-endian words (70_reset_and_hazards.md R191). -/
def imageBytes (origin : Word) (ws : List Word) : List Byte :=
  (origin :: ws).flatMap fun w => [highByte w, lowByte w]

/-- The register an instruction designates as its condition-setting destination, the traps left out
(40_execution_cycle.md R76). -/
def condDest : Instr → Option RegIdx
  | .addReg dr _ _ _ | .addImm dr _ _ | .andReg dr _ _ _ | .andImm dr _ _ | .not dr _ _
  | .ld dr _ | .ldi dr _ | .ldr dr _ _ | .lea dr _ => some dr
  | _ => none

/-- The address an instruction stores to, computed as its meaning computes it (42_data_movement.md R104 to R106). -/
def storeAddr (i : Instr) (s : State) : Option Word :=
  match i with
  | .st _ off => some (eaPc off s)
  | .sti _ off => some (s.turn.readMem (eaPc off s))
  | .str _ base off => some (eaBase base off s)
  | _ => none

/-- `pc` at the end of an instruction entered at `s`, whose `pc` is the incremented one (40_execution_cycle.md R77). -/
def pcAfter (i : Instr) (s : State) : Word :=
  match i with
  | .br nzp off => if branchTaken nzp s.cond then s.pc + sext off else s.pc
  | .jmp _ base _ => s.reg base
  | .jsr off => s.pc + sext off
  | .jsrr _ base _ => if base = 7#3 then s.pc else s.reg base
  | _ => s.pc

/-- The register whose value an instruction stores (42_data_movement.md R104 to R106). -/
def storeSource : Instr → Option RegIdx
  | .st sr _ | .sti sr _ | .str sr _ _ => some sr
  | _ => none

/-- An instruction none of whose data accesses is to a device word: it cannot see a producer event, and the producer
cannot see it. PUTS and PUTSP: the string ends within one pass and no word of it, the zero word too, is a device's. -/
def TouchesNoDevice (i : Instr) (s : State) : Prop :=
  match i with
  | .ld _ off | .st _ off => ¬ IsDevice (eaPc off s)
  | .ldr _ base off | .str _ base off => ¬ IsDevice (eaBase base off s)
  | .ldi _ off | .sti _ off => ¬ IsDevice (eaPc off s) ∧ ¬ IsDevice (s.readMem (eaPc off s))
  | .trapPuts _ | .trapPutsp _ =>
    ∃ n, n < 65536 ∧ s.readMem (s.reg 0#3 + BitVec.ofNat 16 n) = 0x0000#16 ∧
      ∀ k, k ≤ n → ¬ IsDevice (s.reg 0#3 + BitVec.ofNat 16 k)
  | .trapGetc _ | .trapIn _ => False
  | _ => True

/-- An instruction that accesses the two device words at most once in total, so that its step may be treated as one
atomic transition (20_memory.md R36, 40_execution_cycle.md R79): every instruction but GETC and IN, and but an LDI,
STI, PUTS or PUTSP that accesses them more than once. LDI and STI: not both the pointer's address and the address
it gives. PUTS and PUTSP: a zero word that is no device's ends the string within one pass, and at most one word
before it is a device's. -/
def TouchesDeviceAtMostOnce (i : Instr) (s : State) : Prop :=
  match i with
  | .ldi _ off | .sti _ off => ¬ (IsDevice (eaPc off s) ∧ IsDevice (s.turn.readMem (eaPc off s)))
  | .trapPuts _ | .trapPutsp _ =>
    ∃ n, n < 65536 ∧ s.readMem (s.reg 0#3 + BitVec.ofNat 16 n) = 0x0000#16 ∧
      ¬ IsDevice (s.reg 0#3 + BitVec.ofNat 16 n) ∧
      ∀ j, j < n → ∀ k, k < n → IsDevice (s.reg 0#3 + BitVec.ofNat 16 j) →
        IsDevice (s.reg 0#3 + BitVec.ofNat 16 k) → j = k
  | .trapGetc _ | .trapIn _ => False
  | _ => True

/-- The bits of a word that its form reads (30_encoding.md R53, R56). For TRAP the vector; for the reserved opcodes
all, since the fault record keeps the word. -/
def significantBits (w : Word) : Word :=
  match Field.opcode w with
  | 0x1#4 | 0x5#4 => if Field.mode5 w = 0#1 then 0xFFE7#16 else 0xFFFF#16
  | 0x4#4 => if Field.mode11 w = 0#1 then 0xF9C0#16 else 0xFFFF#16
  | 0x9#4 => 0xFFC0#16
  | 0xC#4 => 0xF1C0#16
  | 0xF#4 => 0xF0FF#16
  | _ => 0xFFFF#16

end Sys2Proof.Machine
end

