-- ==== Sys2Proof/Certificates/Slice0/Obligations.lean ====
section
/-! DEFINITION. The statements for the provers. Each docstring names the rule of spec/ it formalises; where a
clause rests on a decision of the spec or of the model, it names the log entry. -/

open Sys2Proof Sys2Proof.Machine

/-! ### Encoding -/

/-- Every well-formed instruction is read back from its word, with every operand at every value its field admits
(30_encoding.md R53, R55; opcode numbers and positions are the spec's D1, D2, log 1). -/
def Obligations.DecodeOfEncodeIsTheInstruction : Prop :=
  ∀ i : Instr, i.wf = true → decode (encode i) = i

/-- Every one of the 65536 words decodes to a well-formed instruction and is that instruction's word, so no two rows
overlap and no word is left out (30_encoding.md R55; D1, D2, log 1). -/
def Obligations.EncodeOfDecodeIsTheWord : Prop :=
  ∀ w : Word, (decode w).wf = true ∧ encode (decode w) = w

/-- The worked encodings of 30_encoding.md R63 decode to the instructions it writes beside them (the opcode numbers
and field positions they rest on are the spec's decisions D1, D2, PRESUMED, log 1). -/
def Obligations.WorkedEncodingsDecode : Prop :=
  decode 0x1AE7#16 = .addImm 5#3 3#3 7#5 ∧
  decode 0x4AC0#16 = .jsr 0x2C0#11 ∧
  decode 0xF025#16 = .trapHalt 0#4 ∧
  decode 0x92BF#16 = .not 1#3 2#3 0x3F#6 ∧
  decode 0x69BF#16 = .ldr 4#3 6#3 0x3F#6 ∧
  decode 0x0DFD#16 = .br 0b110#3 0x1FD#9 ∧
  decode 0x5020#16 = .andImm 0#3 0#3 0#5 ∧
  decode 0xE002#16 = .lea 0#3 2#9 ∧
  decode 0x40C0#16 = .jsrr 0#2 3#3 0#6 ∧
  decode 0xB5FF#16 = .sti 2#3 0x1FF#9

/-- Two words that agree on the bits their form reads do the same (30_encoding.md R56; the spec's decision D4, log
3). A TRAP whose undefined vector faults is left out, since its fault record keeps the whole word. -/
def Obligations.IgnoredBitsChangeNothing : Prop :=
  ∀ (w w' : Word) (s : State),
    w &&& significantBits w = w' &&& significantBits w →
    (Field.opcode w = 0xF#4 → s.cfg.undefinedTrap = .noop ∨ definedVector (Field.vect8 w) = true) →
    exec (decode w) s = exec (decode w') s

/-- `word[high:low]` is the bits `low` to `high`, right-justified, with no bit above them; it is the shift and mask
of 00_scope.md R1; that an inverted range is refused is the model's choice (93_implementation_defined.md U2, log 29); the
decoder's fields are such ranges. -/
def Obligations.ExtractFieldReadsTheBitRange : Prop :=
  (∀ (w : Word) (high low : Nat), low ≤ high → high ≤ 15 →
    ∃ v, extractField w high low = some v ∧
      v = (w >>> low) &&& (((1#16 <<< (high - low + 1)) - 1#16)) ∧
      ∀ i, v.getLsbD i = (decide (i ≤ high - low) && w.getLsbD (low + i))) ∧
  (∀ (w : Word) (high low : Nat), high < low → extractField w high low = none) ∧
  (∀ w : Word,
    extractField w 15 12 = some (zext (Field.opcode w)) ∧ extractField w 11 9 = some (zext (Field.r11_9 w)) ∧
    extractField w 8 6 = some (zext (Field.r8_6 w)) ∧ extractField w 2 0 = some (zext (Field.r2_0 w)) ∧
    extractField w 5 5 = some (zext (Field.mode5 w)) ∧ extractField w 11 11 = some (zext (Field.mode11 w)) ∧
    extractField w 4 0 = some (zext (Field.imm5 w)) ∧ extractField w 5 0 = some (zext (Field.off6 w)) ∧
    extractField w 8 0 = some (zext (Field.off9 w)) ∧ extractField w 10 0 = some (zext (Field.off11 w)) ∧
    extractField w 7 0 = some (zext (Field.vect8 w)))

/-- `sext_N` as 00_scope.md R2 spells it: with `m` the low N bits, `m` itself when bit N-1 is 0, else `m` with every
higher bit set, which is `m - 2^N` modulo 65536; the round-trip law; that other widths are refused is the model's choice
(93_implementation_defined.md U3, log 29); a field's own extension is the same function. -/
def Obligations.SignExtensionReplicatesTheSignBit : Prop :=
  (∀ (v : Word) (n : Nat), 1 ≤ n → n ≤ 16 →
    ∃ r, signExtendLow v n = some r ∧
      r = (if v.getLsbD (n - 1) then (v &&& BitVec.ofNat 16 (2 ^ n - 1)) ||| (0xFFFF#16 <<< n)
           else v &&& BitVec.ofNat 16 (2 ^ n - 1)) ∧
      (v.getLsbD (n - 1) = true → r = (v &&& BitVec.ofNat 16 (2 ^ n - 1)) - BitVec.ofNat 16 (2 ^ n)) ∧
      r &&& BitVec.ofNat 16 (2 ^ n - 1) = v &&& BitVec.ofNat 16 (2 ^ n - 1)) ∧
  (∀ v : Word, signExtendLow v 16 = some v) ∧
  (∀ (v : Word) (n : Nat), n = 0 ∨ 16 < n → signExtendLow v n = none) ∧
  (∀ (n : Nat) (f : BitVec n), 1 ≤ n → n ≤ 16 → signExtendLow (zext f) n = some (sext f))

/-! ### The step and the two agents -/

/-- When the engine fetches, the step is the decoded instruction's meaning at the state with `pc` incremented and
the engine's entry of the schedule used up, whatever the word is (40_execution_cycle.md R71 to R74; that the engine's
entry is used up is the model's choice, log 16). -/
def Obligations.StepRunsTheDecodedInstruction : Prop :=
  ∀ s : State, s.Fetching →
    step s = exec (decode (s.readMem s.pc)) { s with pc := s.pc + 1#16, sched := s.sched.tail }

/-- A word placed by the host for the next fetch is what the next step runs (log 20). -/
def Obligations.PlacedWordIsRunNext : Prop :=
  ∀ (s : State) (w : Word),
    ∃ t, step (s.withFetchWord 16 w.toNat) = exec (decode w) t ∧
      t.pc = s.pc + 1#16 ∧ (∀ i, t.reg i = s.reg i) ∧ t.cond = s.cond ∧ t.running = true ∧ t.fault = none ∧
      t.pos = .fetch ∧ t.readMem s.pc = w ∧ (∀ a, a ≠ s.pc → t.readMem a = s.readMem a) ∧
      t.output = s.output ∧ t.input = s.input ∧ t.cfg = s.cfg

/-- An entry of the schedule that names the producer makes the step one producer event, whatever the engine is
doing (40_execution_cycle.md R70, 60_exceptions.md R171; log 16). -/
def Obligations.ScheduledProducerMoves : Prop :=
  ∀ (s : State) (rest : List Agent), s.sched = .producer :: rest →
    ∃ t, step s = .next t ∧ t = producerEvent { s with sched := rest } ∧ SameEngineState s t ∧
      t.pos = s.pos ∧ t.sched = rest

/-- Before one engine event, exactly the scheduled producer events happen, in order, and the engine's entry is used
up; with the schedule used up nothing happens (20_memory.md R36, R42; log 16). -/
def Obligations.TurnPerformsTheScheduledProducerEvents : Prop :=
  (∀ (s : State) (k : Nat) (rest : List Agent),
    s.sched = List.replicate k .producer ++ .engine :: rest →
      s.turn = { producerEvent^[k] s with sched := rest }) ∧
  (∀ (s : State) (k : Nat), s.sched = List.replicate k .producer →
      s.turn = { producerEvent^[k] s with sched := [] })

/-- The two producer events: `KbdData` writes `zext_8` of the next byte to KBDR, `KbdReady` sets bit 15 of KBSR and
keeps the other bits; each happens whatever READY is, and neither touches anything else (60_exceptions.md R171; the
spec's decisions D16, D17, D28, log 15, log 23). -/
def Obligations.ProducerEventsWriteOnlyTheDeviceWords : Prop :=
  (∀ (s : State) (b : Byte) (rest : Input), s.readyDue = false → s.input.next = some (b, rest) →
    let t := producerEvent s
    t.readMem Config.kbdr = zext b ∧ (∀ a, a ≠ Config.kbdr → t.readMem a = s.readMem a) ∧
      t.input = rest ∧ t.readyDue = true ∧ SameEngineState s t ∧ t.pos = s.pos ∧ t.sched = s.sched) ∧
  (∀ s : State, s.readyDue = true →
    let t := producerEvent s
    (∀ i, (t.readMem Config.kbsr).getLsbD i = (decide (i = 15) || (s.readMem Config.kbsr).getLsbD i)) ∧
      (∀ a, a ≠ Config.kbsr → t.readMem a = s.readMem a) ∧
      t.input = s.input ∧ t.readyDue = false ∧ SameEngineState s t ∧ t.pos = s.pos ∧ t.sched = s.sched) ∧
  (∀ s : State, s.readyDue = false → s.input.next = none → producerEvent s = s)

/-- Every instruction of every state answers a next state, and so does every step of an enabled engine: nothing is
refused and only a stopped machine has no next state. It rests on the model's own forms of what 40_execution_cycle.md
R74 lists as other outcomes: the fault latch is set in a next state (log 8), a hold is a state of its own (log 19),
an endless string is cut into steps (log 22), and a stopped machine's step is as log 21 says. -/
def Obligations.EnabledEngineAlwaysHasANextState : Prop :=
  (∀ (i : Instr) (s : State), ∃ t, exec i s = .next t) ∧
  (∀ s : State, s.engineEnabled = true → ∃ t, step s = .next t) ∧
  (∀ (s : State) (f : Fault), step s = .fault f →
    s.engineEnabled = false ∧ s.producerEnabled = false ∧ (f = .faulted ↔ s.fault ≠ none)) ∧
  (∀ (s : State) (r : Refusal), step s ≠ .refused r)

/-- A stopped engine never runs again: whatever number of steps the machine takes, only the producer's words, the
input and the schedule change (40_execution_cycle.md R70; "until Reset" is the spec's decision D25, log 21). -/
def Obligations.StoppedEngineNeverRunsAgain : Prop :=
  ∀ (k : Nat) (s t : State), s.engineEnabled = false → core.run k s = .next t →
    SameEngineState s t ∧ t.engineEnabled = false ∧ t.pos = s.pos

/-! ### Reset and the invariant -/

/-- Reset (10_state.md R23, 70_reset_and_hazards.md R190): `pc` is 0x3000; registers, `cond` and memory are the
spec's defaults D5, D6, D7 (log 4, 5, 6); `running`, `fault`, `output` as D8 (log 7). -/
def Obligations.ResetLeavesTheStatedValues : Prop :=
  State.reset.pc = 0x3000#16 ∧ (∀ i, State.reset.reg i = 0x0000#16) ∧ State.reset.cond = .Z ∧
    State.reset.running = true ∧ State.reset.fault = none ∧ (∀ a, State.reset.readMem a = 0x0000#16) ∧
    State.reset.output = [] ∧ State.reset.ready = false

/-- The machine invariant holds at reset. Its first clause is the model's own memory form (log 24), and the reset
values it is about are DESIGN CHOICES (log 6, 7, 31). -/
def Obligations.ResetMeetsTheInvariant : Prop := State.reset.Inv

/-- Every step keeps the machine invariant: memory stays canonical (the model's own form, log 24), a stopped engine
stands between instructions (the engine's position is the model's field, 10_state.md R24), halt and fault exclude
each other (70_reset_and_hazards.md R194), and the latch only holds records the parameters allow, of the word and
address they name (10_state.md R17; that the address is `pc - 1` is the spec's decision D9, log 8). -/
def Obligations.StepKeepsTheInvariant : Prop :=
  ∀ s t : State, s.Inv → step s = .next t → t.Inv

/-- Two canonical memories that read the same everywhere are the same data (the model's own form, log 24). -/
def Obligations.CanonicalMemoriesAreEqualWhenTheyReadEqual : Prop :=
  ∀ m n : Memory, Memory.wf m → Memory.wf n → (∀ a, Memory.read m a = Memory.read n a) → m = n

/-- `running` is cleared only by HALT, set by nothing, read by no instruction, and the engine takes a step only
while it is true (10_state.md R16). -/
def Obligations.RunningIsClearedOnlyByHalt : Prop :=
  (∀ (i : Instr) (s t : State), i.wf = true → exec i s = .next t →
    ((∃ ign, i = .trapHalt ign) ∧ t.running = false) ∨ ((∀ ign, i ≠ .trapHalt ign) ∧ t.running = s.running)) ∧
  (∀ s t : State, step s = .next t → s.running = true → t.running = false →
    ∃ ign, s.Fetching ∧ decode (s.readMem s.pc) = .trapHalt ign) ∧
  (∀ s t : State, step s = .next t → s.running = false → t.running = false ∧ SameEngineState s t) ∧
  (∀ (i : Instr) (s t : State) (b : Bool), i.wf = true → exec i s = .next t → (∀ ign, i ≠ .trapHalt ign) →
    exec i { s with running := b } = .next { t with running := b })

/-- The `fault` latch is never cleared by a step; it is set only by a reserved opcode, by a refusing sink under
SINK_MAY_FAIL, or by an undefined vector under UNDEFINED_TRAP = fault, and then names the word and its address
(10_state.md R17, 60_exceptions.md R160; the latch is the spec's decision D9, log 8). -/
def Obligations.FaultLatchIsSetByTheListedCausesAndNeverCleared : Prop :=
  (∀ (s t : State) (r : FaultRecord), step s = .next t → s.fault = some r → t.fault = some r) ∧
  (∀ (s t : State) (r : FaultRecord), step s = .next t → s.fault = none → t.fault = some r →
    (s.Fetching ∧ r = .decodeError (Field.opcode (s.readMem s.pc)) (s.readMem s.pc) s.pc ∧
      (Field.opcode (s.readMem s.pc) = 8#4 ∨ Field.opcode (s.readMem s.pc) = 13#4)) ∨
    (r = .ioError ∧ s.cfg.sinkMayFail = true) ∨
    (s.Fetching ∧ s.cfg.undefinedTrap = .fault ∧ Field.opcode (s.readMem s.pc) = 15#4 ∧
      definedVector (Field.vect8 (s.readMem s.pc)) = false ∧
      r = .undefinedTrap (Field.vect8 (s.readMem s.pc)) (s.readMem s.pc) s.pc))

/-- The output only grows, only OUT, PUTS, IN, PUTSP extend it, and nothing reads it: the same step from another
output emits the same characters and does the same otherwise; a step that neither fetches nor goes on with IN, PUTS or
PUTSP emits nothing (10_state.md R20, 44_trap.md R150; D21). -/
def Obligations.OutputOnlyGrowsAndIsNeverRead : Prop :=
  (∀ s t : State, step s = .next t →
    ∃ new, t.output = s.output ++ new ∧
      ∀ o, step { s with output := o } = .next { t with output := o ++ new }) ∧
  (∀ (i : Instr) (s t : State), i.wf = true → exec i s = .next t →
    (∀ ign, i ≠ .trapOut ign) → (∀ ign, i ≠ .trapPuts ign) → (∀ ign, i ≠ .trapIn ign) →
    (∀ ign, i ≠ .trapPutsp ign) → t.output = s.output) ∧
  (∀ s t : State, ¬ s.Fetching → s.pos ≠ .inWait → (∀ a, s.pos ≠ .puts a) → (∀ a, s.pos ≠ .putsp a) →
    step s = .next t → t.output = s.output)

/-! ### Operate instructions and the condition code -/

/-- `setcc(v)`: Z for 0, N when bit 15 is set, P otherwise, and `setcc` writes `cond` and nothing else
(40_execution_cycle.md R75), with the source's check values. -/
def Obligations.SetccFollowsTheWrittenValue : Prop :=
  (∀ (s : State) (v : Word),
    ((s.setcc v).cond = .Z ↔ v = 0x0000#16) ∧
    ((s.setcc v).cond = .N ↔ v.getLsbD 15 = true) ∧
    ((s.setcc v).cond = .P ↔ v ≠ 0x0000#16 ∧ v.getLsbD 15 = false) ∧
    (∀ i, (s.setcc v).reg i = s.reg i) ∧ (s.setcc v).pc = s.pc ∧
    (∀ a, (s.setcc v).readMem a = s.readMem a) ∧ SameRest s (s.setcc v)) ∧
  condOf 0x0000#16 = .Z ∧ condOf 0x0001#16 = .P ∧ condOf 0x7FFF#16 = .P ∧ condOf 0x8000#16 = .N ∧
  condOf 0xFFFF#16 = .N

/-- ADD, AND and NOT complete in every state: the destination gets the wrapping sum, the bitwise AND or the
complement of the sources as they were before the write, `cond` follows it, and nothing else changes, also when
the destination is a source (41_operate.md R90 to R95). -/
def Obligations.OperateInstructionsWriteTheirResult : Prop :=
  ∀ (s : State) (dr sr1 sr2 : RegIdx) (ign : BitVec 2) (ign6 : BitVec 6) (imm : BitVec 5),
    (∃ t, exec (.addReg dr sr1 ign sr2) s = .next t ∧
      WritesReg s t dr (BitVec.ofNat 16 ((s.reg sr1).toNat + (s.reg sr2).toNat))) ∧
    (∃ t, exec (.addImm dr sr1 imm) s = .next t ∧
      WritesReg s t dr (BitVec.ofNat 16 ((s.reg sr1).toNat + (sext imm).toNat))) ∧
    (∃ t, exec (.andReg dr sr1 ign sr2) s = .next t ∧ WritesReg s t dr (s.reg sr1 &&& s.reg sr2)) ∧
    (∃ t, exec (.andImm dr sr1 imm) s = .next t ∧ WritesReg s t dr (s.reg sr1 &&& sext imm)) ∧
    (∃ t, exec (.not dr sr1 ign6) s = .next t ∧ WritesReg s t dr (0xFFFF#16 - s.reg sr1))

/-- `cond` after an instruction: recomputed from the destination by ADD, AND, NOT, LD, LDI, LDR, LEA; by GETC and IN
only from `x[0]` and only under TRAP_INPUT_SETS_CC; otherwise as it was. A step that fetches nothing, a service gone on
with or a producer event, leaves it as it was but for a held GETC or IN in the same way (40_execution_cycle.md R76,
10_state.md R14; the traps' part is the spec's decision D12, log 11). -/
def Obligations.CondIsWrittenOnlyByConditionSettingInstructions : Prop :=
  (∀ (i : Instr) (s t : State), i.wf = true → exec i s = .next t →
    (∀ dr, condDest i = some dr → t.cond = condOf (t.reg dr)) ∧
    (condDest i = none →
      t.cond = s.cond ∨
        (((∃ ign, i = .trapGetc ign) ∨ ∃ ign, i = .trapIn ign) ∧ s.cfg.trapInputSetsCC = true ∧
          t.cond = condOf (t.reg 0#3)))) ∧
  (∀ s t : State, ¬ s.Fetching → step s = .next t →
    t.cond = s.cond ∨
      ((s.pos = .getcWait ∨ s.pos = .inWait) ∧ s.cfg.trapInputSetsCC = true ∧ t.cond = condOf (t.reg 0#3)))

/-! ### Data movement -/

/-- LD, LDI, LDR and LEA complete in every state. The loads read memory as the producer events scheduled before
each access left it (one turn an access, log 28), write one register and `cond`, and change nothing else, at a
device address too (42_data_movement.md R100 to R103, R107; 20_memory.md R33, R36, R37). -/
def Obligations.LoadsWriteTheAddressedWord : Prop :=
  ∀ (s : State) (dr base : RegIdx) (off : BitVec 9) (off6 : BitVec 6),
    (∃ t, exec (.ld dr off) s = .next t ∧ WritesReg s.turn t dr (s.turn.readMem (s.pc + sext off))) ∧
    (∃ t, exec (.ldi dr off) s = .next t ∧
      WritesReg s.turn.turn t dr (s.turn.turn.readMem (s.turn.readMem (s.pc + sext off)))) ∧
    (∃ t, exec (.ldr dr base off6) s = .next t ∧
      WritesReg s.turn t dr (s.turn.readMem (s.reg base + sext off6))) ∧
    (∃ t, exec (.lea dr off) s = .next t ∧ WritesReg s t dr (s.pc + sext off))

/-- ST, STI and STR complete in every state, write the source register's value to one word, at a device address too,
and change nothing else: no register, no flag (42_data_movement.md R104 to R106, R108; 20_memory.md R32, R39). -/
def Obligations.StoresWriteTheAddressedWord : Prop :=
  ∀ (s : State) (sr base : RegIdx) (off : BitVec 9) (off6 : BitVec 6),
    (∃ t, exec (.st sr off) s = .next t ∧ StoresWord s.turn t (s.pc + sext off) (s.reg sr)) ∧
    (∃ t, exec (.sti sr off) s = .next t ∧
      StoresWord s.turn.turn t (s.turn.readMem (s.pc + sext off)) (s.reg sr)) ∧
    (∃ t, exec (.str sr base off6) s = .next t ∧
      StoresWord s.turn t (s.reg base + sext off6) (s.reg sr))

/-- Whatever instruction runs, a word that is neither the address it stores to (computed as its meaning computes it)
nor a device word reads as before; after a step that fetches nothing, every word that is no device word does
(20_memory.md R47). -/
def Obligations.OnlyTheStoredWordAndTheDeviceWordsChange : Prop :=
  (∀ (i : Instr) (s t : State) (a : Word), i.wf = true → exec i s = .next t →
    storeAddr i s ≠ some a → a ≠ Config.kbsr → a ≠ Config.kbdr → t.readMem a = s.readMem a) ∧
  (∀ (s t : State) (a : Word), ¬ s.Fetching → step s = .next t → a ≠ Config.kbsr → a ≠ Config.kbdr →
    t.readMem a = s.readMem a)

/-- With no producer event scheduled, an instruction that is no store and consumes no input leaves every word of
memory as it was, the device words too; so does a step that goes on with PUTS or PUTSP (20_memory.md R37, R47). -/
def Obligations.InstructionsThatStoreNothingLeaveMemoryAlone : Prop :=
  (∀ (i : Instr) (s t : State), i.wf = true → exec i s = .next t → s.sched = [] → storeAddr i s = none →
    (∀ ign, i ≠ .trapGetc ign) → (∀ ign, i ≠ .trapIn ign) → ∀ a, t.readMem a = s.readMem a) ∧
  (∀ (s t : State) (start : Word), s.GoesOnAt (.puts start) ∨ s.GoesOnAt (.putsp start) → s.sched = [] →
    step s = .next t → ∀ a, t.readMem a = s.readMem a)

/-- Atomicity for the producer (20_memory.md R36, 40_execution_cycle.md R79; atomicity per access is the spec's
decision D18, log 16). First: an instruction that touches no device word does the same before a producer event as
after it, PUTS and PUTSP too. Second: under every schedule, an instruction that touches the device words at most
once, which is every one but GETC, IN and some LDI, STI, PUTS, PUTSP, ends as one atomic transition would, with the
producer events that fell inside it put before it or after it. -/
def Obligations.SingleAccessInstructionsAreAtomicForTheProducer : Prop :=
  (∀ (i : Instr) (s t : State), i.wf = true → TouchesNoDevice i s → s.sched = [] → exec i s = .next t →
    ∃ u, exec i (producerEvent s) = .next u ∧ Agree (producerEvent t) u) ∧
  (∀ (i : Instr) (s t : State), i.wf = true → TouchesDeviceAtMostOnce i s → exec i s = .next t →
    ∃ (before later : Nat) (u : State), exec i (producerEvent^[before] { s with sched := [] }) = .next u ∧
      Agree (producerEvent^[later] u) { t with sched := [] })

/-- A store over the very next instruction, by ST, STI or STR, is what the next step fetches and runs
(20_memory.md R45). -/
def Obligations.StoredWordIsFetchedNext : Prop :=
  ∀ (i : Instr) (s : State) (sr : RegIdx), s.Fetching → s.sched = [] → decode (s.readMem s.pc) = i →
    storeSource i = some sr → storeAddr i s.fetched = some (s.pc + 1#16) →
    ∃ t, step s = .next t ∧ t.pc = s.pc + 1#16 ∧ t.readMem (s.pc + 1#16) = s.reg sr ∧
      step t = exec (decode (s.reg sr)) { t with pc := s.pc + 1#16 + 1#16 }

/-! ### Control -/

/-- BR completes in every state and moves `pc` to the target exactly when a named flag is the active one; nothing
else changes (43_control.md R120; which mask bit is which flag is the spec's decision D3, log 2). -/
def Obligations.BranchTakenWhenANamedFlagIsActive : Prop :=
  ∀ (s : State) (nzp : BitVec 3) (off : BitVec 9),
    ∃ t, exec (.br nzp off) s = .next t ∧
      MovesPc s t
        (if (nzp.getLsbD 2 = true ∧ s.cond = .N) ∨ (nzp.getLsbD 1 = true ∧ s.cond = .Z) ∨
            (nzp.getLsbD 0 = true ∧ s.cond = .P) then s.pc + sext off else s.pc)

/-- JMP, JSR and JSRR complete in every state: JMP moves `pc` only; JSR and JSRR save the incremented `pc` in the
link register; JSRR reads its base after the link write, so JSRR R7 falls through (43_control.md R121 to R123; the
order is the spec's decision D10, log 9). -/
def Obligations.JumpsAndCallsReachTheirTarget : Prop :=
  ∀ (s : State) (base : RegIdx) (off : BitVec 11) (hi3 : BitVec 3) (hi2 : BitVec 2) (lo : BitVec 6),
    (∃ t, exec (.jmp hi3 base lo) s = .next t ∧ MovesPc s t (s.reg base)) ∧
    (∃ t, exec (.jsr off) s = .next t ∧ LinksTo s t (s.pc + sext off)) ∧
    (∃ t, exec (.jsrr hi2 base lo) s = .next t ∧ LinksTo s t (if base = 7#3 then s.pc else s.reg base))

/-- RTI and RES complete in every state: the latch holds DecodeError with the opcode, the word and the address it
was fetched from, and nothing else changes (43_control.md R124, R125, 60_exceptions.md R161; the record and the
state left behind are the spec's decision D9, log 8). -/
def Obligations.ReservedOpcodesRaiseDecodeError : Prop :=
  ∀ (s : State) (ign : BitVec 12),
    (∃ t, exec (.rti ign) s = .next t ∧
      Faults s t (.decodeError 8#4 (encode (.rti ign)) (s.pc - 1#16)) ∧ t.sinkPlan = s.sinkPlan) ∧
    (∃ t, exec (.res ign) s = .next t ∧
      Faults s t (.decodeError 13#4 (encode (.res ign)) (s.pc - 1#16)) ∧ t.sinkPlan = s.sinkPlan)

/-- Any word whose opcode is 8 or 13, whatever its other bits, stops the run in the step that fetches it: `pc` is
left incremented, `running` stays true, the engine has no step after it (30_encoding.md R57, 60_exceptions.md R161;
D1, D9, log 1, log 8). -/
def Obligations.ReservedWordsStopTheRun : Prop :=
  ∀ s : State, s.Fetching → (Field.opcode (s.readMem s.pc) = 8#4 ∨ Field.opcode (s.readMem s.pc) = 13#4) →
    ∃ t, step s = .next t ∧
      t.fault = some (.decodeError (Field.opcode (s.readMem s.pc)) (s.readMem s.pc) s.pc) ∧
      t.pc = s.pc + 1#16 ∧ t.running = true ∧ (∀ i, t.reg i = s.reg i) ∧ t.cond = s.cond ∧
      (∀ a, t.readMem a = s.readMem a) ∧ t.output = s.output ∧ t.engineEnabled = false

/-- `pc` at the end of every instruction, the table of 40_execution_cycle.md R77, whole: of an instruction's meaning, of
the step that fetches it, and of every other step, which leaves `pc` as it was, a service gone on with among them. -/
def Obligations.PcAtTheEndOfEveryInstruction : Prop :=
  (∀ (i : Instr) (s t : State), exec i s = .next t → t.pc = pcAfter i s) ∧
  (∀ s t : State, s.Fetching → step s = .next t → t.pc = pcAfter (decode (s.readMem s.pc)) s.fetched) ∧
  (∀ s t : State, ¬ s.Fetching → step s = .next t → t.pc = s.pc)

/-! ### Traps -/

/-- TRAP selects its service by the vector alone (44_trap.md R140): the word with a defined vector, whatever its
ignored bits, does what that service's own row does, and a word with another vector is the TRAP row's. The six rows
that split the TRAP row are the table's (the split is DEDUCED, log 27; that `ir[7:0]` is the vector is D2, log 1). The
last six clauses say the same of the TRAP row's own meaning. -/
def Obligations.TrapVectorSelectsTheService : Prop :=
  ∀ (s : State) (ign ign' : BitVec 4),
    exec (decode (0xF#4 ++ ign ++ 0x20#8)) s = exec (.trapGetc ign') s ∧
    exec (decode (0xF#4 ++ ign ++ 0x21#8)) s = exec (.trapOut ign') s ∧
    exec (decode (0xF#4 ++ ign ++ 0x22#8)) s = exec (.trapPuts ign') s ∧
    exec (decode (0xF#4 ++ ign ++ 0x23#8)) s = exec (.trapIn ign') s ∧
    exec (decode (0xF#4 ++ ign ++ 0x24#8)) s = exec (.trapPutsp ign') s ∧
    exec (decode (0xF#4 ++ ign ++ 0x25#8)) s = exec (.trapHalt ign') s ∧
    (∀ v, definedVector v = false → decode (0xF#4 ++ ign ++ v) = .trap ign v) ∧
    exec (.trap ign 0x20#8) s = exec (.trapGetc ign') s ∧ exec (.trap ign 0x21#8) s = exec (.trapOut ign') s ∧
    exec (.trap ign 0x22#8) s = exec (.trapPuts ign') s ∧ exec (.trap ign 0x23#8) s = exec (.trapIn ign') s ∧
    exec (.trap ign 0x24#8) s = exec (.trapPutsp ign') s ∧ exec (.trap ign 0x25#8) s = exec (.trapHalt ign') s

/-- A vector outside the six completes in every state: under `noop` the state does not change at all, under `fault`
the latch holds UndefinedTrap with the vector, the word and its address, and nothing else changes (44_trap.md R147;
the spec's decision D13, log 12). -/
def Obligations.UndefinedVectorIsANoopOrAFault : Prop :=
  ∀ (s : State) (ign : BitVec 4) (v : BitVec 8), definedVector v = false →
    (s.cfg.undefinedTrap = .noop → exec (.trap ign v) s = .next s) ∧
    (s.cfg.undefinedTrap = .fault →
      ∃ t, exec (.trap ign v) s = .next t ∧
        Faults s t (.undefinedTrap v (encode (.trap ign v)) (s.pc - 1#16)) ∧ t.sinkPlan = s.sinkPlan)

/-- No trap writes the link register or any register but `x[0]`, moves `pc`, or writes memory outside the two device
words, and neither does a step that goes on with a service; only the held GETC and IN write `x[0]` there (44_trap.md
R148, 60_exceptions.md R166; the spec's decision D11, log 10). -/
def Obligations.TrapsLeaveTheLinkAndPcAlone : Prop :=
  (∀ (s t : State) (ign : BitVec 4) (v : BitVec 8) (i : Instr),
    i ∈ [Instr.trap ign v, .trapGetc ign, .trapOut ign, .trapPuts ign, .trapIn ign, .trapPutsp ign,
      .trapHalt ign] →
    exec i s = .next t →
      t.pc = s.pc ∧ (∀ r, r ≠ 0#3 → t.reg r = s.reg r) ∧
        (∀ a, a ≠ Config.kbsr → a ≠ Config.kbdr → t.readMem a = s.readMem a)) ∧
  (∀ s t : State, s.pos ≠ .fetch → step s = .next t →
    t.pc = s.pc ∧ (∀ r, r ≠ 0#3 → t.reg r = s.reg r) ∧
      (s.pos ≠ .getcWait → s.pos ≠ .inWait → t.reg 0#3 = s.reg 0#3) ∧
      (∀ a, a ≠ Config.kbsr → a ≠ Config.kbdr → t.readMem a = s.readMem a))

/-- HALT completes in every state, clears `running`, and changes nothing else; no output, `pc` stays past the TRAP
(44_trap.md R146). -/
def Obligations.HaltClearsRunningAndNothingElse : Prop :=
  ∀ (s : State) (ign : BitVec 4),
    ∃ t, exec (.trapHalt ign) s = .next t ∧ t.running = false ∧ t.engineEnabled = false ∧
      Agree s { t with running := s.running }

/-- OUT whose character the sink accepts, because it cannot fail or because its plan says so, completes: one
character, the low byte of `x[0]`, is appended, the sink's plan moves on by one, and nothing else changes
(44_trap.md R142; the plan is the model's free choice, log 18). -/
def Obligations.OutEmitsTheLowByte : Prop :=
  ∀ (s : State) (ign : BitVec 4), s.sinkRefuses = false →
    ∃ t, exec (.trapOut ign) s = .next t ∧
      t.output = s.output ++ [(s.reg 0#3).setWidth 8] ∧
      t.sinkPlan = (if s.cfg.sinkMayFail then s.sinkPlan.tail else s.sinkPlan) ∧
      Agree s { t with output := s.output, sinkPlan := s.sinkPlan }

/-- GETC whose poll observes READY completes: the consume sequence and nothing else, no output. First the poll of the
instruction itself, then the poll of a step that goes on from a hold, under every schedule that gives the engine that
step (44_trap.md R141, R149, 20_memory.md R42; setcc, the READY bit and the atomicity are the spec's decisions D12, D16,
D18, log 11, 15, 16). -/
def Obligations.GetcConsumesWhenReady : Prop :=
  (∀ (s : State) (ign : BitVec 4), s.turn.ready = true →
    ∃ t, exec (.trapGetc ign) s = .next t ∧ Consumed s t ∧ t.output = s.output ∧ t.fault = s.fault ∧
      t.sinkPlan = s.sinkPlan) ∧
  (∀ s : State, s.GoesOnAt .getcWait → s.turn.ready = true →
    ∃ t, step s = .next t ∧ Consumed s t ∧ t.output = s.output ∧ t.fault = s.fault ∧ t.sinkPlan = s.sinkPlan)

/-- GETC and IN whose poll does not observe READY hold: the poll changes nothing, IN's prompt is already emitted,
`pc` stays incremented. Held, a poll that the schedule gives the engine uses up its entry and, with READY clear, changes
nothing else; with the schedule used up the step is the producer's event, if it has one (44_trap.md R149, R144; the form
of the wait is the spec's decision D27, log 19; the last clause is the model's fairness, log 25). -/
def Obligations.InputTrapsHoldUntilReady : Prop :=
  (∀ (s : State) (ign : BitVec 4), s.turn.ready = false →
    exec (.trapGetc ign) s = .next { s.turn with pos := .getcWait } ∧
    (s.SinkAccepts s.cfg.inPrompt.length →
      exec (.trapIn ign) s =
        .next { s.turn with
          pos := .inWait
          output := s.output ++ s.cfg.inPrompt
          sinkPlan := s.sinkAfter s.cfg.inPrompt.length })) ∧
  (∀ s : State, s.GoesOnAt .getcWait ∨ s.GoesOnAt .inWait → s.ready = false →
    (∀ rest, s.sched = .engine :: rest → step s = .next { s with sched := rest }) ∧
    (s.sched = [] → step s = .next (producerEvent s)))

/-- IN whose poll observes READY, on a sink that accepts every character of the prompt and the echo, completes: the
prompt, then the consume sequence, then the echo of the received character's low byte. A step that goes on from a hold,
the prompt already emitted, does the last two, under every schedule that gives the engine that step (44_trap.md R144,
R149, 20_memory.md R42; the prompt's text and place are the spec's decision D14, log 13; the sink's plan is the model's
free choice, log 18). -/
def Obligations.InPromptsConsumesAndEchoes : Prop :=
  (∀ (s : State) (ign : BitVec 4), s.turn.ready = true → s.SinkAccepts (s.cfg.inPrompt.length + 1) →
    ∃ t, exec (.trapIn ign) s = .next t ∧ Consumed s t ∧
      t.output = s.output ++ s.cfg.inPrompt ++ [(t.reg 0#3).setWidth 8] ∧ t.fault = s.fault ∧
      t.sinkPlan = s.sinkAfter (s.cfg.inPrompt.length + 1)) ∧
  (∀ s : State, s.GoesOnAt .inWait → s.turn.ready = true → s.SinkAccepts 1 →
    ∃ t, step s = .next t ∧ Consumed s t ∧ t.output = s.output ++ [(t.reg 0#3).setWidth 8] ∧ t.fault = s.fault ∧
      t.sinkPlan = s.sinkAfter 1)

/-- PUTS, at a string of fewer than 65536 nonzero words with a zero word after it, on a sink that accepts every
character of it, completes: it emits the low byte of each word in address order, and no register, flag or other word
changes. The string may wrap past 0xFFFF, and may hold device words unless the producer is scheduled meanwhile. A step
that goes on with a PUTS from `a` does the same with the string at `a` (44_trap.md R143; the low byte of words above
0x00FF is the spec's decision D15, log 14; that a PUTS may go on in a later step is log 22). -/
def Obligations.PutsEmitsTheStringAtR0 : Prop :=
  (∀ (s : State) (ign : BitVec 4) (ws : List Word), ws.length < 65536 → s.StringAt (s.reg 0#3) ws →
    s.readMem (s.reg 0#3 + BitVec.ofNat 16 ws.length) = 0x0000#16 → s.Undisturbed (s.reg 0#3) (ws.length + 1) →
    s.SinkAccepts (putsText ws).length →
    ∃ t, exec (.trapPuts ign) s = .next t ∧ Emitted s t (putsText ws)) ∧
  (∀ (s : State) (a : Word) (ws : List Word), s.GoesOnAt (.puts a) → ws.length < 65536 → s.StringAt a ws →
    s.readMem (a + BitVec.ofNat 16 ws.length) = 0x0000#16 → s.Undisturbed a (ws.length + 1) →
    s.SinkAccepts (putsText ws).length →
    ∃ t, step s = .next t ∧ Emitted s t (putsText ws))

/-- PUTSP, as PUTS, with the characters of a packed string: the low byte of each word always, then its high byte if
that is not zero; gone on with in a later step, too (44_trap.md R145; log 22). -/
def Obligations.PutspEmitsThePackedStringAtR0 : Prop :=
  (∀ (s : State) (ign : BitVec 4) (ws : List Word), ws.length < 65536 → s.StringAt (s.reg 0#3) ws →
    s.readMem (s.reg 0#3 + BitVec.ofNat 16 ws.length) = 0x0000#16 → s.Undisturbed (s.reg 0#3) (ws.length + 1) →
    s.SinkAccepts (putspText ws).length →
    ∃ t, exec (.trapPutsp ign) s = .next t ∧ Emitted s t (putspText ws)) ∧
  (∀ (s : State) (a : Word) (ws : List Word), s.GoesOnAt (.putsp a) → ws.length < 65536 → s.StringAt a ws →
    s.readMem (a + BitVec.ofNat 16 ws.length) = 0x0000#16 → s.Undisturbed a (ws.length + 1) →
    s.SinkAccepts (putspText ws).length →
    ∃ t, step s = .next t ∧ Emitted s t (putspText ws))

/-- PUTS and PUTSP with no zero word in memory, on a sink that never refuses, never end. The instruction itself
answers a state inside the service at the address it started from, with one whole pass of characters emitted, and
every later step emits one more pass and stands there again (44_trap.md R143, R145; the spec's decision D26; that a
step is one pass is the model's, log 22). -/
def Obligations.UnterminatedStringsNeverEnd : Prop :=
  (∀ (s : State) (ign : BitVec 4), s.sched = [] → (∀ n, s.SinkAccepts n) → (∀ b, s.readMem b ≠ 0x0000#16) →
    let pass := (List.range 65536).map fun k => s.readMem (s.reg 0#3 + BitVec.ofNat 16 k)
    (∃ t, exec (.trapPuts ign) s = .next t ∧ t.pos = .puts (s.reg 0#3) ∧ t.output = s.output ++ putsText pass ∧
      Agree s { t with output := s.output, sinkPlan := s.sinkPlan, pos := s.pos }) ∧
    (∃ t, exec (.trapPutsp ign) s = .next t ∧ t.pos = .putsp (s.reg 0#3) ∧ t.output = s.output ++ putspText pass ∧
      Agree s { t with output := s.output, sinkPlan := s.sinkPlan, pos := s.pos })) ∧
  (∀ (s : State) (a : Word), s.engineEnabled = true → s.sched = [] → (∀ n, s.SinkAccepts n) →
    (∀ b, s.readMem b ≠ 0x0000#16) →
    (s.pos = .puts a → ∀ k, ∃ t, core.run k s = .next t ∧ t.pos = .puts a ∧
      t.output.length = s.output.length + k * 65536 ∧
      Agree s { t with output := s.output, sinkPlan := s.sinkPlan }) ∧
    (s.pos = .putsp a → ∀ k, ∃ t, core.run k s = .next t ∧ t.pos = .putsp a ∧
      t.output.length ≥ s.output.length + k * 65536 ∧
      Agree s { t with output := s.output, sinkPlan := s.sinkPlan }))

/-- A sink that refuses a character stops the service there: the characters before it stay emitted, what was done
before it stays done, the latch holds IOError, and no later part of the service runs (60_exceptions.md R163; the
spec's decision D20, log 18). In order: any sequence of `out`; OUT; IN at a character of its prompt, where nothing is
consumed; IN gone on with after a hold, at its echo; PUTS and PUTSP at any character of the words they read; PUTS and
PUTSP gone on with in a later step. IN's echo without a hold is `RefusedEchoKeepsTheConsumedCharacter`. -/
def Obligations.RefusedCharacterStopsTheService : Prop :=
  (∀ (s : State) (cs : List Byte) (n : Nat), s.SinkRefusesAt n → n < cs.length →
    (emit cs s).2 = false ∧ Faults { s with output := s.output ++ cs.take n } (emit cs s).1 .ioError ∧
      (emit cs s).1.sinkPlan = s.sinkAfter (n + 1)) ∧
  (∀ (s : State) (ign : BitVec 4), s.SinkRefusesAt 0 →
    ∃ t, exec (.trapOut ign) s = .next t ∧ Faults s t .ioError ∧ t.sinkPlan = s.sinkAfter 1) ∧
  (∀ (s : State) (ign : BitVec 4) (n : Nat), s.SinkRefusesAt n → n < s.cfg.inPrompt.length →
    ∃ t, exec (.trapIn ign) s = .next t ∧ Faults { s with output := s.output ++ s.cfg.inPrompt.take n } t .ioError ∧
      t.sinkPlan = s.sinkAfter (n + 1)) ∧
  (∀ s : State, s.engineEnabled = true → s.pos = .inWait → s.sched.head? ≠ some .producer → s.turn.ready = true →
    s.SinkRefusesAt 0 →
    ∃ t, step s = .next t ∧ Consumed s t ∧ t.fault = some .ioError ∧ t.output = s.output ∧
      t.sinkPlan = s.sinkAfter 1) ∧
  (∀ (s : State) (ign : BitVec 4) (ws : List Word) (n : Nat), ws.length ≤ 65536 → s.StringAt (s.reg 0#3) ws →
    s.Undisturbed (s.reg 0#3) ws.length → s.SinkRefusesAt n →
    (n < (putsText ws).length →
      ∃ t, exec (.trapPuts ign) s = .next t ∧ StoppedBySink s t ((putsText ws).take n)) ∧
    (n < (putspText ws).length →
      ∃ t, exec (.trapPutsp ign) s = .next t ∧ StoppedBySink s t ((putspText ws).take n))) ∧
  (∀ (s : State) (a : Word) (ws : List Word) (n : Nat), s.engineEnabled = true →
    s.sched.head? ≠ some .producer → ws.length ≤ 65536 → s.StringAt a ws → s.Undisturbed a ws.length →
    s.SinkRefusesAt n →
    (s.pos = .puts a → n < (putsText ws).length →
      ∃ t, step s = .next t ∧ StoppedBySink s t ((putsText ws).take n)) ∧
    (s.pos = .putsp a → n < (putspText ws).length →
      ∃ t, step s = .next t ∧ StoppedBySink s t ((putspText ws).take n)))

/-- IN whose echo is refused keeps what it consumed: `x[0]`, `cond`, the cleared READY bit and the prompt stay
(60_exceptions.md R163; the spec's decision D20, log 18). -/
def Obligations.RefusedEchoKeepsTheConsumedCharacter : Prop :=
  ∀ (s : State) (ign : BitVec 4), s.SinkRefusesAt s.cfg.inPrompt.length → s.turn.ready = true →
    ∃ t, exec (.trapIn ign) s = .next t ∧ Consumed s t ∧ t.fault = some .ioError ∧
      t.output = s.output ++ s.cfg.inPrompt ∧ t.sinkPlan = s.sinkAfter (s.cfg.inPrompt.length + 1)

/-! ### The keyboard handshake -/

/-- A held GETC or IN goes on when the producer delivers a byte: from the wait, with nothing else scheduled, three
steps later `x[0]` holds the byte, READY is clear again, IN has echoed it, and the engine is between instructions
(44_trap.md R149, R144, 60_exceptions.md R171; that the producer moves while the engine is held and nothing is
scheduled is the model's fairness, log 25). -/
def Obligations.HeldInputTrapReceivesTheNextByte : Prop :=
  ∀ (s : State) (b : Byte) (rest : Input) (echo : List Byte), s.engineEnabled = true → s.sched = [] →
    (s.pos = .getcWait ∧ echo = [] ∨ s.pos = .inWait ∧ s.sinkRefuses = false ∧ echo = [b]) →
    s.readyDue = false → s.ready = false → s.input.next = some (b, rest) →
    ∃ t, core.run 3 s = .next t ∧ t.reg 0#3 = zext b ∧ (∀ i, i ≠ 0#3 → t.reg i = s.reg i) ∧ t.pos = .fetch ∧
      t.cond = (if s.cfg.trapInputSetsCC then condOf (zext b) else s.cond) ∧
      t.ready = false ∧ t.input = rest ∧ t.readyDue = false ∧ t.pc = s.pc ∧ t.output = s.output ++ echo ∧
      t.sinkPlan = s.sinkAfter echo.length ∧
      t.running = s.running ∧ t.fault = s.fault ∧
      (∀ a, a ≠ Config.kbsr → a ≠ Config.kbdr → t.readMem a = s.readMem a)

/-- With no input left a held GETC or IN never completes: however many steps, the state stays the same, nothing is
set (44_trap.md R149, 93_implementation_defined.md U13; the spec's decisions D22, D27, log 19). -/
def Obligations.WaitWithNoInputNeverEnds : Prop :=
  ∀ (s : State) (k : Nat), s.engineEnabled = true → (s.pos = .getcWait ∨ s.pos = .inWait) → s.sched = [] →
    s.producerEnabled = false → s.ready = false → core.run k s = .next s

/-- Under every schedule GETC ends in one of the outcomes of the table of 60_exceptions.md R174, for one further byte
`b'` while `b` is ready, and each of them happens under some schedule. READY is clear at the end; `x[0]` is `b` or
`b'`; the producer is past neither, one or both of its events. -/
def Obligations.HandshakeHasExactlyTheListedOutcomes : Prop :=
  ∀ (s : State) (ign : BitVec 4) (b b' : Byte), s.ready = true → s.readMem Config.kbdr = zext b →
    s.readyDue = false → s.input = .finite [b'] →
    let ends (t : State) (x kbdr : Byte) (left : List Byte) (due : Bool) : Prop :=
      t.reg 0#3 = zext x ∧ t.readMem Config.kbdr = zext kbdr ∧ t.ready = false ∧ t.input = .finite left ∧
        t.readyDue = due
    (∀ l : List Agent, ∃ t, exec (.trapGetc ign) { s with sched := l } = .next t ∧
      (ends t b b [b'] false ∨ ends t b' b' [] true ∨ ends t b b' [] true ∨ ends t b' b' [] false ∨
        ends t b b' [] false)) ∧
    (∃ l t, exec (.trapGetc ign) { s with sched := l } = .next t ∧ ends t b b [b'] false) ∧
    (∃ l t, exec (.trapGetc ign) { s with sched := l } = .next t ∧ ends t b' b' [] true) ∧
    (∃ l t, exec (.trapGetc ign) { s with sched := l } = .next t ∧ ends t b b' [] true) ∧
    (∃ l t, exec (.trapGetc ign) { s with sched := l } = .next t ∧ ends t b' b' [] false) ∧
    (∃ l t, exec (.trapGetc ign) { s with sched := l } = .next t ∧ ends t b b' [] false)

/-- Whatever the schedule, what a completing GETC or IN puts in `x[0]` is the word KBDR held, be it a program's, or
`zext_8` of a byte still to be delivered: no torn word, no third value (60_exceptions.md R172, R174; that each access
and each producer event is atomic is the spec's decision D18, log 16). -/
def Obligations.ConsumedWordIsTheHeldWordOrADeliveredByte : Prop :=
  ∀ (s t : State) (ign : BitVec 4), s.turn.ready = true →
    (exec (.trapGetc ign) s = .next t ∨
      exec (.trapIn ign) s = .next t ∧ s.SinkAccepts s.cfg.inPrompt.length) →
    t.reg 0#3 = s.readMem Config.kbdr ∨ ∃ b, s.input.Holds b ∧ t.reg 0#3 = zext b

/-! ### Boot -/

/-- A well-formed image is loaded: the word `i` of it stands at `origin + i`, every other word and all the rest of
the state, `pc` too, is as it was (70_reset_and_hazards.md R191; the spec's decision D24, log 20). -/
def Obligations.LoadPlacesTheImage : Prop :=
  ∀ (s : State) (origin : Word) (ws : List Word), origin.toNat + ws.length ≤ 65536 →
    ∃ t, load (imageBytes origin ws) s = .ok t ∧
      (∀ i (h : i < ws.length), t.readMem (origin + BitVec.ofNat 16 i) = ws[i]) ∧
      (∀ a : Word, a.toNat < origin.toNat ∨ origin.toNat + ws.length ≤ a.toNat → t.readMem a = s.readMem a) ∧
      (∀ i, t.reg i = s.reg i) ∧ t.cond = s.cond ∧ t.pc = s.pc ∧ SameRest s t ∧
      (Memory.wf s.mem → Memory.wf t.mem)

/-- The loader rejects a stream shorter than one word, a stream with a trailing byte, and an image that would write
past 0xFFFF, and answers no state (70_reset_and_hazards.md R192, 60_exceptions.md R162; the odd length is the spec's
choice U10, log 20). -/
def Obligations.LoadRejectsMalformedImages : Prop :=
  (∀ (s : State) (image : List Byte), image.length < 2 → load image s = .error .tooShort) ∧
  (∀ (s : State) (image : List Byte), 2 ≤ image.length → image.length % 2 = 1 → load image s = .error .oddLength) ∧
  (∀ (s : State) (origin : Word) (ws : List Word), 65536 < origin.toNat + ws.length →
    load (imageBytes origin ws) s = .error .pastEnd)

/-! ### The input and the memory primitives -/

/-- The input is delivered in order, two producer events a byte, and may be empty, finite or unbounded: byte number
`k` is what KBDR holds after `2 * k + 1` events, and READY is set one event later; after the last byte the producer
has no event; an unbounded input has every byte number (10_state.md R21, 60_exceptions.md R171; the end of the input
is the spec's decision D22, the form of an unbounded one is log 32). -/
def Obligations.ProducerDeliversTheInputInOrder : Prop :=
  (∀ (s : State) (k : Nat) (b : Byte), s.readyDue = false → s.input.byteAt k = some b →
    let before := producerEvent^[2 * k] s
    let data := producerEvent before
    let done := producerEvent data
    before.producerEnabled = true ∧ data.readMem Config.kbdr = zext b ∧ data.producerEnabled = true ∧
      done.readMem Config.kbdr = zext b ∧ done.ready = true ∧ done.readyDue = false) ∧
  (∀ (s : State) (k : Nat), s.readyDue = false → s.input.byteAt k = none →
    (producerEvent^[2 * k] s).producerEnabled = false) ∧
  (∀ (bs : List Byte) (k : Nat), (Input.finite bs).byteAt k = bs[k]?) ∧
  (∀ (bs : List Byte) (k : Nat), (∃ b, (Input.unbounded bs).byteAt k = some b) ∧
    (k < bs.length → (Input.unbounded bs).byteAt k = bs[k]?))

/-- `MemWrite` sets one word and changes nothing else, at every address; a later `MemRead` returns it, whatever other
words are written, unless a producer event on that address intervened, which only a device word can have
(20_memory.md R32). -/
def Obligations.MemWriteSetsOneWordUntilItIsWrittenAgain : Prop :=
  (∀ (s : State) (a v : Word), StoresWord s (s.writeMem a v) a v) ∧
  (∀ (s : State) (a v : Word) (later : List (Word × Word)), (∀ p ∈ later, p.1 ≠ a) →
    (later.foldl (fun u p => u.writeMem p.1 p.2) (s.writeMem a v)).readMem a = v) ∧
  (∀ (s : State) (a v : Word) (k : Nat), ¬ IsDevice a → (producerEvent^[k] (s.writeMem a v)).readMem a = v) ∧
  (∀ (s : State) (v : Word), s.readyDue = false →
    (producerEvent (s.writeMem Config.kbsr v)).readMem Config.kbsr = v) ∧
  (∀ (s : State) (v : Word), s.readyDue = true →
    (producerEvent (s.writeMem Config.kbdr v)).readMem Config.kbdr = v)
end

