-- ==== Sys2Proof/Laws/State.lean ====
section
/-! SUPPORT. One lemma per field per update of the state, true by rfl, and the register file's read after write. -/

namespace Sys2Proof.Machine

/-! ### setReg -/

@[simp] theorem setReg_pc (s : State) (i : RegIdx) (v : Word) : (s.setReg i v).pc = s.pc := rfl
@[simp] theorem setReg_cond (s : State) (i : RegIdx) (v : Word) : (s.setReg i v).cond = s.cond := rfl
@[simp] theorem setReg_running (s : State) (i : RegIdx) (v : Word) : (s.setReg i v).running = s.running := rfl
@[simp] theorem setReg_fault (s : State) (i : RegIdx) (v : Word) : (s.setReg i v).fault = s.fault := rfl
@[simp] theorem setReg_mem (s : State) (i : RegIdx) (v : Word) : (s.setReg i v).mem = s.mem := rfl
@[simp] theorem setReg_output (s : State) (i : RegIdx) (v : Word) : (s.setReg i v).output = s.output := rfl
@[simp] theorem setReg_input (s : State) (i : RegIdx) (v : Word) : (s.setReg i v).input = s.input := rfl
@[simp] theorem setReg_readyDue (s : State) (i : RegIdx) (v : Word) : (s.setReg i v).readyDue = s.readyDue := rfl
@[simp] theorem setReg_pos (s : State) (i : RegIdx) (v : Word) : (s.setReg i v).pos = s.pos := rfl
@[simp] theorem setReg_cfg (s : State) (i : RegIdx) (v : Word) : (s.setReg i v).cfg = s.cfg := rfl
@[simp] theorem setReg_sched (s : State) (i : RegIdx) (v : Word) : (s.setReg i v).sched = s.sched := rfl
@[simp] theorem setReg_sinkPlan (s : State) (i : RegIdx) (v : Word) : (s.setReg i v).sinkPlan = s.sinkPlan := rfl

/-! ### setcc -/

@[simp] theorem setcc_regs (s : State) (v : Word) : (s.setcc v).regs = s.regs := rfl
@[simp] theorem setcc_pc (s : State) (v : Word) : (s.setcc v).pc = s.pc := rfl
@[simp] theorem setcc_cond (s : State) (v : Word) : (s.setcc v).cond = condOf v := rfl
@[simp] theorem setcc_running (s : State) (v : Word) : (s.setcc v).running = s.running := rfl
@[simp] theorem setcc_fault (s : State) (v : Word) : (s.setcc v).fault = s.fault := rfl
@[simp] theorem setcc_mem (s : State) (v : Word) : (s.setcc v).mem = s.mem := rfl
@[simp] theorem setcc_output (s : State) (v : Word) : (s.setcc v).output = s.output := rfl
@[simp] theorem setcc_input (s : State) (v : Word) : (s.setcc v).input = s.input := rfl
@[simp] theorem setcc_readyDue (s : State) (v : Word) : (s.setcc v).readyDue = s.readyDue := rfl
@[simp] theorem setcc_pos (s : State) (v : Word) : (s.setcc v).pos = s.pos := rfl
@[simp] theorem setcc_cfg (s : State) (v : Word) : (s.setcc v).cfg = s.cfg := rfl
@[simp] theorem setcc_sched (s : State) (v : Word) : (s.setcc v).sched = s.sched := rfl
@[simp] theorem setcc_sinkPlan (s : State) (v : Word) : (s.setcc v).sinkPlan = s.sinkPlan := rfl

/-! ### writeDest -/

@[simp] theorem writeDest_pc (s : State) (i : RegIdx) (v : Word) : (s.writeDest i v).pc = s.pc := rfl
@[simp] theorem writeDest_cond (s : State) (i : RegIdx) (v : Word) : (s.writeDest i v).cond = condOf v := rfl
@[simp] theorem writeDest_running (s : State) (i : RegIdx) (v : Word) : (s.writeDest i v).running = s.running := rfl
@[simp] theorem writeDest_fault (s : State) (i : RegIdx) (v : Word) : (s.writeDest i v).fault = s.fault := rfl
@[simp] theorem writeDest_mem (s : State) (i : RegIdx) (v : Word) : (s.writeDest i v).mem = s.mem := rfl
@[simp] theorem writeDest_output (s : State) (i : RegIdx) (v : Word) : (s.writeDest i v).output = s.output := rfl
@[simp] theorem writeDest_input (s : State) (i : RegIdx) (v : Word) : (s.writeDest i v).input = s.input := rfl
@[simp] theorem writeDest_readyDue (s : State) (i : RegIdx) (v : Word) : (s.writeDest i v).readyDue = s.readyDue := rfl
@[simp] theorem writeDest_pos (s : State) (i : RegIdx) (v : Word) : (s.writeDest i v).pos = s.pos := rfl
@[simp] theorem writeDest_cfg (s : State) (i : RegIdx) (v : Word) : (s.writeDest i v).cfg = s.cfg := rfl
@[simp] theorem writeDest_sched (s : State) (i : RegIdx) (v : Word) : (s.writeDest i v).sched = s.sched := rfl
@[simp] theorem writeDest_sinkPlan (s : State) (i : RegIdx) (v : Word) : (s.writeDest i v).sinkPlan = s.sinkPlan := rfl

/-! ### writeMem -/

@[simp] theorem writeMem_regs (s : State) (a v : Word) : (s.writeMem a v).regs = s.regs := rfl
@[simp] theorem writeMem_pc (s : State) (a v : Word) : (s.writeMem a v).pc = s.pc := rfl
@[simp] theorem writeMem_cond (s : State) (a v : Word) : (s.writeMem a v).cond = s.cond := rfl
@[simp] theorem writeMem_running (s : State) (a v : Word) : (s.writeMem a v).running = s.running := rfl
@[simp] theorem writeMem_fault (s : State) (a v : Word) : (s.writeMem a v).fault = s.fault := rfl
@[simp] theorem writeMem_mem (s : State) (a v : Word) : (s.writeMem a v).mem = Memory.write s.mem a v := rfl
@[simp] theorem writeMem_output (s : State) (a v : Word) : (s.writeMem a v).output = s.output := rfl
@[simp] theorem writeMem_input (s : State) (a v : Word) : (s.writeMem a v).input = s.input := rfl
@[simp] theorem writeMem_readyDue (s : State) (a v : Word) : (s.writeMem a v).readyDue = s.readyDue := rfl
@[simp] theorem writeMem_pos (s : State) (a v : Word) : (s.writeMem a v).pos = s.pos := rfl
@[simp] theorem writeMem_cfg (s : State) (a v : Word) : (s.writeMem a v).cfg = s.cfg := rfl
@[simp] theorem writeMem_sched (s : State) (a v : Word) : (s.writeMem a v).sched = s.sched := rfl
@[simp] theorem writeMem_sinkPlan (s : State) (a v : Word) : (s.writeMem a v).sinkPlan = s.sinkPlan := rfl

/-! ### raise -/

@[simp] theorem raise_regs (s : State) (r : FaultRecord) : (s.raise r).regs = s.regs := rfl
@[simp] theorem raise_pc (s : State) (r : FaultRecord) : (s.raise r).pc = s.pc := rfl
@[simp] theorem raise_cond (s : State) (r : FaultRecord) : (s.raise r).cond = s.cond := rfl
@[simp] theorem raise_running (s : State) (r : FaultRecord) : (s.raise r).running = s.running := rfl
@[simp] theorem raise_fault (s : State) (r : FaultRecord) : (s.raise r).fault = some r := rfl
@[simp] theorem raise_mem (s : State) (r : FaultRecord) : (s.raise r).mem = s.mem := rfl
@[simp] theorem raise_output (s : State) (r : FaultRecord) : (s.raise r).output = s.output := rfl
@[simp] theorem raise_input (s : State) (r : FaultRecord) : (s.raise r).input = s.input := rfl
@[simp] theorem raise_readyDue (s : State) (r : FaultRecord) : (s.raise r).readyDue = s.readyDue := rfl
@[simp] theorem raise_pos (s : State) (r : FaultRecord) : (s.raise r).pos = .fetch := rfl
@[simp] theorem raise_cfg (s : State) (r : FaultRecord) : (s.raise r).cfg = s.cfg := rfl
@[simp] theorem raise_sched (s : State) (r : FaultRecord) : (s.raise r).sched = s.sched := rfl
@[simp] theorem raise_sinkPlan (s : State) (r : FaultRecord) : (s.raise r).sinkPlan = s.sinkPlan := rfl

/-! ### emitChar -/

@[simp] theorem emitChar_regs (s : State) (c : Byte) : (s.emitChar c).regs = s.regs := rfl
@[simp] theorem emitChar_pc (s : State) (c : Byte) : (s.emitChar c).pc = s.pc := rfl
@[simp] theorem emitChar_cond (s : State) (c : Byte) : (s.emitChar c).cond = s.cond := rfl
@[simp] theorem emitChar_running (s : State) (c : Byte) : (s.emitChar c).running = s.running := rfl
@[simp] theorem emitChar_fault (s : State) (c : Byte) : (s.emitChar c).fault = s.fault := rfl
@[simp] theorem emitChar_mem (s : State) (c : Byte) : (s.emitChar c).mem = s.mem := rfl
@[simp] theorem emitChar_output (s : State) (c : Byte) : (s.emitChar c).output = s.output ++ [c] := rfl
@[simp] theorem emitChar_input (s : State) (c : Byte) : (s.emitChar c).input = s.input := rfl
@[simp] theorem emitChar_readyDue (s : State) (c : Byte) : (s.emitChar c).readyDue = s.readyDue := rfl
@[simp] theorem emitChar_pos (s : State) (c : Byte) : (s.emitChar c).pos = s.pos := rfl
@[simp] theorem emitChar_cfg (s : State) (c : Byte) : (s.emitChar c).cfg = s.cfg := rfl
@[simp] theorem emitChar_sched (s : State) (c : Byte) : (s.emitChar c).sched = s.sched := rfl
@[simp] theorem emitChar_sinkPlan (s : State) (c : Byte) : (s.emitChar c).sinkPlan = s.sinkRest := rfl

/-! ### takeEntry -/

@[simp] theorem takeEntry_regs (s : State) : (s.takeEntry).regs = s.regs := rfl
@[simp] theorem takeEntry_pc (s : State) : (s.takeEntry).pc = s.pc := rfl
@[simp] theorem takeEntry_cond (s : State) : (s.takeEntry).cond = s.cond := rfl
@[simp] theorem takeEntry_running (s : State) : (s.takeEntry).running = s.running := rfl
@[simp] theorem takeEntry_fault (s : State) : (s.takeEntry).fault = s.fault := rfl
@[simp] theorem takeEntry_mem (s : State) : (s.takeEntry).mem = s.mem := rfl
@[simp] theorem takeEntry_output (s : State) : (s.takeEntry).output = s.output := rfl
@[simp] theorem takeEntry_input (s : State) : (s.takeEntry).input = s.input := rfl
@[simp] theorem takeEntry_readyDue (s : State) : (s.takeEntry).readyDue = s.readyDue := rfl
@[simp] theorem takeEntry_pos (s : State) : (s.takeEntry).pos = s.pos := rfl
@[simp] theorem takeEntry_cfg (s : State) : (s.takeEntry).cfg = s.cfg := rfl
@[simp] theorem takeEntry_sched (s : State) : (s.takeEntry).sched = s.sched.tail := rfl
@[simp] theorem takeEntry_sinkPlan (s : State) : (s.takeEntry).sinkPlan = s.sinkPlan := rfl

/-! ### fetched -/

@[simp] theorem fetched_regs (s : State) : (s.fetched).regs = s.regs := rfl
@[simp] theorem fetched_pc (s : State) : (s.fetched).pc = s.pc + 1#16 := rfl
@[simp] theorem fetched_cond (s : State) : (s.fetched).cond = s.cond := rfl
@[simp] theorem fetched_running (s : State) : (s.fetched).running = s.running := rfl
@[simp] theorem fetched_fault (s : State) : (s.fetched).fault = s.fault := rfl
@[simp] theorem fetched_mem (s : State) : (s.fetched).mem = s.mem := rfl
@[simp] theorem fetched_output (s : State) : (s.fetched).output = s.output := rfl
@[simp] theorem fetched_input (s : State) : (s.fetched).input = s.input := rfl
@[simp] theorem fetched_readyDue (s : State) : (s.fetched).readyDue = s.readyDue := rfl
@[simp] theorem fetched_pos (s : State) : (s.fetched).pos = s.pos := rfl
@[simp] theorem fetched_cfg (s : State) : (s.fetched).cfg = s.cfg := rfl
@[simp] theorem fetched_sched (s : State) : (s.fetched).sched = s.sched.tail := rfl
@[simp] theorem fetched_sinkPlan (s : State) : (s.fetched).sinkPlan = s.sinkPlan := rfl

/-! ### Registers -/

/-- A register reads what was written to it, every other register reads as before (10_state.md R11). -/
theorem reg_setReg (s : State) (i j : RegIdx) (v : Word) :
    (s.setReg i v).reg j = if j = i then v else s.reg j := by
  unfold State.setReg State.reg
  simp only [Vector.getElem_set, BitVec.toNat_inj, eq_comm (a := i)]

@[simp] theorem reg_setReg_self (s : State) (i : RegIdx) (v : Word) : (s.setReg i v).reg i = v := by
  simp [reg_setReg]

theorem reg_setReg_ne (s : State) {i j : RegIdx} (v : Word) (h : j ≠ i) : (s.setReg i v).reg j = s.reg j := by
  simp [reg_setReg, h]

@[simp] theorem reg_setcc (s : State) (v : Word) (j : RegIdx) : (s.setcc v).reg j = s.reg j := rfl

theorem reg_writeDest (s : State) (i j : RegIdx) (v : Word) :
    (s.writeDest i v).reg j = if j = i then v else s.reg j := by
  simp [State.writeDest, reg_setReg]

/-- The register file alone decides what registers read. -/
theorem reg_congr {s t : State} (h : t.regs = s.regs) (j : RegIdx) : t.reg j = s.reg j := by
  simp [State.reg, h]

/-- Memory alone decides what words read. -/
theorem readMem_congr {s t : State} (h : t.mem = s.mem) (a : Word) : t.readMem a = s.readMem a := by
  simp [State.readMem, h]

end Sys2Proof.Machine
end

