-- ==== Sys2Proof/Laws/Memory.lean ====
section
/-! SUPPORT. Memory: read after write, and that a write keeps the canonical form. The read laws hold of every list,
canonical or not, since a write first drops every entry under its key. -/

namespace Sys2Proof.Machine

theorem find_place_self (k : Nat) (v : Word) (m : Memory) (h : ∀ c ∈ m, c.1 ≠ k) :
    Memory.find k (Memory.place k v m) = v := by
  induction m with
  | nil => simp [Memory.place, Memory.find]
  | cons c m ih =>
    have hc := h c (by simp)
    simp only [Memory.place]
    split
    · simp only [Memory.find, hc, if_false]
      exact ih fun d hd => h d (by simp [hd])
    · simp [Memory.find]

theorem find_place_ne {j k : Nat} (v : Word) (m : Memory) (h : j ≠ k) :
    Memory.find j (Memory.place k v m) = Memory.find j m := by
  induction m with
  | nil => simp [Memory.place, Memory.find, Ne.symm h]
  | cons c m ih =>
    simp only [Memory.place]
    split
    · simp [Memory.find, ih]
    · simp [Memory.find, Ne.symm h]

theorem find_filter_ne {j k : Nat} (m : Memory) (h : j ≠ k) :
    Memory.find j (m.filter (fun c => c.1 != k)) = Memory.find j m := by
  induction m with
  | nil => rfl
  | cons c m ih =>
    by_cases hc : c.1 = k
    · simp [Memory.find, hc, ih, Ne.symm h]
    · simp [Memory.find, hc, ih]

theorem find_of_absent (k : Nat) (m : Memory) (h : ∀ c ∈ m, c.1 ≠ k) : Memory.find k m = resetMem := by
  induction m with
  | nil => rfl
  | cons c m ih =>
    simp only [Memory.find, h c (by simp), if_false]
    exact ih fun d hd => h d (by simp [hd])

theorem key_ne_of_mem_filter {k : Nat} {m : Memory} : ∀ c ∈ m.filter (fun c => c.1 != k), c.1 ≠ k := by
  intro c hc
  simpa using (List.mem_filter.mp hc).2

/-- A word reads as what was last written to it (20_memory.md R32). -/
@[simp] theorem read_write_self (m : Memory) (a v : Word) : Memory.read (Memory.write m a v) a = v := by
  unfold Memory.read Memory.write
  split
  · rename_i h
    rw [find_of_absent _ _ key_ne_of_mem_filter, h]
  · exact find_place_self _ _ _ key_ne_of_mem_filter

/-- A write leaves every other word alone (20_memory.md R32). -/
theorem read_write_ne (m : Memory) {a b : Word} (v : Word) (h : b ≠ a) :
    Memory.read (Memory.write m a v) b = Memory.read m b := by
  have hn : b.toNat ≠ a.toNat := fun e => h (BitVec.eq_of_toNat_eq e)
  unfold Memory.read Memory.write
  split
  · exact find_filter_ne m hn
  · rw [find_place_ne _ _ hn, find_filter_ne m hn]

theorem mem_place {k : Nat} {v : Word} {m : Memory} {c : Nat × Word} :
    c ∈ Memory.place k v m ↔ c = (k, v) ∨ c ∈ m := by
  induction m with
  | nil => simp [Memory.place]
  | cons d m ih =>
    simp only [Memory.place]
    split
    · simp only [List.mem_cons, ih]; tauto
    · simp

theorem pairwise_place {k : Nat} (v : Word) {m : Memory} (hm : m.Pairwise (fun c d => c.1 < d.1))
    (hk : ∀ c ∈ m, c.1 ≠ k) : (Memory.place k v m).Pairwise (fun c d => c.1 < d.1) := by
  induction m with
  | nil => simp [Memory.place]
  | cons d m ih =>
    have hd := hk d (by simp)
    obtain ⟨hlt, hm'⟩ := List.pairwise_cons.mp hm
    simp only [Memory.place]
    split
    · rename_i hdk
      refine List.pairwise_cons.mpr ⟨fun c hc => ?_, ih hm' fun c hc => hk c (by simp [hc])⟩
      rcases mem_place.mp hc with rfl | hc
      · exact hdk
      · exact hlt c hc
    · rename_i hdk
      refine List.pairwise_cons.mpr ⟨fun c hc => ?_, hm⟩
      rcases List.mem_cons.mp hc with rfl | hc
      · simp only; omega
      · have := hlt c hc
        simp only; omega

/-- Every write keeps the canonical form. -/
theorem write_wf {m : Memory} (h : Memory.wf m) (a v : Word) : Memory.wf (Memory.write m a v) := by
  obtain ⟨hp, hc⟩ := h
  have hp' : (m.filter (fun c => c.1 != a.toNat)).Pairwise (fun c d => c.1 < d.1) := hp.filter _
  unfold Memory.write
  split
  · exact ⟨hp', fun c h => hc c (List.mem_filter.mp h).1⟩
  · rename_i hv
    refine ⟨pairwise_place v hp' key_ne_of_mem_filter, fun c h => ?_⟩
    rcases mem_place.mp h with rfl | h
    · exact ⟨a.isLt, hv⟩
    · exact hc c (List.mem_filter.mp h).1

/-- Memory at reset lists nothing and is canonical. -/
theorem reset_mem_wf : Memory.wf State.reset.mem := by decide

@[simp] theorem readMem_writeMem_self (s : State) (a v : Word) : (s.writeMem a v).readMem a = v :=
  read_write_self s.mem a v

theorem readMem_writeMem_ne (s : State) {a b : Word} (v : Word) (h : b ≠ a) :
    (s.writeMem a v).readMem b = s.readMem b :=
  read_write_ne s.mem v h

end Sys2Proof.Machine
end

