-- ==== Sys2Proof/Laws/Schedule.lean ====
section
/-! SUPPORT. What the producer's events, and a turn made of them, can do: everything but the two device words, the
input, `readyDue` and the schedule is as it was, and memory stays canonical. -/

namespace Sys2Proof.Machine

/-! ### The input -/

/-- Taking the next byte shifts the input by one. -/
theorem Input.byteAt_of_next {i rest : Input} {b : Byte} (h : i.next = some (b, rest)) :
    i.byteAt 0 = some b ∧ ∀ k, rest.byteAt k = i.byteAt (k + 1) := by
  rcases i with ⟨_ | ⟨c, bytes⟩, _ | n⟩
  · simp [Input.next] at h
  · simp only [Input.next, Option.map_some, Option.some.injEq, Prod.mk.injEq] at h
    obtain ⟨rfl, rfl⟩ := h
    exact ⟨rfl, fun k => by simp [Input.byteAt, Nat.add_assoc, Nat.add_comm 1 k]⟩
  all_goals
    simp only [Input.next, Option.some.injEq, Prod.mk.injEq] at h
    obtain ⟨rfl, rfl⟩ := h
    exact ⟨rfl, fun k => by simp [Input.byteAt]⟩

/-- An input has a next byte exactly when it has a byte number 0. -/
theorem Input.next_eq_none_iff (i : Input) : i.next = none ↔ i.byteAt 0 = none := by
  rcases i with ⟨_ | ⟨c, bytes⟩, _ | n⟩ <;> simp [Input.next, Input.byteAt]

theorem Input.holds_of_next {i rest : Input} {b c : Byte} (h : i.next = some (b, rest)) :
    rest.Holds c → i.Holds c := fun ⟨k, hk⟩ => ⟨k + 1, by rw [← (Input.byteAt_of_next h).2 k, hk]⟩

theorem Input.holds_next {i rest : Input} {b : Byte} (h : i.next = some (b, rest)) : i.Holds b :=
  ⟨0, (Input.byteAt_of_next h).1⟩

/-- Everything the producer cannot change is the same in `s` and `t`. -/
structure ProducerOnly (s t : State) : Prop where
  regs : t.regs = s.regs
  pc : t.pc = s.pc
  cond : t.cond = s.cond
  running : t.running = s.running
  fault : t.fault = s.fault
  output : t.output = s.output
  pos : t.pos = s.pos
  cfg : t.cfg = s.cfg
  sinkPlan : t.sinkPlan = s.sinkPlan
  mem : ∀ a, a ≠ Config.kbsr → a ≠ Config.kbdr → t.readMem a = s.readMem a
  wf : Memory.wf s.mem → Memory.wf t.mem
  input : ∀ b, t.input.Holds b → s.input.Holds b

theorem ProducerOnly.refl (s : State) : ProducerOnly s s :=
  ⟨rfl, rfl, rfl, rfl, rfl, rfl, rfl, rfl, rfl, fun _ _ _ => rfl, id, fun _ => id⟩

theorem ProducerOnly.trans {s t u : State} (h : ProducerOnly s t) (k : ProducerOnly t u) : ProducerOnly s u where
  regs := k.regs.trans h.regs
  pc := k.pc.trans h.pc
  cond := k.cond.trans h.cond
  running := k.running.trans h.running
  fault := k.fault.trans h.fault
  output := k.output.trans h.output
  pos := k.pos.trans h.pos
  cfg := k.cfg.trans h.cfg
  sinkPlan := k.sinkPlan.trans h.sinkPlan
  mem a h1 h2 := (k.mem a h1 h2).trans (h.mem a h1 h2)
  wf := k.wf ∘ h.wf
  input b := h.input b ∘ k.input b

/-- Changing the schedule alone changes nothing the producer cannot change. -/
theorem ProducerOnly.withSched (s : State) (l : List Agent) : ProducerOnly s { s with sched := l } :=
  ⟨rfl, rfl, rfl, rfl, rfl, rfl, rfl, rfl, rfl, fun _ _ _ => rfl, id, fun _ => id⟩

theorem kbdData_producerOnly (s : State) {b : Byte} {rest : Input} (h : s.input.next = some (b, rest)) :
    ProducerOnly s (kbdData b rest s) :=
  ⟨rfl, rfl, rfl, rfl, rfl, rfl, rfl, rfl, rfl, fun _ _ h2 => read_write_ne s.mem _ h2,
    fun hw => write_wf hw _ _, fun _ => Input.holds_of_next h⟩

theorem kbdReady_producerOnly (s : State) : ProducerOnly s (kbdReady s) :=
  ⟨rfl, rfl, rfl, rfl, rfl, rfl, rfl, rfl, rfl, fun _ h1 _ => read_write_ne s.mem _ h1,
    fun hw => write_wf hw _ _, fun _ => id⟩

/-- Everything one producer event can do. -/
theorem producerEvent_producerOnly (s : State) : ProducerOnly s (producerEvent s) := by
  unfold producerEvent
  split
  · exact kbdReady_producerOnly s
  · split
    · exact ProducerOnly.refl s
    · rename_i h
      exact kbdData_producerOnly s h

/-- `KbdReady` when it is due. -/
theorem producerEvent_of_due {s : State} (h : s.readyDue = true) : producerEvent s = kbdReady s := by
  simp [producerEvent, h]

/-- `KbdData` of the next byte when no `KbdReady` is due. -/
theorem producerEvent_of_byte {s : State} {b : Byte} {rest : Input} (h : s.readyDue = false)
    (hi : s.input.next = some (b, rest)) : producerEvent s = kbdData b rest s := by
  simp [producerEvent, h, hi]

/-- Nothing when the producer has no event. -/
theorem producerEvent_of_none {s : State} (h : s.readyDue = false) (hi : s.input.next = none) :
    producerEvent s = s := by
  simp [producerEvent, h, hi]

@[simp] theorem producerEvent_sched (s : State) : (producerEvent s).sched = s.sched := by
  unfold producerEvent kbdReady kbdData
  split
  · rfl
  · split <;> rfl

theorem drain_producerOnly (l : List Agent) (s : State) : ProducerOnly s (drain l s) := by
  induction l generalizing s with
  | nil => exact ProducerOnly.withSched s _
  | cons a l ih =>
    cases a with
    | engine => exact ProducerOnly.withSched s _
    | producer => exact (producerEvent_producerOnly s).trans (ih _)

/-- Everything a turn can do. -/
theorem turn_producerOnly (s : State) : ProducerOnly s s.turn := drain_producerOnly s.sched s

@[simp] theorem turn_regs (s : State) : s.turn.regs = s.regs := (turn_producerOnly s).regs
@[simp] theorem turn_pc (s : State) : s.turn.pc = s.pc := (turn_producerOnly s).pc
@[simp] theorem turn_cond (s : State) : s.turn.cond = s.cond := (turn_producerOnly s).cond
@[simp] theorem turn_running (s : State) : s.turn.running = s.running := (turn_producerOnly s).running
@[simp] theorem turn_fault (s : State) : s.turn.fault = s.fault := (turn_producerOnly s).fault
@[simp] theorem turn_output (s : State) : s.turn.output = s.output := (turn_producerOnly s).output
@[simp] theorem turn_pos (s : State) : s.turn.pos = s.pos := (turn_producerOnly s).pos
@[simp] theorem turn_cfg (s : State) : s.turn.cfg = s.cfg := (turn_producerOnly s).cfg
@[simp] theorem turn_sinkPlan (s : State) : s.turn.sinkPlan = s.sinkPlan := (turn_producerOnly s).sinkPlan
@[simp] theorem reg_turn (s : State) (i : RegIdx) : s.turn.reg i = s.reg i := reg_congr (turn_regs s) i

/-- A turn with the schedule used up is nothing: the engine goes on. -/
theorem turn_of_sched_nil {s : State} (h : s.sched = []) : s.turn = s := by
  cases s
  simp only at h
  subst h
  rfl

/-- An update that commutes with one producer event and with the schedule commutes with a whole run of them. -/
theorem drain_comm (f : State → State) (hp : ∀ s, producerEvent (f s) = f (producerEvent s))
    (hs : ∀ s l, { f s with sched := l } = f { s with sched := l }) (l : List Agent) (s : State) :
    drain l (f s) = f (drain l s) := by
  induction l generalizing s with
  | nil => exact hs s []
  | cons a l ih =>
    cases a with
    | engine => exact hs s l
    | producer => simp only [drain, hp, ih]

/-- An update that leaves the input alone and commutes with both of the producer's events commutes with its next
event, whichever that is. -/
theorem producerEvent_comm (f : State → State) (s : State) (hd : (f s).readyDue = s.readyDue)
    (hi : (f s).input = s.input) (kr : kbdReady (f s) = f (kbdReady s))
    (kd : ∀ b rest, kbdData b rest (f s) = f (kbdData b rest s)) : producerEvent (f s) = f (producerEvent s) := by
  simp only [producerEvent, hd, hi]
  split
  · exact kr
  · split
    · rfl
    · exact kd _ _

theorem producerEvent_setReg (s : State) (i : RegIdx) (v : Word) :
    producerEvent (s.setReg i v) = (producerEvent s).setReg i v :=
  producerEvent_comm (fun s => s.setReg i v) s rfl rfl rfl fun _ _ => rfl

/-- What the engine writes to a register in between does not matter to the producer. -/
theorem turn_setReg (s : State) (i : RegIdx) (v : Word) : (s.setReg i v).turn = s.turn.setReg i v :=
  drain_comm (fun s => s.setReg i v) (fun s => producerEvent_setReg s i v) (fun _ _ => rfl) s.sched s

theorem producerEvent_withSink (s : State) (o : List Byte) (p : List Bool) :
    producerEvent { s with output := o, sinkPlan := p } = { producerEvent s with output := o, sinkPlan := p } :=
  producerEvent_comm (fun s => { s with output := o, sinkPlan := p }) s rfl rfl rfl fun _ _ => rfl

/-- What has been emitted, and what the sink will do, does not matter to the producer. -/
theorem turn_withSink (s : State) (o : List Byte) (p : List Bool) :
    { s with output := o, sinkPlan := p }.turn = { s.turn with output := o, sinkPlan := p } :=
  drain_comm (fun s => { s with output := o, sinkPlan := p }) (fun s => producerEvent_withSink s o p)
    (fun _ _ => rfl) s.sched s

end Sys2Proof.Machine
end

