-- ==== Sys2Proof/Laws/Services.lean ====
section
/-! SUPPORT. The shared sequences of the trap services: what `emit`, `consume` and `scan` can do, each said once. -/

namespace Sys2Proof.Machine

/-! ### emit -/

theorem sinkAccepts_of_reliable {s : State} (h : s.cfg.sinkMayFail = false) (n : Nat) : s.SinkAccepts n :=
  fun h' => by simp [h] at h'

/-- Accepting `n + 1` characters is accepting one, then `n`. -/
theorem sinkAccepts_succ {s : State} {n : Nat} (h : s.SinkAccepts (n + 1)) (c : Byte) :
    s.sinkRefuses = false ∧ (s.emitChar c).SinkAccepts n := by
  unfold State.SinkAccepts at h
  cases hf : s.cfg.sinkMayFail
  · exact ⟨by simp [State.sinkRefuses, hf], sinkAccepts_of_reliable (s := s.emitChar c) hf n⟩
  · have k := h hf
    cases hp : s.sinkPlan with
    | nil => exact ⟨by simp [State.sinkRefuses, hp], fun _ => by simp [State.sinkRest, hf, hp]⟩
    | cons r p =>
      rw [hp] at k
      simp only [List.take_succ_cons, List.mem_cons, forall_eq_or_imp] at k
      exact ⟨by simp [State.sinkRefuses, hp, k.1], fun _ => by simpa [State.sinkRest, hf, hp] using k.2⟩

/-- One character on, the plan left after `n` more is the plan left after `n + 1`. -/
theorem sinkAfter_emitChar (s : State) (c : Byte) (n : Nat) : (s.emitChar c).sinkAfter n = s.sinkAfter (n + 1) := by
  cases hf : s.cfg.sinkMayFail <;> simp [State.sinkAfter, State.sinkRest, hf]

/-- Characters the sink accepts are appended, in order, the plan moves on, and nothing else changes. -/
theorem emit_of_accepts {s : State} {cs : List Byte} (h : s.SinkAccepts cs.length) :
    emit cs s = ({ s with output := s.output ++ cs, sinkPlan := s.sinkAfter cs.length }, true) := by
  induction cs generalizing s with
  | nil => simp [emit, State.sinkAfter]
  | cons c cs ih =>
    obtain ⟨hr, ha⟩ := sinkAccepts_succ h c
    simp only [emit, hr, Bool.false_eq_true, if_false, ih ha, sinkAfter_emitChar]
    simp [State.emitChar]

/-- At a refused character the characters before it stay emitted, the latch holds `IOError`, and nothing after it
happens. -/
theorem emit_of_refuses {s : State} {cs : List Byte} {n : Nat} (h : s.SinkRefusesAt n) (hn : n < cs.length) :
    emit cs s =
      (State.raise { s with output := s.output ++ cs.take n, sinkPlan := s.sinkAfter (n + 1) } .ioError, false) := by
  induction cs generalizing s n with
  | nil => simp at hn
  | cons c cs ih =>
    obtain ⟨hf, ha, hr⟩ := h
    cases n with
    | zero =>
      have hs : s.sinkRefuses = true := by
        cases hp : s.sinkPlan <;> simp_all [State.sinkRefuses]
      simp [emit, hs, State.sinkRest, State.sinkAfter, hf]
    | succ n =>
      obtain ⟨hs, -⟩ := sinkAccepts_succ (s := s) (n := n) (fun _ => ha) c
      have hk : (s.emitChar c).SinkRefusesAt n := by
        cases hp : s.sinkPlan with
        | nil => simp [hp] at hr
        | cons r p =>
          rw [hp] at ha hr
          exact ⟨hf, fun r' h' => ha r' (by simp [State.sinkRest, hf, hp] at h'; simp [h']),
            by simpa [State.sinkRest, hf, hp] using hr⟩
      simp only [emit, hs, Bool.false_eq_true, if_false, ih hk (by simpa using hn), sinkAfter_emitChar]
      simp [State.emitChar]

/-- Everything a sequence of `out` can do: the output grows by a prefix of the characters, the sink's plan moves
on, and, at a refusal, the latch holds `IOError` and the engine stands between instructions. -/
structure EmitFrame (cs : List Byte) (s : State) (r : State × Bool) : Prop where
  regs : r.1.regs = s.regs
  pc : r.1.pc = s.pc
  cond : r.1.cond = s.cond
  running : r.1.running = s.running
  mem : r.1.mem = s.mem
  input : r.1.input = s.input
  readyDue : r.1.readyDue = s.readyDue
  cfg : r.1.cfg = s.cfg
  sched : r.1.sched = s.sched
  output : ∃ n, r.1.output = s.output ++ cs.take n
  accepted : r.2 = true → r.1.fault = s.fault ∧ r.1.pos = s.pos ∧ r.1.output = s.output ++ cs
  refused : r.2 = false → r.1.fault = some .ioError ∧ r.1.pos = .fetch ∧ s.cfg.sinkMayFail = true

theorem emit_frame (cs : List Byte) (s : State) : EmitFrame cs s (emit cs s) := by
  induction cs generalizing s with
  | nil => exact ⟨rfl, rfl, rfl, rfl, rfl, rfl, rfl, rfl, rfl, ⟨0, by simp [emit]⟩,
      fun _ => ⟨rfl, rfl, by simp [emit]⟩, fun h => by simp [emit] at h⟩
  | cons c cs ih =>
    by_cases h : s.sinkRefuses = true
    · have hf : s.cfg.sinkMayFail = true := by
        simp only [State.sinkRefuses, Bool.and_eq_true] at h
        exact h.1
      simp only [emit, h, if_true]
      exact ⟨rfl, rfl, rfl, rfl, rfl, rfl, rfl, rfl, rfl, ⟨0, by simp⟩,
        fun h => by simp at h, fun _ => ⟨rfl, rfl, hf⟩⟩
    · simp only [emit, h, Bool.false_eq_true, if_false]
      have k := ih (s.emitChar c)
      obtain ⟨n, hn⟩ := k.output
      refine ⟨k.regs, k.pc, k.cond, k.running, k.mem, k.input, k.readyDue, k.cfg, k.sched,
        ⟨n + 1, by simp [hn]⟩, fun ha => ?_, k.refused⟩
      obtain ⟨h1, h2, h3⟩ := k.accepted ha
      exact ⟨h1, h2, by simp [h3]⟩

/-! ### consume -/

/-- A poll that does not observe READY changes nothing but the engine's position. -/
theorem consume_of_not_ready {hold : Position} {s : State} (h : s.turn.ready = false) :
    consume hold s = ({ s.turn with pos := hold }, false) := by
  simp [consume, h]

/-- A poll that observes READY goes through E2 and E3. -/
theorem consume_of_ready {hold : Position} {s : State} (h : s.turn.ready = true) :
    consume hold s =
      (let s3 := s.turn.turn.turn.setReg 0#3 (s.turn.turn.readMem Config.kbdr)
       let s4 := s3.writeMem Config.kbsr (s3.readMem Config.kbsr &&& 0x7FFF#16)
       (if s.cfg.trapInputSetsCC then s4.setcc (s.turn.turn.readMem Config.kbdr) else s4, true)) := by
  simp only [consume, h, if_true, turn_setReg, writeMem_cfg, setReg_cfg, turn_cfg]
  simp [State.reg, State.writeMem, State.setReg]

/-- The frame of a consume sequence, completed or not. -/
structure ConsumeFrame (hold : Position) (s : State) (r : State × Bool) : Prop where
  pc : r.1.pc = s.pc
  running : r.1.running = s.running
  fault : r.1.fault = s.fault
  output : r.1.output = s.output
  cfg : r.1.cfg = s.cfg
  sinkPlan : r.1.sinkPlan = s.sinkPlan
  regs : ∀ i, i ≠ 0#3 → r.1.reg i = s.reg i
  mem : ∀ a, a ≠ Config.kbsr → a ≠ Config.kbdr → r.1.readMem a = s.readMem a
  wf : Memory.wf s.mem → Memory.wf r.1.mem
  held : r.2 = false → r.1 = { s.turn with pos := hold }

theorem consume_frame (hold : Position) (s : State) : ConsumeFrame hold s (consume hold s) := by
  have h1 := turn_producerOnly s
  by_cases h : s.turn.ready = true
  · have h3 := h1.trans ((turn_producerOnly s.turn).trans (turn_producerOnly s.turn.turn))
    rw [consume_of_ready h]
    refine ⟨?_, ?_, ?_, ?_, ?_, ?_, fun i hi => ?_, fun a ha hb => ?_, fun hw => ?_, fun hf => by simp at hf⟩
    · split <;> simp
    · split <;> simp
    · split <;> simp
    · split <;> simp
    · split <;> simp
    · split <;> simp
    · have k : (s.turn.turn.turn.setReg 0#3 (s.turn.turn.readMem Config.kbdr)).reg i = s.reg i := by
        rw [reg_setReg_ne _ _ hi]; simp
      split <;> exact k
    · have k : ∀ v, ((s.turn.turn.turn.setReg 0#3 (s.turn.turn.readMem Config.kbdr)).writeMem
          Config.kbsr v).readMem a = s.readMem a := fun v =>
        (readMem_writeMem_ne _ v ha).trans (h3.mem a ha hb)
      split <;> exact k _
    · have k := write_wf (h3.wf hw) Config.kbsr
      split <;> exact k _
  · simp only [Bool.not_eq_true] at h
    rw [consume_of_not_ready h]
    exact ⟨h1.pc, h1.running, h1.fault, h1.output, h1.cfg, h1.sinkPlan, fun i _ => reg_congr h1.regs i,
      h1.mem, h1.wf, fun _ => rfl⟩

/-! ### scan -/

/-- Everything a string scan can do: it reads and emits, so registers, flags and memory outside the device words
are as they were, the output grows, and the only fault is a refusing sink's. -/
structure ScanFrame (hold : Word → Position) (s t : State) : Prop where
  regs : t.regs = s.regs
  pc : t.pc = s.pc
  cond : t.cond = s.cond
  running : t.running = s.running
  cfg : t.cfg = s.cfg
  mem : ∀ a, a ≠ Config.kbsr → a ≠ Config.kbdr → t.readMem a = s.readMem a
  wf : Memory.wf s.mem → Memory.wf t.mem
  output : s.output <+: t.output
  ending : (t.fault = s.fault ∧ (t.pos = .fetch ∨ ∃ a, t.pos = hold a)) ∨
    (t.fault = some .ioError ∧ t.pos = .fetch ∧ s.cfg.sinkMayFail = true)

theorem scan_frame (chars : Word → List Byte) (hold : Word → Position) (n : Nat) (a : Word) (s : State) :
    ScanFrame hold s (scan chars hold n a s) := by
  induction n generalizing a s with
  | zero =>
    exact ⟨rfl, rfl, rfl, rfl, rfl, fun _ _ _ => rfl, id, List.prefix_refl _, .inl ⟨rfl, .inr ⟨a, rfl⟩⟩⟩
  | succ n ih =>
    have h1 := turn_producerOnly s
    simp only [scan]
    split
    · exact ⟨h1.regs, h1.pc, h1.cond, h1.running, h1.cfg, h1.mem, h1.wf, by simp,
        .inl ⟨h1.fault, .inl rfl⟩⟩
    · have he := emit_frame (chars (s.turn.readMem a)) s.turn
      obtain ⟨k, hk⟩ := he.output
      have hout : s.output <+: (emit (chars (s.turn.readMem a)) s.turn).1.output := by
        rw [hk, h1.output]; exact List.prefix_append _ _
      have hmem : ∀ b, b ≠ Config.kbsr → b ≠ Config.kbdr →
          (emit (chars (s.turn.readMem a)) s.turn).1.readMem b = s.readMem b := fun b hb hc =>
        (readMem_congr he.mem b).trans (h1.mem b hb hc)
      have hwf : Memory.wf s.mem → Memory.wf (emit (chars (s.turn.readMem a)) s.turn).1.mem := fun hw => by
        rw [he.mem]; exact h1.wf hw
      revert he hout hmem hwf
      rcases emit (chars (s.turn.readMem a)) s.turn with ⟨s2, b⟩
      intro he hout hmem hwf
      cases b with
      | true =>
        obtain ⟨hf, hp, -⟩ := he.accepted rfl
        have k := ih (a + 1#16) s2
        refine ⟨k.regs.trans (he.regs.trans h1.regs), k.pc.trans (he.pc.trans h1.pc),
          k.cond.trans (he.cond.trans h1.cond), k.running.trans (he.running.trans h1.running),
          k.cfg.trans (he.cfg.trans h1.cfg), fun b hb hc => (k.mem b hb hc).trans (hmem b hb hc),
          k.wf ∘ hwf, hout.trans k.output, ?_⟩
        rcases k.ending with ⟨h, h'⟩ | ⟨h, h', h''⟩
        · exact .inl ⟨h.trans (hf.trans h1.fault), h'⟩
        · exact .inr ⟨h, h', by rw [← h1.cfg, ← he.cfg]; exact h''⟩
      | false =>
        obtain ⟨hf, hp, hc⟩ := he.refused rfl
        exact ⟨he.regs.trans h1.regs, he.pc.trans h1.pc, he.cond.trans h1.cond, he.running.trans h1.running,
          he.cfg.trans h1.cfg, hmem, hwf, hout, .inr ⟨hf, hp, by rw [← h1.cfg]; exact hc⟩⟩

/-! ### scan over a string, on a sink whose answers are known -/

/-- A state whose plan is what `m` characters leave of the plan of `s`. -/
structure AfterChars (s t : State) (m : Nat) : Prop where
  cfg : t.cfg = s.cfg
  sinkPlan : t.sinkPlan = s.sinkAfter m

theorem AfterChars.sinkAfter {s t : State} {m : Nat} (h : AfterChars s t m) (n : Nat) :
    t.sinkAfter n = s.sinkAfter (m + n) := by
  cases hf : s.cfg.sinkMayFail <;> simp [State.sinkAfter, h.cfg, h.sinkPlan, hf]

theorem AfterChars.accepts {s t : State} {m n : Nat} (h : AfterChars s t m) (ha : s.SinkAccepts (m + n)) :
    t.SinkAccepts n := by
  intro hf r hr
  rw [h.cfg] at hf
  refine ha hf r ?_
  rw [h.sinkPlan, State.sinkAfter, if_pos hf, List.take_drop] at hr
  exact List.mem_of_mem_drop hr

theorem AfterChars.refusesAt {s t : State} {m n : Nat} (h : AfterChars s t m) (hr : s.SinkRefusesAt (m + n)) :
    t.SinkRefusesAt n := by
  obtain ⟨hf, ha, hr⟩ := hr
  have ht : t.cfg.sinkMayFail = true := h.cfg ▸ hf
  refine ⟨ht, h.accepts (fun _ => ha) ht, ?_⟩
  rw [h.sinkPlan, State.sinkAfter, if_pos hf, List.getElem?_drop]
  exact hr

theorem SinkAccepts.mono {s : State} {m n : Nat} (h : s.SinkAccepts n) (hm : m ≤ n) : s.SinkAccepts m :=
  fun hf r hr => h hf r ((List.take_subset_take_left _ hm) hr)

theorem SinkRefusesAt.accepts {s : State} {m n : Nat} (h : s.SinkRefusesAt n) (hm : m ≤ n) : s.SinkAccepts m :=
  SinkAccepts.mono (fun _ => h.2.1) hm

/-- The producer events before an access leave an undisturbed word as it was. -/
theorem turn_readMem_of_undisturbed {s : State} {a : Word} {n k : Nat} (h : s.Undisturbed a n) (hk : k < n) :
    s.turn.readMem (a + BitVec.ofNat 16 k) = s.readMem (a + BitVec.ofNat 16 k) := by
  rcases h with h | h
  · rw [turn_of_sched_nil h]
  · have hd := h k hk
    exact (turn_producerOnly s).mem _ (fun e => hd (.inl e)) fun e => hd (.inr e)

theorem next_address (a : Word) (k : Nat) : a + 1#16 + BitVec.ofNat 16 k = a + BitVec.ofNat 16 (k + 1) := by
  apply BitVec.eq_of_toNat_eq
  simp only [BitVec.toNat_add, BitVec.toNat_ofNat]
  omega

/-- The state a scan goes on from after one word of an undisturbed string: the string's tail lies at the next
address, undisturbed. -/
theorem string_tail {s t : State} {a w : Word} {ws : List Word} {n : Nat} (hs : s.StringAt a (w :: ws))
    (hu : s.Undisturbed a (n + 1)) (hn : ws.length ≤ n) (hm : ∀ b, t.readMem b = s.turn.readMem b)
    (ht : t.sched = s.turn.sched) :
    s.turn.readMem a = w ∧ w ≠ 0x0000#16 ∧ t.StringAt (a + 1#16) ws ∧ t.Undisturbed (a + 1#16) n := by
  have h0 := hs 0 (by simp)
  have r0 := turn_readMem_of_undisturbed hu (Nat.succ_pos n)
  simp only [BitVec.add_zero, List.getElem_cons_zero] at h0 r0
  refine ⟨r0.trans h0.1, h0.2, fun k hk => ?_, ?_⟩
  · have := hs (k + 1) (by simpa using hk)
    rw [next_address, hm, turn_readMem_of_undisturbed hu (by omega)]
    simpa using this
  · rcases hu with h | h
    · exact .inl (by rw [ht, turn_of_sched_nil h, h])
    · exact .inr fun k hk => by rw [next_address]; exact h (k + 1) (by omega)

/-- A string that ends within the scan, on a sink that accepts all of it: the service has ended. -/
theorem scan_of_string (chars : Word → List Byte) (hold : Word → Position) {ws : List Word} {n : Nat} {a : Word}
    {s : State} (hn : ws.length < n) (hs : s.StringAt a ws) (hz : s.readMem (a + BitVec.ofNat 16 ws.length) = 0x0000#16)
    (hu : s.Undisturbed a (ws.length + 1)) (ha : s.SinkAccepts (ws.flatMap chars).length) :
    Emitted s (scan chars hold n a s) (ws.flatMap chars) := by
  have hp := turn_producerOnly s
  induction ws generalizing n a s with
  | nil =>
    obtain ⟨n, rfl⟩ : ∃ m, n = m + 1 := ⟨n - 1, by simp at hn; omega⟩
    have r0 := turn_readMem_of_undisturbed hu Nat.one_pos
    simp only [List.length_nil] at hz
    rw [hz] at r0
    simp only [BitVec.add_zero] at r0
    simp only [scan, r0, if_true]
    exact ⟨by simp, by simp [State.sinkAfter],
      ⟨reg_congr hp.regs, hp.cond, hp.pc, hp.running, hp.fault, rfl, hp.cfg, rfl, hp.mem⟩, rfl,
      fun h _ => by rw [turn_of_sched_nil h]; rfl⟩
  | cons w ws ih =>
    obtain ⟨n, rfl⟩ : ∃ m, n = m + 1 := ⟨n - 1, by simp at hn; omega⟩
    rw [List.flatMap_cons, List.length_append] at ha
    have hc : AfterChars s s.turn 0 := ⟨hp.cfg, by simp [State.sinkAfter]⟩
    have he := emit_of_accepts (s := s.turn) (cs := chars w) (hc.accepts (by simpa using SinkAccepts.mono ha (by simp)))
    have hca : s.turn.sinkAfter (chars w).length = s.sinkAfter (chars w).length := by simpa using hc.sinkAfter _
    let t : State := { s.turn with
      output := s.turn.output ++ chars w, sinkPlan := s.turn.sinkAfter (chars w).length }
    have ht : AfterChars s t (chars w).length := ⟨hp.cfg, hca⟩
    obtain ⟨hr, hw, hst, hut⟩ := string_tail (t := t) hs hu (by simp) (fun _ => rfl) rfl
    simp only [scan, hr, if_neg hw, he]
    have hzt : t.readMem (a + 1#16 + BitVec.ofNat 16 ws.length) = 0x0000#16 := by
      rw [next_address]
      exact (turn_readMem_of_undisturbed hu (by simp)).trans hz
    have k := ih (by simpa using hn) hst hzt (by simpa using hut) (ht.accepts ha) (turn_producerOnly t)
    refine ⟨?_, ?_, ?_, k.pos, fun h b => (k.mem ?_ b).trans ?_⟩
    · rw [k.output]; simp [t]
    · rw [k.sinkPlan, ht.sinkAfter]; simp
    · have e := k.engine
      exact ⟨fun i => (e.regs i).trans (reg_congr hp.regs i), e.cond.trans hp.cond, e.pc.trans hp.pc,
        e.running.trans hp.running, e.fault.trans hp.fault, rfl, e.cfg.trans hp.cfg, rfl,
        fun b hb hb' => (e.mem b hb hb').trans (hp.mem b hb hb')⟩
    · show s.turn.sched = []
      rw [turn_of_sched_nil h, h]
    · show s.turn.readMem b = s.readMem b
      rw [turn_of_sched_nil h]

/-- A sink that refuses a character of the words the scan reads: the service has stopped there. -/
theorem scan_of_refusal (chars : Word → List Byte) (hold : Word → Position) {ws : List Word} {n r : Nat} {a : Word}
    {s : State} (hn : ws.length ≤ n) (hs : s.StringAt a ws) (hu : s.Undisturbed a ws.length)
    (hr : s.SinkRefusesAt r) (hlt : r < (ws.flatMap chars).length) :
    StoppedBySink s (scan chars hold n a s) ((ws.flatMap chars).take r) := by
  have hp := turn_producerOnly s
  induction ws generalizing n a s r with
  | nil => simp at hlt
  | cons w ws ih =>
    obtain ⟨n, rfl⟩ : ∃ m, n = m + 1 := ⟨n - 1, by simp at hn; omega⟩
    have hc : AfterChars s s.turn 0 := ⟨hp.cfg, by simp [State.sinkAfter]⟩
    have hca : ∀ m, s.turn.sinkAfter m = s.sinkAfter m := fun m => by simpa using hc.sinkAfter m
    let t : State := { s.turn with
      output := s.turn.output ++ chars w, sinkPlan := s.turn.sinkAfter (chars w).length }
    obtain ⟨hrd, hw, hst, hut⟩ := string_tail (t := t) hs hu (Nat.le_refl _) (fun _ => rfl) rfl
    rw [List.flatMap_cons, List.length_append] at hlt
    by_cases hlw : r < (chars w).length
    · have he := emit_of_refuses (s := s.turn) (cs := chars w) (hc.refusesAt (by simpa using hr)) hlw
      simp only [scan, hrd, if_neg hw, he]
      have hl : ((chars w).take r).length = r := by simp; omega
      rw [List.flatMap_cons, List.take_append_of_le_length (by omega)]
      exact ⟨rfl, by simp, by rw [hl]; exact hca _,
        ⟨reg_congr hp.regs, hp.cond, hp.pc, hp.running, rfl, rfl, hp.cfg, rfl, hp.mem⟩, rfl,
        fun h _ => by rw [turn_of_sched_nil h]; rfl⟩
    · obtain ⟨q, rfl⟩ : ∃ q, r = (chars w).length + q := ⟨r - (chars w).length, by omega⟩
      have ht : AfterChars s t (chars w).length := ⟨hp.cfg, hca _⟩
      have he := emit_of_accepts (s := s.turn) (cs := chars w)
        (hc.accepts (by simpa using SinkRefusesAt.accepts hr (by omega)))
      simp only [scan, hrd, if_neg hw, he]
      have k := ih (by simpa using hn) hst hut (ht.refusesAt hr) (by omega) (turn_producerOnly t)
      have e := k.engine
      refine ⟨k.fault, ?_, ?_, ⟨fun i => (e.regs i).trans (reg_congr hp.regs i), e.cond.trans hp.cond,
        e.pc.trans hp.pc, e.running.trans hp.running, rfl, rfl, e.cfg.trans hp.cfg, rfl,
        fun b hb hb' => (e.mem b hb hb').trans (hp.mem b hb hb')⟩, k.pos, fun h b => (k.mem ?_ b).trans ?_⟩
      · rw [k.output]; simp [t, List.take_append]
      · rw [k.sinkPlan, ht.sinkAfter]
        simp only [List.flatMap_cons, List.length_take, List.length_append]
        congr 1
        omega
      · show s.turn.sched = []
        rw [turn_of_sched_nil h, h]
      · show s.turn.readMem b = s.readMem b
        rw [turn_of_sched_nil h]

/-- Where no word is zero, nothing is scheduled and the sink never refuses, a scan of `n` words emits them all and
stands at the address after them. -/
theorem scan_of_no_zero (chars : Word → List Byte) (hold : Word → Position) (n : Nat) (a : Word) {s : State}
    {text : List Byte} (hs : s.sched = []) (ha : ∀ m, s.SinkAccepts m) (hz : ∀ b, s.readMem b ≠ 0x0000#16)
    (ht : text = ((List.range n).map fun k => s.readMem (a + BitVec.ofNat 16 k)).flatMap chars) :
    scan chars hold n a s = { s with
      output := s.output ++ text, sinkPlan := s.sinkAfter text.length, pos := hold (a + BitVec.ofNat 16 n) } := by
  induction n generalizing a s text with
  | zero => simp [scan, ht, State.sinkAfter]
  | succ n ih =>
    have he := emit_of_accepts (ha (chars (s.readMem a)).length)
    simp only [scan, turn_of_sched_nil hs, if_neg (hz a), he]
    let t : State := { s with
      output := s.output ++ chars (s.readMem a), sinkPlan := s.sinkAfter (chars (s.readMem a)).length }
    have hc : AfterChars s t (chars (s.readMem a)).length := ⟨rfl, rfl⟩
    have hr : ∀ k, s.readMem (a + 1#16 + BitVec.ofNat 16 k) = s.readMem (a + BitVec.ofNat 16 (k + 1)) := fun k => by
      rw [next_address]
    have htext : text = chars (s.readMem a) ++
        ((List.range n).map fun k => s.readMem (a + 1#16 + BitVec.ofNat 16 k)).flatMap chars := by
      rw [ht]
      simp only [hr, List.range_succ_eq_map, List.map_cons, List.map_map, List.flatMap_cons, BitVec.add_zero]
      rfl
    rw [ih (a + 1#16) (s := t) hs (fun m => hc.accepts (ha _)) hz rfl, hc.sinkAfter, htext, next_address]
    rw [← List.append_assoc, List.length_append]
    rfl

end Sys2Proof.Machine
end

