-- ==== Sys2Proof/Laws/PerInstr.lean ====
section
/-! SUPPORT. One family of statements per instruction: TableRow, the word an instruction encodes to lies in its own
row of spec/opcode_table.json (the row's mask and match values, copied from the table). -/

namespace Sys2Proof.Laws

/-- The row's "mask" and "match" in spec/opcode_table.json. -/
def TableRow.maskMatch : Instr → Word × Word
  | .br _ _ => (0xF000#16, 0x0000#16)
  | .addReg _ _ _ _ => (0xF020#16, 0x1000#16)
  | .addImm _ _ _ => (0xF020#16, 0x1020#16)
  | .ld _ _ => (0xF000#16, 0x2000#16)
  | .st _ _ => (0xF000#16, 0x3000#16)
  | .jsrr _ _ _ => (0xF800#16, 0x4000#16)
  | .jsr _ => (0xF800#16, 0x4800#16)
  | .andReg _ _ _ _ => (0xF020#16, 0x5000#16)
  | .andImm _ _ _ => (0xF020#16, 0x5020#16)
  | .ldr _ _ _ => (0xF000#16, 0x6000#16)
  | .str _ _ _ => (0xF000#16, 0x7000#16)
  | .rti _ => (0xF000#16, 0x8000#16)
  | .not _ _ _ => (0xF000#16, 0x9000#16)
  | .ldi _ _ => (0xF000#16, 0xA000#16)
  | .sti _ _ => (0xF000#16, 0xB000#16)
  | .jmp _ _ _ => (0xF000#16, 0xC000#16)
  | .res _ => (0xF000#16, 0xD000#16)
  | .lea _ _ => (0xF000#16, 0xE000#16)
  | .trap _ _ => (0xF000#16, 0xF000#16)
  | .trapGetc _ => (0xF0FF#16, 0xF020#16)
  | .trapOut _ => (0xF0FF#16, 0xF021#16)
  | .trapPuts _ => (0xF0FF#16, 0xF022#16)
  | .trapIn _ => (0xF0FF#16, 0xF023#16)
  | .trapPutsp _ => (0xF0FF#16, 0xF024#16)
  | .trapHalt _ => (0xF0FF#16, 0xF025#16)

/-- The encoded word agrees with the row's match value on the row's mask. -/
def TableRow.Statement (i : Instr) : Prop :=
  encode i &&& (TableRow.maskMatch i).1 = (TableRow.maskMatch i).2

theorem TableRow.br (nzp : BitVec 3) (off : BitVec 9) :
    TableRow.Statement (.br nzp off) := by
  refine BitVec.eq_of_getLsbD_eq fun i hi => ?_
  simp only [encode, TableRow.maskMatch, BitVec.getLsbD_and, BitVec.getLsbD_append]
  interval_cases i <;> simp

theorem TableRow.addReg (dr : BitVec 3) (sr1 : BitVec 3) (ign : BitVec 2) (sr2 : BitVec 3) :
    TableRow.Statement (.addReg dr sr1 ign sr2) := by
  refine BitVec.eq_of_getLsbD_eq fun i hi => ?_
  simp only [encode, TableRow.maskMatch, BitVec.getLsbD_and, BitVec.getLsbD_append]
  interval_cases i <;> simp

theorem TableRow.addImm (dr : BitVec 3) (sr1 : BitVec 3) (imm : BitVec 5) :
    TableRow.Statement (.addImm dr sr1 imm) := by
  refine BitVec.eq_of_getLsbD_eq fun i hi => ?_
  simp only [encode, TableRow.maskMatch, BitVec.getLsbD_and, BitVec.getLsbD_append]
  interval_cases i <;> simp

theorem TableRow.ld (dr : BitVec 3) (off : BitVec 9) :
    TableRow.Statement (.ld dr off) := by
  refine BitVec.eq_of_getLsbD_eq fun i hi => ?_
  simp only [encode, TableRow.maskMatch, BitVec.getLsbD_and, BitVec.getLsbD_append]
  interval_cases i <;> simp

theorem TableRow.st (sr : BitVec 3) (off : BitVec 9) :
    TableRow.Statement (.st sr off) := by
  refine BitVec.eq_of_getLsbD_eq fun i hi => ?_
  simp only [encode, TableRow.maskMatch, BitVec.getLsbD_and, BitVec.getLsbD_append]
  interval_cases i <;> simp

theorem TableRow.jsrr (ignHi : BitVec 2) (base : BitVec 3) (ignLo : BitVec 6) :
    TableRow.Statement (.jsrr ignHi base ignLo) := by
  refine BitVec.eq_of_getLsbD_eq fun i hi => ?_
  simp only [encode, TableRow.maskMatch, BitVec.getLsbD_and, BitVec.getLsbD_append]
  interval_cases i <;> simp

theorem TableRow.jsr (off : BitVec 11) :
    TableRow.Statement (.jsr off) := by
  refine BitVec.eq_of_getLsbD_eq fun i hi => ?_
  simp only [encode, TableRow.maskMatch, BitVec.getLsbD_and, BitVec.getLsbD_append]
  interval_cases i <;> simp

theorem TableRow.andReg (dr : BitVec 3) (sr1 : BitVec 3) (ign : BitVec 2) (sr2 : BitVec 3) :
    TableRow.Statement (.andReg dr sr1 ign sr2) := by
  refine BitVec.eq_of_getLsbD_eq fun i hi => ?_
  simp only [encode, TableRow.maskMatch, BitVec.getLsbD_and, BitVec.getLsbD_append]
  interval_cases i <;> simp

theorem TableRow.andImm (dr : BitVec 3) (sr1 : BitVec 3) (imm : BitVec 5) :
    TableRow.Statement (.andImm dr sr1 imm) := by
  refine BitVec.eq_of_getLsbD_eq fun i hi => ?_
  simp only [encode, TableRow.maskMatch, BitVec.getLsbD_and, BitVec.getLsbD_append]
  interval_cases i <;> simp

theorem TableRow.ldr (dr : BitVec 3) (base : BitVec 3) (off : BitVec 6) :
    TableRow.Statement (.ldr dr base off) := by
  refine BitVec.eq_of_getLsbD_eq fun i hi => ?_
  simp only [encode, TableRow.maskMatch, BitVec.getLsbD_and, BitVec.getLsbD_append]
  interval_cases i <;> simp

theorem TableRow.str (sr : BitVec 3) (base : BitVec 3) (off : BitVec 6) :
    TableRow.Statement (.str sr base off) := by
  refine BitVec.eq_of_getLsbD_eq fun i hi => ?_
  simp only [encode, TableRow.maskMatch, BitVec.getLsbD_and, BitVec.getLsbD_append]
  interval_cases i <;> simp

theorem TableRow.rti (ign : BitVec 12) :
    TableRow.Statement (.rti ign) := by
  refine BitVec.eq_of_getLsbD_eq fun i hi => ?_
  simp only [encode, TableRow.maskMatch, BitVec.getLsbD_and, BitVec.getLsbD_append]
  interval_cases i <;> simp

theorem TableRow.not (dr : BitVec 3) (sr : BitVec 3) (ign : BitVec 6) :
    TableRow.Statement (.not dr sr ign) := by
  refine BitVec.eq_of_getLsbD_eq fun i hi => ?_
  simp only [encode, TableRow.maskMatch, BitVec.getLsbD_and, BitVec.getLsbD_append]
  interval_cases i <;> simp

theorem TableRow.ldi (dr : BitVec 3) (off : BitVec 9) :
    TableRow.Statement (.ldi dr off) := by
  refine BitVec.eq_of_getLsbD_eq fun i hi => ?_
  simp only [encode, TableRow.maskMatch, BitVec.getLsbD_and, BitVec.getLsbD_append]
  interval_cases i <;> simp

theorem TableRow.sti (sr : BitVec 3) (off : BitVec 9) :
    TableRow.Statement (.sti sr off) := by
  refine BitVec.eq_of_getLsbD_eq fun i hi => ?_
  simp only [encode, TableRow.maskMatch, BitVec.getLsbD_and, BitVec.getLsbD_append]
  interval_cases i <;> simp

theorem TableRow.jmp (ignHi : BitVec 3) (base : BitVec 3) (ignLo : BitVec 6) :
    TableRow.Statement (.jmp ignHi base ignLo) := by
  refine BitVec.eq_of_getLsbD_eq fun i hi => ?_
  simp only [encode, TableRow.maskMatch, BitVec.getLsbD_and, BitVec.getLsbD_append]
  interval_cases i <;> simp

theorem TableRow.res (ign : BitVec 12) :
    TableRow.Statement (.res ign) := by
  refine BitVec.eq_of_getLsbD_eq fun i hi => ?_
  simp only [encode, TableRow.maskMatch, BitVec.getLsbD_and, BitVec.getLsbD_append]
  interval_cases i <;> simp

theorem TableRow.lea (dr : BitVec 3) (off : BitVec 9) :
    TableRow.Statement (.lea dr off) := by
  refine BitVec.eq_of_getLsbD_eq fun i hi => ?_
  simp only [encode, TableRow.maskMatch, BitVec.getLsbD_and, BitVec.getLsbD_append]
  interval_cases i <;> simp

theorem TableRow.trap (ign : BitVec 4) (vect : BitVec 8) :
    TableRow.Statement (.trap ign vect) := by
  refine BitVec.eq_of_getLsbD_eq fun i hi => ?_
  simp only [encode, TableRow.maskMatch, BitVec.getLsbD_and, BitVec.getLsbD_append]
  interval_cases i <;> simp

theorem TableRow.trapGetc (ign : BitVec 4) :
    TableRow.Statement (.trapGetc ign) := by
  refine BitVec.eq_of_getLsbD_eq fun i hi => ?_
  simp only [encode, TableRow.maskMatch, BitVec.getLsbD_and, BitVec.getLsbD_append]
  interval_cases i <;> simp

theorem TableRow.trapOut (ign : BitVec 4) :
    TableRow.Statement (.trapOut ign) := by
  refine BitVec.eq_of_getLsbD_eq fun i hi => ?_
  simp only [encode, TableRow.maskMatch, BitVec.getLsbD_and, BitVec.getLsbD_append]
  interval_cases i <;> simp

theorem TableRow.trapPuts (ign : BitVec 4) :
    TableRow.Statement (.trapPuts ign) := by
  refine BitVec.eq_of_getLsbD_eq fun i hi => ?_
  simp only [encode, TableRow.maskMatch, BitVec.getLsbD_and, BitVec.getLsbD_append]
  interval_cases i <;> simp

theorem TableRow.trapIn (ign : BitVec 4) :
    TableRow.Statement (.trapIn ign) := by
  refine BitVec.eq_of_getLsbD_eq fun i hi => ?_
  simp only [encode, TableRow.maskMatch, BitVec.getLsbD_and, BitVec.getLsbD_append]
  interval_cases i <;> simp

theorem TableRow.trapPutsp (ign : BitVec 4) :
    TableRow.Statement (.trapPutsp ign) := by
  refine BitVec.eq_of_getLsbD_eq fun i hi => ?_
  simp only [encode, TableRow.maskMatch, BitVec.getLsbD_and, BitVec.getLsbD_append]
  interval_cases i <;> simp

theorem TableRow.trapHalt (ign : BitVec 4) :
    TableRow.Statement (.trapHalt ign) := by
  refine BitVec.eq_of_getLsbD_eq fun i hi => ?_
  simp only [encode, TableRow.maskMatch, BitVec.getLsbD_and, BitVec.getLsbD_append]
  interval_cases i <;> simp

end Sys2Proof.Laws
end

