-- ==== Sys2Proof/Laws/Step.lean ====
section
/-! SUPPORT. What a step can do: the cases of the machine's step, with their guards, and what a held input trap can
do, each said once. -/

namespace Sys2Proof.Machine

/-! ### The step's cases -/

theorem State.fetching_iff (s : State) : s.Fetching ↔ s.GoesOnAt .fetch := Iff.rfl

/-- An enabled engine that has the next event steps from where it stands. -/
theorem step_of_goesOnAt {s : State} {p : Position} (h : s.GoesOnAt p) : step s = engineStep s := by
  obtain ⟨he, -, hs⟩ := h
  unfold step machineStep
  split
  · rename_i h
    simp [h] at hs
  · rw [if_pos he]

theorem step_of_fetching {s : State} (h : s.Fetching) : step s = exec (decode (s.readMem s.pc)) s.fetched := by
  rw [step_of_goesOnAt (p := .fetch) h, engineStep, h.2.1]
  rfl

theorem step_of_getcWait {s : State} (h : s.GoesOnAt .getcWait) : step s = .next (waitStep serviceGetc s) := by
  rw [step_of_goesOnAt h, engineStep, h.2.1]

theorem step_of_inWait {s : State} (h : s.GoesOnAt .inWait) : step s = .next (waitStep serviceInAfterPrompt s) := by
  rw [step_of_goesOnAt h, engineStep, h.2.1]

theorem step_of_puts {s : State} {a : Word} (h : s.GoesOnAt (.puts a)) : step s = .next (servicePuts a s) := by
  rw [step_of_goesOnAt h, engineStep, h.2.1]

theorem step_of_putsp {s : State} {a : Word} (h : s.GoesOnAt (.putsp a)) : step s = .next (servicePutsp a s) := by
  rw [step_of_goesOnAt h, engineStep, h.2.1]

/-- Everything a step that answers a next state can be: a fetch, a producer event, or a service gone on with. -/
theorem step_cases {s t : State} (h : step s = .next t) :
    (s.Fetching ∧ exec (decode (s.readMem s.pc)) s.fetched = .next t) ∨
    ((s.sched.head? = some .producer ∨ s.engineEnabled = false ∧ s.producerEnabled = true) ∧
      t = producerEvent s.takeEntry) ∨
    (s.GoesOnAt .getcWait ∧ t = waitStep serviceGetc s) ∨
    (s.GoesOnAt .inWait ∧ t = waitStep serviceInAfterPrompt s) ∨
    (∃ a, s.GoesOnAt (.puts a) ∧ t = servicePuts a s) ∨
    (∃ a, s.GoesOnAt (.putsp a) ∧ t = servicePutsp a s) := by
  by_cases hs : s.sched.head? = some .producer
  · obtain ⟨rest, hr⟩ := List.head?_eq_some_iff.mp hs
    refine .inr (.inl ⟨.inl hs, ?_⟩)
    simp only [step, machineStep, hr, Host.Outcome.next.injEq] at h
    simp [← h, State.takeEntry, hr]
  · cases he : s.engineEnabled
    · unfold step machineStep at h
      split at h
      · rename_i hr
        simp [hr] at hs
      · rw [if_neg (by simp [he]), stoppedStep] at h
        split at h
        · rename_i hp
          exact .inr (.inl ⟨.inr ⟨rfl, hp⟩, (Host.Outcome.next.inj h).symm⟩)
        · simp at h
    · cases hp : s.pos with
      | fetch => exact .inl ⟨⟨he, hp, hs⟩, (step_of_fetching ⟨he, hp, hs⟩).symm.trans h⟩
      | getcWait =>
        rw [step_of_getcWait ⟨he, hp, hs⟩, Host.Outcome.next.injEq] at h
        exact .inr (.inr (.inl ⟨⟨he, hp, hs⟩, h.symm⟩))
      | inWait =>
        rw [step_of_inWait ⟨he, hp, hs⟩, Host.Outcome.next.injEq] at h
        exact .inr (.inr (.inr (.inl ⟨⟨he, hp, hs⟩, h.symm⟩)))
      | puts a =>
        rw [step_of_puts ⟨he, hp, hs⟩, Host.Outcome.next.injEq] at h
        exact .inr (.inr (.inr (.inr (.inl ⟨a, ⟨he, hp, hs⟩, h.symm⟩))))
      | putsp a =>
        rw [step_of_putsp ⟨he, hp, hs⟩, Host.Outcome.next.injEq] at h
        exact .inr (.inr (.inr (.inr (.inr ⟨a, ⟨he, hp, hs⟩, h.symm⟩))))

/-! ### A held input trap -/

/-- With an entry of the schedule left the engine polls. -/
theorem waitStep_of_entry (service : State → State) {s : State} {a : Agent} {rest : List Agent}
    (h : s.sched = a :: rest) : waitStep service s = service s := by
  simp [waitStep, h]

/-- A poll that observes READY is the engine's. -/
theorem waitStep_of_ready (service : State → State) {s : State} (h : s.turn.ready = true) :
    waitStep service s = service s := by
  cases hs : s.sched with
  | nil =>
    rw [turn_of_sched_nil hs] at h
    simp [waitStep, h]
  | cons a rest => exact waitStep_of_entry service hs

/-- Everything a step of a held engine can be: the producer's event, with the schedule used up and READY clear, or the
engine's poll. -/
theorem waitStep_cases (service : State → State) (s : State) :
    (s.sched = [] ∧ s.ready = false ∧ s.producerEnabled = true ∧ waitStep service s = producerEvent s) ∨
    waitStep service s = service s := by
  unfold waitStep
  split
  · rename_i h
    simp only [Bool.and_eq_true, List.isEmpty_iff, Bool.not_eq_true'] at h
    exact .inl ⟨h.1.1, h.1.2, h.2, rfl⟩
  · exact .inr rfl

/-- A completed consume sequence recomputes `cond` from `x[0]` under the parameter, and only then. -/
theorem consume_cond (hold : Position) (s : State) :
    (consume hold s).1.cond = s.cond ∨
      s.cfg.trapInputSetsCC = true ∧ (consume hold s).1.cond = condOf ((consume hold s).1.reg 0#3) := by
  by_cases h : s.turn.ready = true
  · rw [consume_of_ready h]
    by_cases hc : s.cfg.trapInputSetsCC = true
    · refine .inr ⟨hc, ?_⟩
      simp only [hc, if_true]
      show condOf _ = condOf _
      congr 1
      exact (reg_setReg_self _ _ _).symm
    · left
      simp [hc]
  · left
    rw [consume_of_not_ready (by simpa using h)]
    simp

/-- The frame of a poll of GETC or IN, with what follows it. -/
structure InputFrame (s t : State) : Prop where
  pc : t.pc = s.pc
  running : t.running = s.running
  cfg : t.cfg = s.cfg
  regs : ∀ i, i ≠ 0#3 → t.reg i = s.reg i
  cond : t.cond = s.cond ∨ s.cfg.trapInputSetsCC = true ∧ t.cond = condOf (t.reg 0#3)
  mem : ∀ a, a ≠ Config.kbsr → a ≠ Config.kbdr → t.readMem a = s.readMem a
  wf : Memory.wf s.mem → Memory.wf t.mem

theorem consume_inputFrame (hold : Position) (s : State) : InputFrame s (consume hold s).1 :=
  have f := consume_frame hold s
  ⟨f.pc, f.running, f.cfg, f.regs, consume_cond hold s, f.mem, f.wf⟩

/-- Everything GETC's poll and completion leave as they were, the output and the sink among it. -/
theorem serviceGetc_frame (s : State) :
    InputFrame s (serviceGetc s) ∧ (serviceGetc s).output = s.output ∧ (serviceGetc s).fault = s.fault ∧
      (serviceGetc s).sinkPlan = s.sinkPlan := by
  have i := consume_inputFrame .getcWait s
  have f := consume_frame .getcWait s
  unfold serviceGetc
  split <;> rename_i h <;> rw [h] at i f
  · exact ⟨⟨i.pc, i.running, i.cfg, i.regs, i.cond, i.mem, i.wf⟩, f.output, f.fault, f.sinkPlan⟩
  · exact ⟨i, f.output, f.fault, f.sinkPlan⟩

/-- Everything IN's poll, completion and echo leave as they were. -/
theorem serviceInAfterPrompt_frame (s : State) : InputFrame s (serviceInAfterPrompt s) := by
  have i := consume_inputFrame .inWait s
  unfold serviceInAfterPrompt
  split <;> rename_i t h <;> rw [h] at i
  · have e := emit_frame [lowByte (t.reg 0#3)] { t with pos := .fetch }
    have r := fun k => reg_congr e.regs k
    refine ⟨e.pc.trans i.pc, e.running.trans i.running, e.cfg.trans i.cfg, fun k hk => (r k).trans (i.regs k hk), ?_,
      fun a h1 h2 => ?_, fun hw => ?_⟩
    · rw [e.cond, r]
      exact i.cond
    · simp only [State.readMem, e.mem]
      exact i.mem a h1 h2
    · rw [e.mem]
      exact i.wf hw
  · exact i

/-- A producer event is within the frame of a held input trap. -/
theorem ProducerOnly.inputFrame {s t : State} (h : ProducerOnly s t) : InputFrame s t :=
  ⟨h.pc, h.running, h.cfg, fun i _ => reg_congr h.regs i, .inl h.cond, h.mem, h.wf⟩

/-- Everything a step of a held engine leaves as it was. -/
theorem waitStep_frame {service : State → State} (hs : ∀ s, InputFrame s (service s)) (s : State) :
    InputFrame s (waitStep service s) := by
  obtain ⟨-, -, -, h⟩ | h := waitStep_cases service s <;> rw [h]
  · exact (producerEvent_producerOnly s).inputFrame
  · exact hs s

end Sys2Proof.Machine
end

