-- ==== Sys2Proof/Tests/Slice0.lean ====
section
/-! SUPPORT. The model's own tests. Decoding: a word of every constructor, written out bit by bit from
30_encoding.md R53. Steps: vectors of 95_test_vectors.md, computed there by hand from the rules. Witnesses: for every
statement with hypotheses, a state and operands that meet them. -/

namespace Sys2Proof.Tests

open Sys2Proof.Machine

/-! ### Decoding -/

/-- BRnz -3 (R63). -/
theorem test_decode_br : decode 0b0000_110_111111101#16 = .br 0b110#3 0x1FD#9 ∧
    encode (.br 0b110#3 0x1FD#9) = 0b0000_110_111111101#16 := by decide

/-- ADD R2, R0, R1 (R90). -/
theorem test_decode_addReg : decode 0b0001_010_000_0_00_001#16 = .addReg 2#3 0#3 0#2 1#3 ∧
    encode (.addReg 2#3 0#3 0#2 1#3) = 0b0001_010_000_0_00_001#16 := by decide

/-- ADD R0, R1, R0 with ir[4:3] = 11 (TA8). -/
theorem test_decode_addReg_ignored : decode 0b0001_000_001_0_11_000#16 = .addReg 0#3 1#3 3#2 0#3 ∧
    encode (.addReg 0#3 1#3 3#2 0#3) = 0b0001_000_001_0_11_000#16 := by decide

/-- ADD R5, R3, #7 (R63). -/
theorem test_decode_addImm : decode 0b0001_101_011_1_00111#16 = .addImm 5#3 3#3 7#5 ∧
    encode (.addImm 5#3 3#3 7#5) = 0b0001_101_011_1_00111#16 := by decide

/-- LD R2, +4 (R100). -/
theorem test_decode_ld : decode 0b0010_010_000000100#16 = .ld 2#3 4#9 ∧
    encode (.ld 2#3 4#9) = 0b0010_010_000000100#16 := by decide

/-- ST R0, +1 (R104). -/
theorem test_decode_st : decode 0b0011_000_000000001#16 = .st 0#3 1#9 ∧
    encode (.st 0#3 1#9) = 0b0011_000_000000001#16 := by decide

/-- JSRR R3 with the ignored bits set (TK9). -/
theorem test_decode_jsrr : decode 0b0100_0_11_011_111111#16 = .jsrr 3#2 3#3 0x3F#6 ∧
    encode (.jsrr 3#2 3#3 0x3F#6) = 0b0100_0_11_011_111111#16 := by decide

/-- JSR +0x2C0 (R63). -/
theorem test_decode_jsr : decode 0b0100_1_01011000000#16 = .jsr 0x2C0#11 ∧
    encode (.jsr 0x2C0#11) = 0b0100_1_01011000000#16 := by decide

/-- AND R3, R1, R2 (R92). -/
theorem test_decode_andReg : decode 0b0101_011_001_0_00_010#16 = .andReg 3#3 1#3 0#2 2#3 ∧
    encode (.andReg 3#3 1#3 0#2 2#3) = 0b0101_011_001_0_00_010#16 := by decide

/-- AND R1, R1, #-1 (R93). -/
theorem test_decode_andImm : decode 0b0101_001_001_1_11111#16 = .andImm 1#3 1#3 0x1F#5 ∧
    encode (.andImm 1#3 1#3 0x1F#5) = 0b0101_001_001_1_11111#16 := by decide

/-- LDR R4, R6, #-1 (R63). -/
theorem test_decode_ldr : decode 0b0110_100_110_111111#16 = .ldr 4#3 6#3 0x3F#6 ∧
    encode (.ldr 4#3 6#3 0x3F#6) = 0b0110_100_110_111111#16 := by decide

/-- STR R3, R2, #2 (R106). -/
theorem test_decode_str : decode 0b0111_011_010_000010#16 = .str 3#3 2#3 2#6 ∧
    encode (.str 3#3 2#3 2#6) = 0b0111_011_010_000010#16 := by decide

/-- RTI 0x8FFF (TX3). -/
theorem test_decode_rti : decode 0b1000_111111111111#16 = .rti 0xFFF#12 ∧
    encode (.rti 0xFFF#12) = 0b1000_111111111111#16 := by decide

/-- NOT R1, R2 (R63). -/
theorem test_decode_not : decode 0b1001_001_010_111111#16 = .not 1#3 2#3 0x3F#6 ∧
    encode (.not 1#3 2#3 0x3F#6) = 0b1001_001_010_111111#16 := by decide

/-- LDI R1, +8 (R101). -/
theorem test_decode_ldi : decode 0b1010_001_000001000#16 = .ldi 1#3 8#9 ∧
    encode (.ldi 1#3 8#9) = 0b1010_001_000001000#16 := by decide

/-- STI R2, -1 (R63). -/
theorem test_decode_sti : decode 0b1011_010_111111111#16 = .sti 2#3 0x1FF#9 ∧
    encode (.sti 2#3 0x1FF#9) = 0b1011_010_111111111#16 := by decide

/-- JMP R3 with the ignored bits set (TJ4). -/
theorem test_decode_jmp : decode 0b1100_111_011_111111#16 = .jmp 7#3 3#3 0x3F#6 ∧
    encode (.jmp 7#3 3#3 0x3F#6) = 0b1100_111_011_111111#16 := by decide

/-- RES 0xD123 (R125). -/
theorem test_decode_res : decode 0b1101_000100100011#16 = .res 0x123#12 ∧
    encode (.res 0x123#12) = 0b1101_000100100011#16 := by decide

/-- LEA R0, +2 (R63). -/
theorem test_decode_lea : decode 0b1110_000_000000010#16 = .lea 0#3 2#9 ∧
    encode (.lea 0#3 2#9) = 0b1110_000_000000010#16 := by decide

/-- TRAP with the undefined vector 0x26 (TU2). -/
theorem test_decode_trap : decode 0b1111_0000_00100110#16 = .trap 0#4 0x26#8 ∧
    encode (.trap 0#4 0x26#8) = 0b1111_0000_00100110#16 := by decide

/-- TRAP with the undefined vector 0x1F (R58). -/
theorem test_decode_trap_below : decode 0b1111_0000_00011111#16 = .trap 0#4 0x1F#8 ∧
    encode (.trap 0#4 0x1F#8) = 0b1111_0000_00011111#16 := by decide

/-- GETC (R62). -/
theorem test_decode_trapGetc : decode 0b1111_0000_00100000#16 = .trapGetc 0#4 ∧
    encode (.trapGetc 0#4) = 0b1111_0000_00100000#16 := by decide

/-- OUT with ir[11:8] = 0001 (TO3). -/
theorem test_decode_trapOut : decode 0b1111_0001_00100001#16 = .trapOut 1#4 ∧
    encode (.trapOut 1#4) = 0b1111_0001_00100001#16 := by decide

/-- PUTS (R62). -/
theorem test_decode_trapPuts : decode 0b1111_0000_00100010#16 = .trapPuts 0#4 ∧
    encode (.trapPuts 0#4) = 0b1111_0000_00100010#16 := by decide

/-- IN (R62). -/
theorem test_decode_trapIn : decode 0b1111_0000_00100011#16 = .trapIn 0#4 ∧
    encode (.trapIn 0#4) = 0b1111_0000_00100011#16 := by decide

/-- PUTSP (R62). -/
theorem test_decode_trapPutsp : decode 0b1111_0000_00100100#16 = .trapPutsp 0#4 ∧
    encode (.trapPutsp 0#4) = 0b1111_0000_00100100#16 := by decide

/-- HALT with ir[11:8] = 1111 (TH2). -/
theorem test_decode_trapHalt : decode 0b1111_1111_00100101#16 = .trapHalt 15#4 ∧
    encode (.trapHalt 15#4) = 0b1111_1111_00100101#16 := by decide

theorem test_decodeTableWord : decodeTableWord 16 0xF025 = some (.trapHalt 0#4) := by decide

/-! ### Well-formedness: a TRAP with a defined vector is written with its own constructor (30_encoding.md R58) -/

theorem test_wf_refuses_trap_with_a_defined_vector :
    (Instr.trap 0#4 0x20#8).wf = false ∧ (Instr.trap 0#4 0x21#8).wf = false ∧ (Instr.trap 0#4 0x22#8).wf = false ∧
    (Instr.trap 0#4 0x23#8).wf = false ∧ (Instr.trap 0#4 0x24#8).wf = false ∧
    (Instr.trap 15#4 0x25#8).wf = false := by decide

theorem test_wf_accepts_the_neighbouring_vectors :
    (Instr.trap 0#4 0x1F#8).wf = true ∧ (Instr.trap 0#4 0x26#8).wf = true := by decide

/-! ### One step on a small state -/

/-- Reset with some registers and some words set, `cond` given. -/
def small (regs : List (RegIdx × Word)) (mem : List (Word × Word)) (c : Cond) : State :=
  mem.foldl (fun s p => s.writeMem p.1 p.2)
    (regs.foldl (fun s p => s.setReg p.1 p.2) { State.reset with cond := c })

/-- The next state, if there is one. -/
def nextOf : Host.Outcome State Fault Refusal → Option State
  | .next t => some t
  | .fault _ => none
  | .refused _ => none

/-- The state after one step from `s` with the word `w` at `pc`. -/
def after (s : State) (w : Nat) : Option State := nextOf (step (s.withFetchWord 16 w))

/-- TA1: signed overflow is not signalled. -/
theorem test_add_overflow_wraps :
    (after (small [(1, 0x7FFF), (2, 0x0001)] [] .Z) 0x1042).map (fun t => (t.reg 0, t.cond, t.pc)) =
      some (0x8000#16, .N, 0x3001#16) := by decide

/-- TA7: all three fields the same register. -/
theorem test_add_same_register :
    (after (small [(1, 0x4000)] [] .Z) 0x1241).map (fun t => (t.reg 1, t.cond)) = some (0x8000#16, .N) := by decide

/-- W5: the source's ADD example. -/
theorem test_addImm_source_example :
    (after (small [(0, 1), (1, 0x1234), (3, 0x3456)] [] .Z) 0x1AE7).map (fun t => (t.reg 5, t.cond)) =
      some (0x345D#16, .P) := by decide

/-- TA5. -/
theorem test_addImm_most_negative :
    (after (small [(1, 0x0010)] [] .N) 0x1270).map (fun t => (t.reg 1, t.cond)) = some (0x0000#16, .Z) := by decide

/-- R92. -/
theorem test_andReg :
    (after (small [(1, 0xF0F0), (2, 0x8FF1)] [] .Z) 0x5642).map (fun t => (t.reg 3, t.cond)) =
      some (0x80F0#16, .N) := by decide

/-- TA12: the mask is 0xFFF0. -/
theorem test_andImm_sign_extends :
    (after (small [(1, 0x8001)] [] .Z) 0x5270).map (fun t => (t.reg 1, t.cond)) = some (0x8000#16, .N) := by decide

/-- TA15. -/
theorem test_not_destination_only :
    (after (small [(1, 0x7FFF)] [] .Z) 0x947F).map (fun t => (t.reg 2, t.reg 1, t.cond)) =
      some (0x8000#16, 0x7FFF#16, .N) := by decide

/-- TL2. -/
theorem test_ld_reads_itself :
    (after (small [] [] .Z) 0x23FF).map (fun t => (t.reg 1, t.cond, t.pc)) = some (0x23FF#16, .P, 0x3001#16) := by decide

/-- TL4: at FF80, offset +255. -/
theorem test_ld_wraps :
    (after { small [] [(0x0080, 0x1234)] .Z with pc := 0xFF80#16 } 0x20FF).map (fun t => (t.reg 0, t.pc)) =
      some (0x1234#16, 0xFF81#16) := by decide

/-- TL7. -/
theorem test_ldi_of_kbdr_keeps_ready :
    (after (small [] [(0x3002, 0xFE02), (0xFE02, 0x0041), (0xFE00, 0x8000)] .Z) 0xA201).map
        (fun t => (t.reg 1, t.cond, t.readMem 0xFE00)) = some (0x0041#16, .P, 0x8000#16) := by decide

/-- TL11. -/
theorem test_ldr_base_is_destination :
    (after (small [(1, 0x4000)] [(0x4000, 0x4001)] .Z) 0x6240).map (fun t => (t.reg 1, t.cond)) =
      some (0x4001#16, .P) := by decide

/-- TL9. -/
theorem test_ldr_wraps :
    (after (small [] [(0xFFFF, 0x8000)] .Z) 0x667F).map (fun t => (t.reg 3, t.cond)) = some (0x8000#16, .N) := by decide

/-- TL14: at 7F00. -/
theorem test_lea_sets_cond :
    (after { small [] [] .Z with pc := 0x7F00#16 } 0xE0FF).map (fun t => (t.reg 0, t.cond, t.pc)) =
      some (0x8000#16, .N, 0x7F01#16) := by decide

/-- TL13: at FFFF. -/
theorem test_lea_wraps :
    (after { small [] [] .P with pc := 0xFFFF#16 } 0xE000).map (fun t => (t.reg 0, t.cond, t.pc)) =
      some (0x0000#16, .Z, 0x0000#16) := by decide

/-- TS1. -/
theorem test_st_leaves_cond :
    (after (small [(1, 0xCAFE)] [] .Z) 0x3202).map (fun t => (t.readMem 0x3003, t.cond)) =
      some (0xCAFE#16, .Z) := by decide

/-- TS5. -/
theorem test_sti_pointer_at_itself :
    (after (small [(1, 0x7777)] [(0x3001, 0x3001)] .Z) 0xB200).map (fun t => t.readMem 0x3001) =
      some 0x7777#16 := by decide

/-- TS6. -/
theorem test_sti_to_kbsr :
    (after (small [(1, 0x8000)] [(0x3002, 0xFE00)] .Z) 0xB201).map (fun t => (t.readMem 0xFE00, t.pc)) =
      some (0x8000#16, 0x3001#16) := by decide

/-- TS8. -/
theorem test_str_wraps :
    (after (small [(7, 0xABCD)] [] .Z) 0x7E7F).map (fun t => t.readMem 0xFFFF) = some 0xABCD#16 := by decide

/-- TB5: BRnp with Z. -/
theorem test_br_not_taken :
    (after (small [] [] .Z) 0x0A05).map (fun t => t.pc) = some 0x3001#16 := by decide

/-- TB9: BRnzp +255 at FFFF with P. -/
theorem test_br_taken_wraps :
    (after { small [] [] .P with pc := 0xFFFF#16 } 0x0EFF).map (fun t => (t.pc, t.cond)) =
      some (0x00FF#16, .P) := by decide

/-- TJ4. -/
theorem test_jmp_ignored_bits :
    (after (small [(3, 0x0007), (7, 0x9999)] [] .Z) 0xCEFF).map (fun t => (t.pc, t.reg 7)) =
      some (0x0007#16, 0x9999#16) := by decide

/-- W6, TK1: at 2FFF. -/
theorem test_jsr_source_example :
    (after { small [] [] .Z with pc := 0x2FFF#16 } 0x4AC0).map (fun t => (t.reg 7, t.pc)) =
      some (0x3000#16, 0x32C0#16) := by decide

/-- TK4. -/
theorem test_jsr_backward :
    (after (small [] [] .N) 0x4C00).map (fun t => (t.reg 7, t.pc, t.cond)) = some (0x3001#16, 0x2C01#16, .N) := by decide

/-- TK7. -/
theorem test_jsrr :
    (after (small [(3, 0x5000)] [] .Z) 0x40C0).map (fun t => (t.reg 7, t.pc)) = some (0x3001#16, 0x5000#16) := by decide

/-- TK8: link first, so it falls through. -/
theorem test_jsrr_through_r7 :
    (after (small [(7, 0x4000)] [] .Z) 0x41C0).map (fun t => (t.reg 7, t.pc)) = some (0x3001#16, 0x3001#16) := by decide

/-- TX3: at FFFF. -/
theorem test_rti_faults :
    (after { small [(1, 7)] [] .P with pc := 0xFFFF#16 } 0x8FFF).map
        (fun t => (t.fault, t.pc, t.reg 1, t.running)) =
      some (some (.decodeError 8#4 0x8FFF#16 0xFFFF#16), 0x0000#16, 7#16, true) := by decide

/-- TX2, R161: no step afterwards. -/
theorem test_res_faults_and_stops :
    (after (small [] [] .Z) 0xD123).map (fun t => (t.fault, t.pc, (nextOf (step t)).isNone)) =
      some (some (.decodeError 13#4 0xD123#16 0x3000#16), 0x3001#16, true) := by decide

/-- TG3. -/
theorem test_getc_clears_bit_15_only :
    (after (small [] [(0xFE00, 0x8123), (0xFE02, 0xFF41)] .Z) 0xF020).map
        (fun t => (t.reg 0, t.cond, t.readMem 0xFE00, t.readMem 0xFE02, t.pos)) =
      some (0xFF41#16, .N, 0x0123#16, 0xFF41#16, .fetch) := by decide

/-- TG5: input empty, READY clear. -/
theorem test_getc_holds :
    (after (small [] [] .Z) 0xF020).map (fun t => (t.pos, t.pc, nextOf (step t) == some t)) =
      some (.getcWait, 0x3001#16, true) := by decide

/-- TO1. -/
theorem test_out_low_byte :
    (after (small [(0, 0x1241)] [] .Z) 0xF021).map (fun t => (t.output, t.pc)) = some ([0x41#8], 0x3001#16) := by decide

/-- R163: under SINK_MAY_FAIL. -/
theorem test_out_refused :
    (after { small [(0, 0x41)] [] .Z with cfg := { defaultConfig with sinkMayFail := true }, sinkPlan := [true] }
        0xF021).map (fun t => (t.output, t.fault)) = some ([], some .ioError) := by decide

/-- TP3. -/
theorem test_puts_word_above_a_byte :
    (after (small [(0, 0x4000)] [(0x4000, 0x4100), (0x4001, 0x0141)] .Z) 0xF022).map (fun t => t.output) =
      some [0x00#8, 0x41#8] := by decide

/-- TP4. -/
theorem test_puts_wraps :
    (after (small [(0, 0xFFFF)] [(0xFFFF, 0x0041), (0x0000, 0x0042)] .Z) 0xF022).map
        (fun t => (t.output, t.reg 0, t.pos)) = some ([0x41#8, 0x42#8], 0xFFFF#16, .fetch) := by decide

/-- TQ1. -/
theorem test_putsp_packed :
    (after (small [(0, 0x4000)] [(0x4000, 0x4948), (0x4001, 0x0021)] .Z) 0xF024).map (fun t => t.output) =
      some [0x48#8, 0x49#8, 0x21#8] := by decide

/-- TQ2. -/
theorem test_putsp_zero_low_byte :
    (after (small [(0, 0x4000)] [(0x4000, 0x4100)] .Z) 0xF024).map (fun t => t.output) =
      some [0x00#8, 0x41#8] := by decide

/-- TI1. -/
theorem test_in_prompts_and_echoes :
    (after (small [] [(0xFE00, 0x8000), (0xFE02, 0x0079)] .Z) 0xF023).map
        (fun t => (t.output, t.reg 0, t.cond, t.readMem 0xFE00)) =
      some ([0x45#8, 0x6E#8, 0x74#8, 0x65#8, 0x72#8, 0x20#8, 0x61#8, 0x20#8, 0x63#8, 0x68#8, 0x61#8, 0x72#8,
        0x61#8, 0x63#8, 0x74#8, 0x65#8, 0x72#8, 0x3A#8, 0x20#8, 0x79#8], 0x0079#16, .P, 0x0000#16) := by decide

/-- TI2. -/
theorem test_in_holds_after_its_prompt :
    (after (small [] [] .Z) 0xF023).map (fun t => (t.output.length, t.pos, t.reg 0)) =
      some (19, .inWait, 0#16) := by decide

/-- TH1. -/
theorem test_halt :
    (after (small [(3, 5)] [] .N) 0xF025).map (fun t => (t.running, t.reg 3, t.cond, t.pc, t.output)) =
      some (false, 5#16, .N, 0x3001#16, []) := by decide

/-- TU2. -/
theorem test_undefined_vector_noop :
    (after (small [(0, 7), (7, 9)] [] .P) 0xF026).map (fun t => (t.fault, t.pc, t.reg 0, t.reg 7, t.cond)) =
      some (none, 0x3001#16, 7#16, 9#16, .P) := by decide

/-- TU3. -/
theorem test_undefined_vector_fault :
    (after { small [] [] .Z with cfg := { defaultConfig with undefinedTrap := .fault } } 0xF0FF).map
        (fun t => (t.fault, t.pc)) =
      some (some (.undefinedTrap 0xFF#8 0xF0FF#16 0x3000#16), 0x3001#16) := by decide

/-- R101, R36: a producer event between the two reads of LDI, the pointer being KBDR itself. -/
theorem test_ldi_interleaves_with_the_producer :
    (after { small [] [(0xFE02, 0x0010), (0x0010, 7)] .Z with
        pc := 0xFE01#16, input := .finite [0x20#8], sched := [.engine, .engine, .producer, .engine] } 0xA200).map
        (fun t => (t.reg 1, t.readMem 0xFE02)) = some (7#16, 0x0020#16) := by decide

/-- TR4 after E3: S2 still to come. -/
theorem test_handshake_TR4 :
    (after { small [] [(0xFE00, 0x8000), (0xFE02, 0x0061)] .Z with input := .finite [0x62#8], sched := [.engine, .engine, .producer, .engine, .engine] }
        0xF020).map (fun t => (t.reg 0, t.readMem 0xFE00, t.readMem 0xFE02, t.readyDue)) =
      some (0x0062#16, 0x0000#16, 0x0062#16, true) := by decide

/-- TR7. -/
theorem test_handshake_TR7 :
    (after { small [] [(0xFE00, 0x8000), (0xFE02, 0x0061)] .Z with input := .finite [0x62#8], sched := [.engine, .engine, .engine, .producer, .producer, .engine] }
        0xF020).map (fun t => (t.reg 0, t.readMem 0xFE00, t.readMem 0xFE02, t.readyDue)) =
      some (0x0061#16, 0x0000#16, 0x0062#16, false) := by decide

/-! ### Boot (95_test_vectors.md section 2.8) -/

/-- The state a load answers, if it is accepted. -/
def loaded (image : List Byte) : Option State := (load image State.reset).toOption

/-- TD1, TD10: big-endian. -/
theorem test_load_big_endian :
    (loaded [0x30#8, 0x00#8, 0xF0#8, 0x25#8]).map (fun t => (t.readMem 0x3000, t.pc)) =
      some (0xF025#16, 0x3000#16) ∧
    (loaded [0x30#8, 0x00#8, 0x25#8, 0xF0#8]).map (fun t => t.readMem 0x3000) = some 0x25F0#16 := by decide

/-- TD2, TD5: origin only; the last address. -/
theorem test_load_edges_accepted :
    loaded [0x30#8, 0x00#8] = some State.reset ∧
    (loaded [0xFF#8, 0xFF#8, 0x12#8, 0x34#8]).map (fun t => t.readMem 0xFFFF) = some 0x1234#16 := by decide

/-- TD3, TD4, TD6, TD7. -/
theorem test_load_malformed_rejected :
    loaded [0x30#8] = none ∧ loaded [] = none ∧
    loaded [0xFF#8, 0xFF#8, 0x12#8, 0x34#8, 0x56#8, 0x78#8] = none ∧ loaded [0x30#8, 0x00#8, 0xF0#8] = none := by
  decide


/-! ### Witnesses: for every statement with hypotheses, a state and operands that meet them all -/

/-- The default parameters with a sink that may refuse. -/
def failing : Config := { defaultConfig with sinkMayFail := true }

/-- The default parameters with undefined vectors that fault. -/
def strict : Config := { defaultConfig with undefinedTrap := .fault }

/-- Obligations.DecodeOfEncodeIsTheInstruction; every operand all ones. -/
theorem witness_wf :
    (Instr.br 7#3 0x1FF#9).wf = true ∧ (Instr.trap 15#4 0x26#8).wf = true ∧ (Instr.trapHalt 15#4).wf = true := by
  decide

/-- Obligations.IgnoredBitsChangeNothing: ADD, a defined vector, an undefined vector under noop. -/
theorem witness_ignored_bits :
    (0x1042#16 &&& significantBits 0x1042#16 = 0x105A#16 &&& significantBits 0x1042#16) ∧
    (0xF025#16 &&& significantBits 0xF025#16 = 0xFA25#16 &&& significantBits 0xF025#16) ∧
    definedVector (Field.vect8 0xF025#16) = true ∧
    (0xF026#16 &&& significantBits 0xF026#16 = 0xFF26#16 &&& significantBits 0xF026#16) ∧
    State.reset.cfg.undefinedTrap = .noop := by decide

/-- Obligations.ExtractFieldReadsTheBitRange: both ends, the whole word, one bit, an inverted range. -/
theorem witness_bit_ranges :
    extractField 0x8001#16 15 15 = some 1#16 ∧ extractField 0x8001#16 0 0 = some 1#16 ∧
    extractField 0x8001#16 15 0 = some 0x8001#16 ∧ extractField 0x8001#16 0 1 = none := by decide

/-- Obligations.SignExtensionReplicatesTheSignBit: widths 1 and 16, the widths just outside, R2's examples. -/
theorem witness_widths :
    signExtendLow 0x0001#16 1 = some 0xFFFF#16 ∧ signExtendLow 0x8001#16 16 = some 0x8001#16 ∧
    signExtendLow 0x8001#16 0 = none ∧ signExtendLow 0x8001#16 17 = none ∧
    signExtendLow 0x0010#16 5 = some 0xFFF0#16 ∧ signExtendLow 0x0100#16 9 = some 0xFF00#16 ∧
    signExtendLow 0x02C0#16 11 = some 0x02C0#16 ∧ signExtendLow 0x0400#16 11 = some 0xFC00#16 := by decide

/-- Obligations.StepRunsTheDecodedInstruction: reset, and a pc at the top of memory with the engine's entry next. -/
theorem witness_fetching :
    State.reset.Fetching ∧
    ({ State.reset with pc := 0xFFFF#16, sched := [.engine, .producer] } : State).Fetching := by
  unfold State.Fetching
  decide

/-- Obligations.ScheduledProducerMoves and the two clauses of Obligations.TurnPerformsTheScheduledProducerEvents. -/
theorem witness_schedules :
    ({ State.reset with sched := [.producer] } : State).sched = Agent.producer :: [] ∧
    ({ State.reset with sched := [.producer, .producer, .engine, .producer] } : State).sched =
      List.replicate 2 Agent.producer ++ .engine :: [.producer] ∧
    ({ State.reset with sched := [.producer] } : State).sched = List.replicate 1 Agent.producer ∧
    State.reset.sched = List.replicate 0 Agent.producer := by decide

/-- Obligations.ProducerEventsWriteOnlyTheDeviceWords, clause by clause: the byte 0xFF with READY already
set; an input that never ends; KbdReady; no input. -/
theorem witness_producer_events :
    (∃ s : State, s.readyDue = false ∧ s.input.next = some (0xFF#8, .finite []) ∧ s.ready = true) ∧
    (∃ s : State, s.readyDue = false ∧ ∃ b rest, s.input.next = some (b, rest) ∧ rest.next ≠ none) ∧
    (∃ s : State, s.readyDue = true ∧ s.readMem Config.kbsr = 0x7FFF#16) ∧
    (State.reset.readyDue = false ∧ State.reset.input.next = none) :=
  ⟨⟨{ small [] [(0xFE00, 0x8000)] .Z with input := .finite [0xFF#8] }, by decide⟩,
    ⟨{ State.reset with input := .unbounded [] }, rfl, _, _, rfl, nofun⟩,
    ⟨{ small [] [(0xFE00, 0x7FFF)] .Z with readyDue := true }, by decide⟩, by decide⟩

/-- Obligations.EnabledEngineAlwaysHasANextState: an enabled state, and both ways to have no next state. -/
theorem witness_ends :
    State.reset.engineEnabled = true ∧
    step { State.reset with running := false } = .fault .halted ∧
    step { State.reset with fault := some .ioError } = .fault .faulted := ⟨rfl, rfl, rfl⟩

/-- Obligations.StoppedEngineNeverRunsAgain: a halted machine with a byte still to come, two steps. -/
theorem witness_stopped_run :
    ∃ s t : State, s.engineEnabled = false ∧ core.run 2 s = .next t ∧ t.readMem 0xFE02#16 = 0x0041#16 :=
  ⟨{ State.reset with running := false, input := .finite [0x41#8] }, _, by decide, rfl, by decide⟩

/-- Obligations.ResetMeetsTheInvariant and StepKeepsTheInvariant: reset meets it and steps. -/
theorem witness_invariant : State.reset.Inv ∧ ∃ t, step State.reset = .next t := by
  refine ⟨⟨by decide, by decide, by decide, fun r h => ?_⟩, _, rfl⟩
  simp [State.reset] at h

/-- Obligations.StepKeepsTheInvariant in a faulted state, at its latch clauses. -/
theorem witness_invariant_faulted :
    ∃ s t : State, s.Inv ∧ s.fault = some (.decodeError 8#4 0x8FFF#16 0xFFFF#16) ∧ step s = .next t := by
  refine ⟨{ State.reset with
      pc := 0#16, fault := some (.decodeError 8#4 0x8FFF#16 0xFFFF#16), input := .finite [1#8] }, _,
    ⟨by decide, by decide, by decide, fun r h => ?_⟩, rfl, rfl⟩
  obtain rfl : _ = r := Option.some.inj h
  exact ⟨Or.inl rfl, rfl, rfl⟩

/-- Obligations.CanonicalMemoriesAreEqualWhenTheyReadEqual: written in two orders, the last address among them. -/
theorem witness_canonical :
    Memory.wf (Memory.write (Memory.write [] 0xFFFF#16 1#16) 0#16 2#16) ∧
    Memory.wf (Memory.write (Memory.write [] 0#16 2#16) 0xFFFF#16 1#16) ∧
    ∀ a, Memory.read (Memory.write (Memory.write [] 0xFFFF#16 1#16) 0#16 2#16) a =
      Memory.read (Memory.write (Memory.write [] 0#16 2#16) 0xFFFF#16 1#16) a :=
  ⟨by decide, by decide, fun _ => rfl⟩

/-- Obligations.RunningIsClearedOnlyByHalt: HALT and another instruction, by `exec` and by `step`. -/
theorem witness_running :
    (∃ t, exec (.trapHalt 0#4) State.reset = .next t) ∧
    (∃ t, exec (.trapOut 0#4) State.reset = .next t) ∧
    (∃ s t : State, step s = .next t ∧ s.running = true ∧ t.running = false) ∧
    (∃ s t : State, step s = .next t ∧ s.running = false) :=
  ⟨⟨_, rfl⟩, ⟨_, rfl⟩, ⟨small [] [(0x3000, 0xF025)] .Z, _, rfl, by decide, by decide⟩,
    ⟨{ State.reset with running := false, input := .finite [1#8] }, _, rfl, rfl⟩⟩

/-- Obligations.FaultLatchIsSetByTheListedCausesAndNeverCleared: a set latch that stays, and each cause. -/
theorem witness_fault_latch :
    (∃ s t : State, step s = .next t ∧ s.fault = some .ioError) ∧
    (∃ s t : State, step s = .next t ∧ s.fault = none ∧
      t.fault = some (.decodeError 13#4 0xD000#16 0x3000#16)) ∧
    (∃ s t : State, step s = .next t ∧ s.fault = none ∧ t.fault = some .ioError) ∧
    (∃ s t : State, step s = .next t ∧ s.fault = none ∧
      t.fault = some (.undefinedTrap 0x26#8 0xF026#16 0x3000#16)) :=
  ⟨⟨{ State.reset with fault := some .ioError, input := .finite [1#8] }, _, rfl, rfl⟩,
    ⟨small [] [(0x3000, 0xD000)] .Z, _, rfl, by decide, by decide⟩,
    ⟨{ small [] [(0x3000, 0xF021)] .Z with cfg := failing, sinkPlan := [true] }, _, rfl, by decide, by decide⟩,
    ⟨{ small [] [(0x3000, 0xF026)] .Z with cfg := strict }, _, rfl, by decide, by decide⟩⟩

/-- Obligations.OutputOnlyGrowsAndIsNeverRead: a step that emits, and one instruction that does not. -/
theorem witness_output :
    (∃ s t : State, step s = .next t ∧ t.output = s.output ++ [0x41#8]) ∧
    (∃ t, exec (.trapGetc 0#4) State.reset = .next t) :=
  ⟨⟨small [(0, 0x0041)] [(0x3000, 0xF021)] .Z, _, rfl, by decide⟩, ⟨_, rfl⟩⟩

/-- A GETC held with READY set, KBDR negative, and a producer event between its read and its clear. -/
def heldGetc : State :=
  { small [(7, 0x1234)] [(0xFE00, 0x8000), (0xFE02, 0x8000)] .Z with
    pos := .getcWait, input := .finite [1#8], sched := [.engine, .engine, .producer] }

/-- A PUTS held at the last word of memory, whose string wraps. -/
def heldPuts : State :=
  { small [(0, 0x1234), (7, 0x5678)] [(0xFFFF, 0x0041), (0x0000, 0x4342)] .N with pos := .puts 0xFFFF#16 }

/-- The clauses on steps that fetch nothing, of the statements on the output, `cond`, memory, `pc` and the traps: a
held GETC that completes, a PUTS gone on with, an event of the producer, a stopped machine. -/
theorem witness_not_fetching :
    (¬ heldGetc.Fetching ∧ heldGetc.pos ≠ .fetch ∧ heldGetc.pos ≠ .inWait ∧ (∀ a, heldGetc.pos ≠ .puts a) ∧
      (∀ a, heldGetc.pos ≠ .putsp a) ∧ ∃ t, step heldGetc = .next t ∧ t.cond = .N ∧ t.reg 0#3 = 0x8000#16) ∧
    (¬ heldPuts.Fetching ∧ heldPuts.GoesOnAt (.puts 0xFFFF#16) ∧ heldPuts.sched = [] ∧ heldPuts.pos ≠ .getcWait ∧
      heldPuts.pos ≠ .inWait ∧ ∃ t, step heldPuts = .next t ∧ t.output = [0x41#8, 0x42#8]) ∧
    (∃ s t : State, ¬ s.Fetching ∧ s.pos = .fetch ∧ step s = .next t ∧ t.ready = true) ∧
    (∃ s t : State, ¬ s.Fetching ∧ s.running = false ∧ step s = .next t) := by
  unfold State.Fetching State.GoesOnAt
  exact ⟨⟨by decide, by decide, by decide, nofun, nofun, _, rfl, by decide, by decide⟩,
    ⟨by decide, by decide, rfl, by decide, by decide, _, rfl, by decide⟩,
    ⟨{ State.reset with readyDue := true, sched := [.producer] }, _, by decide, rfl, rfl, by decide⟩,
    ⟨{ State.reset with running := false, input := .finite [1#8] }, _, by decide, rfl, rfl⟩⟩

/-- Obligations.CondIsWrittenOnlyByConditionSettingInstructions: both clauses, and the GETC way out of the second. -/
theorem witness_cond_dest :
    condDest (.lea 7#3 0#9) = some 7#3 ∧ (∃ t, exec (.lea 7#3 0#9) State.reset = .next t) ∧
    condDest (.trapGetc 0#4) = none ∧
    (∃ t, exec (.trapGetc 0#4) (small [] [(0xFE00, 0x8000), (0xFE02, 0x8000)] .Z) = .next t ∧ t.cond = .N) :=
  ⟨rfl, ⟨_, rfl⟩, rfl, ⟨_, rfl, by decide⟩⟩

/-- Obligations.OnlyTheStoredWordAndTheDeviceWordsChange: STI through a pointer, the words beside its target. -/
theorem witness_store_address :
    ∃ s t : State, exec (.sti 1#3 1#9) s = .next t ∧ storeAddr (.sti 1#3 1#9) s = some 0xFE01#16 ∧
      0xFE01#16 ≠ Config.kbsr ∧ 0xFE01#16 ≠ Config.kbdr ∧ storeAddr (.sti 1#3 1#9) s ≠ some 0xFDFF#16 ∧
      0xFDFF#16 ≠ Config.kbsr ∧ 0xFDFF#16 ≠ Config.kbdr :=
  ⟨small [(1, 5)] [(0x3001, 0xFE01)] .Z, _, rfl, by decide, by decide, by decide, by decide, by decide, by decide⟩

/-- Obligations.InstructionsThatStoreNothingLeaveMemoryAlone: LDI, with nothing scheduled. -/
theorem witness_stores_nothing :
    (∃ t, exec (.ldi 1#3 0x1FF#9) State.reset = .next t) ∧ State.reset.sched = [] ∧
      storeAddr (.ldi 1#3 0x1FF#9) State.reset = none := ⟨⟨_, rfl⟩, rfl, rfl⟩

/-- Obligations.SingleAccessInstructionsAreAtomicForTheProducer, first clause: an LD of the word between the two
device words with a producer event enabled, an LDI through the word after them, a PUTS that ends just before them. -/
theorem witness_touches_no_device :
    (∃ s t : State, s.pc = 0xFE00#16 ∧ TouchesNoDevice (.ld 0#3 1#9) s ∧ s.sched = [] ∧
      exec (.ld 0#3 1#9) s = .next t ∧ s.producerEnabled = true) ∧
    (∃ s t : State, TouchesNoDevice (.ldi 0#3 1#9) s ∧ s.sched = [] ∧ exec (.ldi 0#3 1#9) s = .next t ∧
      s.readMem 0x3001#16 = 0xFE03#16) ∧
    (∃ s t : State, TouchesNoDevice (.trapPuts 0#4) s ∧ s.sched = [] ∧ exec (.trapPuts 0#4) s = .next t ∧
      s.reg 0#3 = 0xFDFE#16) := by
  refine ⟨⟨{ State.reset with pc := 0xFE00#16, input := .finite [0x41#8] }, _, rfl, ?_, rfl, rfl, by decide⟩,
    ⟨small [] [(0x3001, 0xFE03)] .Z, _, ?_, rfl, rfl, by decide⟩,
    ⟨small [(0, 0xFDFE)] [(0xFDFE, 0x0041)] .Z, _, ⟨1, ?_⟩, rfl, rfl, by decide⟩⟩
  · unfold TouchesNoDevice IsDevice
    decide
  · unfold TouchesNoDevice IsDevice
    decide
  · unfold IsDevice
    decide

/-- The same statement, second clause, with a producer event scheduled inside the instruction: an LD of KBSR itself,
an STI through KBDR to another word, a PUTS whose string holds KBDR. -/
theorem witness_touches_device_once :
    (∃ s t : State, s.sched = [.producer] ∧ TouchesDeviceAtMostOnce (.ldr 0#3 1#3 0#6) s ∧ s.reg 1#3 = Config.kbsr ∧
      exec (.ldr 0#3 1#3 0#6) s = .next t ∧ s.producerEnabled = true) ∧
    (∃ s t : State, s.sched = [.engine, .producer] ∧ TouchesDeviceAtMostOnce (.sti 0#3 1#9) s ∧
      s.pc = 0xFE01#16 ∧ exec (.sti 0#3 1#9) s = .next t ∧ s.producerEnabled = true) ∧
    (∃ s t : State, s.sched = [.engine, .engine, .producer] ∧ TouchesDeviceAtMostOnce (.trapPuts 0#4) s ∧
      s.reg 0#3 = 0xFE01#16 ∧ exec (.trapPuts 0#4) s = .next t ∧ s.producerEnabled = true) := by
  refine ⟨⟨{ small [(1, 0xFE00)] [] .Z with readyDue := true, sched := [.producer] }, _, rfl, trivial, rfl, rfl, rfl⟩,
    ⟨{ small [] [(0xFE02, 0x4000)] .Z with
        pc := 0xFE01#16, input := .finite [1#8], sched := [.engine, .producer] }, _, rfl, ?_, rfl, rfl, by decide⟩,
    ⟨{ small [(0, 0xFE01)] [(0xFE01, 1), (0xFE02, 1)] .Z with
        input := .finite [1#8], sched := [.engine, .engine, .producer] }, _, rfl, ⟨2, ?_⟩, rfl, rfl, by decide⟩⟩
  · unfold TouchesDeviceAtMostOnce IsDevice
    decide
  · unfold IsDevice
    decide

/-- Obligations.StoredWordIsFetchedNext: ST at 0xFFFE over the last word, STI through a pointer, STR. -/
theorem witness_stored_word :
    (∃ s : State, s.Fetching ∧ s.sched = [] ∧ decode (s.readMem s.pc) = .st 1#3 0#9 ∧
      storeAddr (.st 1#3 0#9) s.fetched = some (s.pc + 1#16) ∧ s.reg 1#3 = 0xF025#16) ∧
    (∃ s : State, s.Fetching ∧ s.sched = [] ∧ decode (s.readMem s.pc) = .sti 1#3 1#9 ∧
      storeAddr (.sti 1#3 1#9) s.fetched = some (s.pc + 1#16)) ∧
    (∃ s : State, s.Fetching ∧ s.sched = [] ∧ decode (s.readMem s.pc) = .str 1#3 2#3 0x3F#6 ∧
      storeAddr (.str 1#3 2#3 0x3F#6) s.fetched = some (s.pc + 1#16)) := by
  unfold State.Fetching
  exact ⟨⟨{ small [(1, 0xF025)] [(0xFFFE, 0x3200)] .Z with pc := 0xFFFE#16 }, by decide⟩,
    ⟨small [] [(0x3000, 0xB201), (0x3002, 0x3001)] .Z, by decide⟩,
    ⟨small [(2, 0x3002)] [(0x3000, 0x72BF)] .Z, by decide⟩⟩

/-- Obligations.ReservedWordsStopTheRun: both opcodes. -/
theorem witness_reserved_words :
    (∃ s : State, s.Fetching ∧ Field.opcode (s.readMem s.pc) = 8#4) ∧
    (∃ s : State, s.Fetching ∧ Field.opcode (s.readMem s.pc) = 13#4) := by
  unfold State.Fetching
  exact ⟨⟨{ small [] [(0xFFFF, 0x8FFF)] .Z with pc := 0xFFFF#16 }, by decide⟩,
    ⟨small [] [(0x3000, 0xD000)] .Z, by decide⟩⟩

/-- Obligations.PcAtTheEndOfEveryInstruction: a taken branch, by `exec` and by the step that fetches it. -/
theorem witness_pc_after :
    (∃ t, exec (.br 2#3 0x1FF#9) State.reset = .next t ∧ t.pc = 0x2FFF#16) ∧
    (∃ s t : State, s.Fetching ∧ step s = .next t ∧ s.pc = 0xFFFF#16 ∧ t.pc = 0x00FF#16) := by
  unfold State.Fetching
  exact ⟨⟨_, rfl, by decide⟩,
    ⟨{ small [] [(0xFFFF, 0x04FF)] .Z with pc := 0xFFFF#16 }, _, by decide, rfl, rfl, by decide⟩⟩

/-- Obligations.UndefinedVectorIsANoopOrAFault: the vectors beside the six, each setting of the parameter. -/
theorem witness_undefined_vectors :
    definedVector 0x1F#8 = false ∧ definedVector 0x26#8 = false ∧ State.reset.cfg.undefinedTrap = .noop ∧
    ({ State.reset with cfg := strict } : State).cfg.undefinedTrap = .fault := by decide

/-- Obligations.TrapsLeaveTheLinkAndPcAlone: PUTS in a state whose `x[7]` is set. -/
theorem witness_traps :
    ∃ s t : State, exec (.trapPuts 0#4) s = .next t ∧ t.reg 7#3 = 0x1234#16 :=
  ⟨small [(0, 0x4000), (7, 0x1234)] [(0x4000, 0x0041)] .Z, _, rfl, by decide⟩

/-- Obligations.OutEmitsTheLowByte: a sink that does not fail, and one whose plan accepts the next character. -/
theorem witness_sink :
    State.reset.sinkRefuses = false ∧
    ({ State.reset with cfg := failing, sinkPlan := [false, true] } : State).sinkRefuses = false := by decide

/-- Obligations.GetcConsumesWhenReady, InPromptsConsumesAndEchoes: READY there from the start on a sink whose plan
accepts the 20 characters and then refuses, and READY set by the producer event scheduled before the poll. -/
theorem witness_ready :
    (∃ s : State, s.turn.ready = true ∧ s.SinkAccepts (s.cfg.inPrompt.length + 1) ∧ s.cfg.sinkMayFail = true) ∧
    (∃ s : State, s.turn.ready = true ∧ s.ready = false ∧ s.SinkAccepts (s.cfg.inPrompt.length + 1)) := by
  unfold State.SinkAccepts
  exact ⟨⟨{ small [] [(0xFE00, 0x8000)] .Z with cfg := failing, sinkPlan := List.replicate 20 false ++ [true] },
      by decide⟩,
    ⟨{ State.reset with readyDue := true, sched := [.producer, .engine] }, by decide⟩⟩

/-- The same statements' steps that go on from a hold: GETC with a producer event between its accesses; IN with the
schedule used up, on a sink whose plan accepts the echo and then refuses. -/
theorem witness_held_ready :
    (heldGetc.GoesOnAt .getcWait ∧ heldGetc.turn.ready = true) ∧
    (∃ s : State, s.GoesOnAt .inWait ∧ s.turn.ready = true ∧ s.SinkAccepts 1 ∧ s.cfg.sinkMayFail = true ∧
      s.sched = []) := by
  unfold State.GoesOnAt State.SinkAccepts
  exact ⟨by decide,
    ⟨{ small [] [(0xFE00, 0x8000)] .Z with pos := .inWait, cfg := failing, sinkPlan := [false, true] }, by decide⟩⟩

/-- Obligations.InputTrapsHoldUntilReady: every bit of KBSR but READY is set. -/
theorem witness_not_ready :
    ∃ s : State, s.turn.ready = false ∧ s.SinkAccepts s.cfg.inPrompt.length ∧ s.readMem Config.kbsr = 0x7FFF#16 := by
  unfold State.SinkAccepts
  exact ⟨small [] [(0xFE00, 0x7FFF)] .Z, by decide⟩

/-- The same statement's held polls: GETC with a producer that could move but the engine named, IN with the schedule
used up and a producer that moves, and one that has no event. -/
theorem witness_held_not_ready :
    (∃ s : State, s.GoesOnAt .getcWait ∧ s.ready = false ∧ s.sched = .engine :: [.producer] ∧
      s.producerEnabled = true) ∧
    (∃ s : State, s.GoesOnAt .inWait ∧ s.ready = false ∧ s.sched = [] ∧ s.producerEnabled = true) ∧
    (∃ s : State, s.GoesOnAt .inWait ∧ s.ready = false ∧ s.sched = [] ∧ s.producerEnabled = false) := by
  unfold State.GoesOnAt
  exact ⟨⟨{ small [] [(0xFE00, 0x7FFF)] .Z with
        pos := .getcWait, input := .finite [1#8], sched := [.engine, .producer] }, by decide⟩,
    ⟨{ State.reset with pos := .inWait, readyDue := true }, by decide⟩,
    ⟨{ State.reset with pos := .inWait }, by decide⟩⟩

/-- Obligations.PutsEmitsTheStringAtR0 and PutspEmitsThePackedStringAtR0: a string that wraps past 0xFFFF with
nothing scheduled on a sink whose plan accepts its characters and then refuses, one away from the device words with
the producer scheduled, and the empty string. -/
theorem witness_strings :
    (∃ (s : State) (ws : List Word), ws.length < 65536 ∧ s.StringAt (s.reg 0#3) ws ∧
      s.readMem (s.reg 0#3 + BitVec.ofNat 16 ws.length) = 0x0000#16 ∧ s.Undisturbed (s.reg 0#3) (ws.length + 1) ∧
      s.SinkAccepts (putspText ws).length ∧ s.SinkAccepts (putsText ws).length ∧ s.reg 0#3 = 0xFFFF#16 ∧
      s.cfg.sinkMayFail = true ∧ (putspText ws).length = 3) ∧
    (∃ (s : State) (ws : List Word), ws.length < 65536 ∧ s.StringAt (s.reg 0#3) ws ∧
      s.readMem (s.reg 0#3 + BitVec.ofNat 16 ws.length) = 0x0000#16 ∧ s.Undisturbed (s.reg 0#3) (ws.length + 1) ∧
      s.SinkAccepts (putsText ws).length ∧ s.sched = [.producer, .engine] ∧ ws.length = 1) ∧
    (∃ s : State, s.StringAt (s.reg 0#3) [] ∧ s.readMem (s.reg 0#3) = 0x0000#16 ∧
      s.Undisturbed (s.reg 0#3) 1) := by
  unfold State.SinkAccepts State.StringAt State.Undisturbed IsDevice
  exact ⟨⟨{ small [(0, 0xFFFF)] [(0xFFFF, 0x0041), (0x0000, 0x4342)] .Z with
        cfg := failing, sinkPlan := [false, false, false, true] }, [0x0041#16, 0x4342#16], by decide⟩,
    ⟨{ small [(0, 0xFDFE)] [(0xFDFE, 0x0041)] .Z with input := .finite [1#8], sched := [.producer, .engine] },
      [0x0041#16], by decide⟩, ⟨State.reset, by decide⟩⟩

/-- The same statements' steps that go on with a string: PUTS at the last word of memory, PUTSP just below the device
words with the producer scheduled after the first access. -/
theorem witness_held_strings :
    (heldPuts.GoesOnAt (.puts 0xFFFF#16) ∧ heldPuts.StringAt 0xFFFF#16 [0x0041#16, 0x4342#16] ∧
      heldPuts.readMem (0xFFFF#16 + BitVec.ofNat 16 2) = 0x0000#16 ∧ heldPuts.Undisturbed 0xFFFF#16 3 ∧
      heldPuts.SinkAccepts 2) ∧
    (∃ s : State, s.GoesOnAt (.putsp 0xFDFE#16) ∧ s.StringAt 0xFDFE#16 [0x4100#16] ∧
      s.readMem (0xFDFE#16 + BitVec.ofNat 16 1) = 0x0000#16 ∧ s.Undisturbed 0xFDFE#16 2 ∧
      s.SinkAccepts (putspText [0x4100#16]).length ∧ s.sched = [.engine, .producer]) := by
  unfold State.GoesOnAt State.SinkAccepts State.StringAt State.Undisturbed IsDevice
  exact ⟨by decide, ⟨{ small [] [(0xFDFE, 0x4100)] .Z with
      pos := .putsp 0xFDFE#16, input := .finite [1#8], sched := [.engine, .producer] }, by decide⟩⟩

/-- Every address listed, with the word 1. -/
def fullMem : Memory := (List.range 65536).map fun k => (k, 1#16)

theorem find_in_listed (k : Nat) (l : List Nat) (h : k ∈ l) : Memory.find k (l.map fun j => (j, 1#16)) = 1#16 := by
  induction l with
  | nil => simp at h
  | cons j l ih =>
    by_cases hj : j = k
    · simp [Memory.find, hj]
    · simp only [List.map_cons, Memory.find, if_neg hj]
      exact ih (by simpa [Ne.symm hj] using h)

/-- Obligations.UnterminatedStringsNeverEnd: no zero word anywhere, between instructions, inside PUTS and inside
PUTSP, on a sink that never fails. -/
theorem witness_unterminated (p : Position) :
    ∃ s : State, s.engineEnabled = true ∧ s.sched = [] ∧ (∀ n, s.SinkAccepts n) ∧
      (∀ b, s.readMem b ≠ 0x0000#16) ∧ s.pos = p := by
  refine ⟨{ State.reset with mem := fullMem, pos := p }, rfl, rfl,
    fun n => sinkAccepts_of_reliable rfl n, fun b => ?_, rfl⟩
  have h : Memory.find b.toNat fullMem = 1#16 := find_in_listed _ _ (List.mem_range.mpr b.isLt)
  simp [State.readMem, Memory.read, h]

/-- Obligations.RefusedCharacterStopsTheService, the clauses on `out`, OUT and IN's prompt: refused at the first
character, and at the last of the prompt's 19. -/
theorem witness_refused_character :
    (∃ s : State, s.SinkRefusesAt 0) ∧ (∃ s : State, s.SinkRefusesAt 18 ∧ 18 < s.cfg.inPrompt.length) := by
  unfold State.SinkRefusesAt
  exact ⟨⟨{ State.reset with cfg := failing, sinkPlan := [true] }, by decide⟩,
    ⟨{ State.reset with cfg := failing, sinkPlan := List.replicate 18 false ++ [true] }, by decide⟩⟩

/-- The same statement, IN held and gone on with: READY set, the echo refused. -/
theorem witness_refused_held_echo :
    ∃ s : State, s.engineEnabled = true ∧ s.pos = .inWait ∧ s.sched.head? ≠ some .producer ∧
      s.turn.ready = true ∧ s.SinkRefusesAt 0 := by
  unfold State.SinkRefusesAt
  exact ⟨{ small [] [(0xFE00, 0x8000)] .Z with cfg := failing, sinkPlan := [true], pos := .inWait }, by decide⟩

/-- The same statement, the string services, started and held: two words that wrap past 0xFFFF, refused at the last
of their characters (the second of PUTS, the third of PUTSP). -/
theorem witness_refused_string (p : Position) :
    (∃ (s : State) (ws : List Word), ws.length ≤ 65536 ∧ s.StringAt 0xFFFF#16 ws ∧
      s.Undisturbed 0xFFFF#16 ws.length ∧ s.SinkRefusesAt 1 ∧ 1 < (putsText ws).length ∧ ws.length = 2 ∧
      s.reg 0#3 = 0xFFFF#16 ∧ s.engineEnabled = true ∧ s.sched.head? ≠ some .producer ∧ s.pos = p) ∧
    (∃ (s : State) (ws : List Word), ws.length ≤ 65536 ∧ s.StringAt 0xFFFF#16 ws ∧
      s.Undisturbed 0xFFFF#16 ws.length ∧ s.SinkRefusesAt 2 ∧ 2 < (putspText ws).length ∧ ws.length = 2 ∧
      s.reg 0#3 = 0xFFFF#16 ∧ s.engineEnabled = true ∧ s.sched.head? ≠ some .producer ∧ s.pos = p) := by
  let s : State := small [(0, 0xFFFF)] [(0xFFFF, 0x0041), (0x0000, 0x4342)] .Z
  have h : s.StringAt 0xFFFF#16 [0x0041#16, 0x4342#16] := by
    unfold State.StringAt
    decide
  unfold State.SinkRefusesAt
  exact ⟨⟨{ s with cfg := failing, sinkPlan := [false, true], pos := p }, _, by decide, h, .inl rfl,
      ⟨rfl, by simp, rfl⟩, by decide, rfl, rfl, rfl, nofun, rfl⟩,
    ⟨{ s with cfg := failing, sinkPlan := [false, false, true], pos := p }, _, by decide, h, .inl rfl,
      ⟨rfl, by simp, rfl⟩, by decide, rfl, rfl, rfl, nofun, rfl⟩⟩

/-- Obligations.RefusedEchoKeepsTheConsumedCharacter: the 19 characters of the prompt accepted, the echo refused. -/
theorem witness_refused_echo :
    ∃ s : State, s.SinkRefusesAt s.cfg.inPrompt.length ∧ s.turn.ready = true := by
  unfold State.SinkRefusesAt
  exact ⟨{ small [] [(0xFE00, 0x8000)] .Z with cfg := failing, sinkPlan := List.replicate 19 false ++ [true] },
    by decide⟩

/-- Obligations.HeldInputTrapReceivesTheNextByte: GETC and IN. -/
theorem witness_held_input :
    (∃ s : State, s.engineEnabled = true ∧ s.sched = [] ∧ s.pos = .getcWait ∧ s.readyDue = false ∧
      s.ready = false ∧ s.input.next = some (0xFF#8, .finite [])) ∧
    (∃ s : State, s.engineEnabled = true ∧ s.sched = [] ∧ s.pos = .inWait ∧ s.sinkRefuses = false ∧
      s.readyDue = false ∧ s.ready = false ∧ s.input.next = some (0xFF#8, .finite [])) :=
  ⟨⟨{ State.reset with pos := .getcWait, input := .finite [0xFF#8] }, by decide⟩,
    ⟨{ State.reset with pos := .inWait, input := .finite [0xFF#8] }, by decide⟩⟩

/-- Obligations.WaitWithNoInputNeverEnds: GETC and IN. -/
theorem witness_no_input :
    (∃ s : State, s.engineEnabled = true ∧ s.pos = .getcWait ∧ s.sched = [] ∧ s.producerEnabled = false ∧
      s.ready = false) ∧
    (∃ s : State, s.engineEnabled = true ∧ s.pos = .inWait ∧ s.sched = [] ∧ s.producerEnabled = false ∧
      s.ready = false) :=
  ⟨⟨{ State.reset with pos := .getcWait }, by decide⟩, ⟨{ State.reset with pos := .inWait }, by decide⟩⟩

/-- Obligations.HandshakeHasExactlyTheListedOutcomes: "a" ready, "b" coming (60_exceptions.md R174). -/
theorem witness_handshake :
    ∃ s : State, s.ready = true ∧ s.readMem Config.kbdr = zext 0x61#8 ∧ s.readyDue = false ∧
      s.input = .finite [0x62#8] :=
  ⟨{ small [] [(0xFE00, 0x8000), (0xFE02, 0x0061)] .Z with input := .finite [0x62#8] }, by decide⟩

/-- Obligations.ConsumedWordIsTheHeldWordOrADeliveredByte: GETC, and IN on a sink that accepts its prompt; the word
that was there in the first, the byte that overwrote it in the second. -/
theorem witness_consumed :
    (∃ s t : State, s.turn.ready = true ∧ exec (.trapGetc 0#4) s = .next t ∧ t.reg 0#3 = 0xFF61#16) ∧
    (∃ s t : State, s.turn.ready = true ∧ exec (.trapIn 0#4) s = .next t ∧
      s.SinkAccepts s.cfg.inPrompt.length ∧ s.input.Holds 0x62#8 ∧ t.reg 0#3 = 0x0062#16) :=
  ⟨⟨small [] [(0xFE00, 0x8000), (0xFE02, 0xFF61)] .Z, _, by decide, rfl, by decide⟩,
    ⟨{ small [] [(0xFE00, 0x8000), (0xFE02, 0xFF61)] .Z with input := .finite [0x62#8], sched := [.producer] }, _,
      by decide, rfl, sinkAccepts_of_reliable rfl _, ⟨0, by decide⟩, by decide⟩⟩

/-- Obligations.LoadPlacesTheImage and LoadRejectsMalformedImages: one word at the last address, and one too many;
an empty image; one byte; an odd stream. -/
theorem witness_images :
    (0xFFFF#16).toNat + [1#16].length ≤ 65536 ∧ 65536 < (0xFFFF#16).toNat + [1#16, 2#16].length ∧
    (0x3000#16).toNat + ([] : List Word).length ≤ 65536 ∧ [0x30#8].length < 2 ∧
    2 ≤ [0x30#8, 0x00#8, 0xF0#8].length ∧ [0x30#8, 0x00#8, 0xF0#8].length % 2 = 1 := by decide

/-- Obligations.ProducerDeliversTheInputInOrder: the last of two bytes, the place after it, and a byte past the
listed ones of an input that never ends. -/
theorem witness_input_bytes :
    (∃ s : State, s.readyDue = false ∧ s.input.byteAt 1 = some 0xFF#8 ∧ s.input.byteAt 2 = none) ∧
    (∃ s : State, s.readyDue = false ∧ ∃ b, s.input.byteAt 7 = some b) :=
  ⟨⟨{ State.reset with input := .finite [1#8, 0xFF#8] }, by decide⟩,
    ⟨{ State.reset with input := .unbounded [1#8] }, rfl, _, rfl⟩⟩

/-- Obligations.MemWriteSetsOneWordUntilItIsWrittenAgain: later writes beside the word; the word between the device
words; a producer event on the other device word. -/
theorem witness_mem_write :
    (∀ p ∈ [(0x2FFF#16, 1#16), (0x3001#16, 2#16)], p.1 ≠ 0x3000#16) ∧ ¬ IsDevice 0xFE01#16 ∧
    (∃ s : State, s.readyDue = false ∧ s.producerEnabled = true) ∧ (∃ s : State, s.readyDue = true) := by
  unfold IsDevice
  exact ⟨by simp, by decide, ⟨{ State.reset with input := .finite [1#8] }, by decide⟩,
    ⟨{ State.reset with readyDue := true }, rfl⟩⟩

end Sys2Proof.Tests
end

section
/-! PROOFS. Field extraction and sign extension (00_scope.md R1, R2), read bit by bit. Both are tied to the
extensions of a field: the masked low bits of a word are `zext` of its low field, and `sext` fills what `zext`
leaves clear. -/

namespace Sys2Proof.Machine

/-! ### The mask of the low bits -/

/-- The mask `(1 << n) - 1` of R1 and R2 has the bits below `n`. -/
theorem getLsbD_lowMask (n i : Nat) :
    (BitVec.ofNat 16 (2 ^ n - 1)).getLsbD i = (decide (i < 16) && decide (i < n)) := by
  rw [BitVec.getLsbD_ofNat, Nat.testBit_two_pow_sub_one]

theorem one_shiftLeft_eq_ofNat_two_pow (n : Nat) : 1#16 <<< n = BitVec.ofNat 16 (2 ^ n) := by
  rw [← BitVec.twoPow_eq]
  exact BitVec.eq_of_toNat_eq (by simp)

/-- The mask as R1 computes it, a shift and a decrement in 16 bits; at `n = 16` the shift has left the word. -/
theorem shiftLeft_sub_one_eq_lowMask (n : Nat) : (1#16 <<< n) - 1#16 = BitVec.ofNat 16 (2 ^ n - 1) := by
  rw [one_shiftLeft_eq_ofNat_two_pow, BitVec.ofNat_sub_ofNat_of_le _ _ (by decide) Nat.one_le_two_pow]

theorem and_lowMask_eq_zext (v : Word) (n : Nat) : v &&& BitVec.ofNat 16 (2 ^ n - 1) = zext (v.setWidth n) := by
  apply BitVec.eq_of_getLsbD_eq
  intro i hi
  simp only [zext, BitVec.getLsbD_and, getLsbD_lowMask, BitVec.getLsbD_setWidth, hi, decide_true, Bool.true_and]
  exact Bool.and_comm ..

/-! ### Field extraction -/

theorem extractField_eq_shift_mask (w : Word) {high low : Nat} (hle : low ≤ high) (hhigh : high ≤ 15) :
    extractField w high low = some ((w >>> low) &&& BitVec.ofNat 16 (2 ^ (high - low + 1) - 1)) :=
  if_pos ⟨hle, hhigh⟩

/-- On its range, field extraction is the field of the bits `low` to `high`, zero-extended. -/
theorem extractField_eq_zext (w : Word) {high low : Nat} (hle : low ≤ high) (hhigh : high ≤ 15) :
    extractField w high low = some (zext (w.extractLsb' low (high - low + 1))) := by
  have hfield : w.extractLsb' low (high - low + 1) = (w >>> low).setWidth (high - low + 1) :=
    BitVec.eq_of_getLsbD_eq fun i hi => by simp [hi]
  rw [extractField_eq_shift_mask w hle hhigh, and_lowMask_eq_zext, hfield]

theorem extractField_eq_none (w : Word) {high low : Nat} (h : high < low) : extractField w high low = none :=
  if_neg fun ⟨hle, _⟩ => Nat.not_le_of_lt h hle

/-- The extracted field's bits: those from `low` on, and none above position `high - low`. -/
theorem getLsbD_zext_extractLsb' (w : Word) {high low : Nat} (hhigh : high ≤ 15) (i : Nat) :
    (zext (w.extractLsb' low (high - low + 1))).getLsbD i = (decide (i ≤ high - low) && w.getLsbD (low + i)) := by
  by_cases hi : i ≤ high - low
  · have hi16 : i < 16 := by omega
    simp [zext, hi, hi16, Nat.lt_succ_of_le hi]
  · have hlen : ¬ i < high - low + 1 := by omega
    simp [zext, hi, hlen]

/-- Settles O5 (R1): extraction is the zero-extended field of the range (`extractField_eq_zext`), for the decoder's
fields as for any other. -/
theorem extractFieldReadsTheBitRange : Obligations.ExtractFieldReadsTheBitRange := by
  refine ⟨fun w high low hle hhigh => ?_, fun w high low h => extractField_eq_none w h, fun w => ?_⟩
  · have hzext := extractField_eq_zext w hle hhigh
    refine ⟨_, hzext, ?_, getLsbD_zext_extractLsb' w hhigh⟩
    rw [shiftLeft_sub_one_eq_lowMask]
    exact Option.some.inj (hzext.symm.trans (extractField_eq_shift_mask w hle hhigh))
  · have hrange (high low : Nat) (h : low ≤ high ∧ high ≤ 15) := extractField_eq_zext w h.1 h.2
    exact ⟨hrange 15 12 (by decide), hrange 11 9 (by decide), hrange 8 6 (by decide), hrange 2 0 (by decide),
      hrange 5 5 (by decide), hrange 11 11 (by decide), hrange 4 0 (by decide), hrange 5 0 (by decide),
      hrange 8 0 (by decide), hrange 10 0 (by decide), hrange 7 0 (by decide)⟩

/-! ### Sign extension -/

/-- A field's low bits survive its sign extension (the round-trip law of R2). -/
theorem setWidth_sext {n : Nat} (f : BitVec n) (hn : n ≤ 16) : (sext f).setWidth n = f := by
  apply BitVec.eq_of_getLsbD_eq
  intro i hi
  have hi16 : i < 16 := by omega
  rw [sext, BitVec.getLsbD_setWidth, BitVec.getLsbD_signExtend]
  simp [hi, hi16]

theorem setWidth_zext {n : Nat} (f : BitVec n) (hn : n ≤ 16) : (zext f).setWidth n = f := by
  rw [zext, BitVec.setWidth_setWidth_of_le f hn, BitVec.setWidth_eq]

theorem sext_eq_zext_of_msb_false {n : Nat} {f : BitVec n} (h : f.msb = false) : sext f = zext f :=
  BitVec.signExtend_eq_setWidth_of_msb_false h

theorem getLsbD_highMask (n i : Nat) :
    (0xFFFF#16 <<< n).getLsbD i = (decide (i < 16) && !decide (i < n)) := by
  have hones : 0xFFFF#16 = BitVec.allOnes 16 := rfl
  rw [hones, BitVec.getLsbD_shiftLeft, BitVec.getLsbD_allOnes]
  by_cases hi : i < 16
  · have hi' : i - n < 16 := by omega
    simp [hi, hi']
  · simp [hi]

/-- A negative field's extension sets every bit above the field. -/
theorem sext_eq_zext_or_of_msb_true {n : Nat} {f : BitVec n} (h : f.msb = true) :
    sext f = zext f ||| (0xFFFF#16 <<< n) := by
  apply BitVec.eq_of_getLsbD_eq
  intro i hi
  rw [sext, zext, BitVec.getLsbD_signExtend, BitVec.getLsbD_or, BitVec.getLsbD_setWidth, getLsbD_highMask, h]
  by_cases hin : i < n
  · simp [hi, hin]
  · simp [hi, hin]

/-- Setting every bit above a field is subtracting `2^n`, as the set bits are `-2^n` and carry into none of the
field's. -/
theorem zext_or_highMask_eq_sub {n : Nat} (f : BitVec n) :
    zext f ||| (0xFFFF#16 <<< n) = zext f - BitVec.ofNat 16 (2 ^ n) := by
  have hdisjoint : zext f &&& (0xFFFF#16 <<< n) = 0#16 := by
    apply BitVec.eq_of_getLsbD_eq
    intro i hi
    rw [zext, BitVec.getLsbD_and, BitVec.getLsbD_setWidth, getLsbD_highMask]
    by_cases hin : i < n
    · simp [hin]
    · simp [hin, BitVec.getLsbD_of_ge f i (Nat.le_of_not_lt hin)]
  have hneg : 0xFFFF#16 <<< n = -BitVec.ofNat 16 (2 ^ n) := by
    have hone : 0xFFFF#16 = -1#16 := rfl
    rw [hone, BitVec.shiftLeft_neg, one_shiftLeft_eq_ofNat_two_pow]
  rw [← BitVec.add_eq_or_of_and_eq_zero _ _ hdisjoint, hneg, BitVec.sub_eq_add_neg]

theorem signExtendLow_eq_sext (v : Word) {n : Nat} (hpos : 1 ≤ n) (hn : n ≤ 16) :
    signExtendLow v n = some (sext (v.setWidth n)) :=
  if_pos ⟨hpos, hn⟩

theorem signExtendLow_eq_none (v : Word) {n : Nat} (h : n = 0 ∨ 16 < n) : signExtendLow v n = none :=
  if_neg (by omega)

/-- The sign bit of a word's low field of `n` bits is bit `n - 1` of the word. -/
theorem msb_setWidth_eq_getLsbD (v : Word) {n : Nat} (hpos : 1 ≤ n) :
    (v.setWidth n).msb = v.getLsbD (n - 1) := by
  simp [BitVec.msb_setWidth, Nat.lt_of_lt_of_le Nat.zero_lt_one hpos]

/-- Settles O6 (R2): the extension of the low field, with the field's sign bit clear or set. -/
theorem signExtensionReplicatesTheSignBit : Obligations.SignExtensionReplicatesTheSignBit := by
  refine ⟨fun v n hpos hn => ⟨_, signExtendLow_eq_sext v hpos hn, ?formula, ?difference, ?roundTrip⟩,
    fun v => ?whole, fun v n h => signExtendLow_eq_none v h, fun n f hpos hn => ?field⟩
  case formula =>
    rw [and_lowMask_eq_zext, ← msb_setWidth_eq_getLsbD v hpos]
    split
    · exact sext_eq_zext_or_of_msb_true ‹_›
    · exact sext_eq_zext_of_msb_false (Bool.eq_false_of_not_eq_true ‹_›)
  case difference =>
    rw [and_lowMask_eq_zext, ← msb_setWidth_eq_getLsbD v hpos, ← zext_or_highMask_eq_sub]
    exact sext_eq_zext_or_of_msb_true
  case roundTrip =>
    rw [and_lowMask_eq_zext, and_lowMask_eq_zext, setWidth_sext _ hn]
  case whole =>
    rw [signExtendLow_eq_sext v (by decide) le_rfl, BitVec.setWidth_eq, sext, BitVec.signExtend_eq]
  case field =>
    rw [signExtendLow_eq_sext _ hpos hn, setWidth_zext f hn]

end Sys2Proof.Machine
end

section
/-! PROOFS. Reset, canonical memory and the producer's deliveries (10_state.md R18, R21, R23). A canonical memory
lists exactly the words that differ from what an unlisted address reads as, so its reads determine it; two producer
events deliver one byte and shift the input by one. -/

namespace Sys2Proof.Machine

/-! ### Reset -/

@[simp] theorem reg_reset (i : RegIdx) : State.reset.reg i = resetReg := by
  simp [State.reg, State.reset]

/-- Settles O14: the literals of `State.reset`; no memory word is listed. -/
theorem resetLeavesTheStatedValues : Obligations.ResetLeavesTheStatedValues :=
  ⟨rfl, reg_reset, rfl, rfl, rfl, fun _ => rfl, rfl, rfl⟩

/-- Settles O15: at reset the engine is enabled, between instructions, and the latch is empty. -/
theorem resetMeetsTheInvariant : Obligations.ResetMeetsTheInvariant :=
  ⟨reset_mem_wf, fun _ => rfl, fun _ => rfl, nofun⟩

/-! ### Canonical memory -/

/-- With rising keys, a listed word is what its address reads as. -/
theorem find_of_mem {m : Memory} (hm : m.Pairwise (fun c d => c.1 < d.1)) {c : Nat × Word} (hc : c ∈ m) :
    Memory.find c.1 m = c.2 := by
  induction m with
  | nil => simp at hc
  | cons d m ih =>
    obtain ⟨hlt, hm'⟩ := List.pairwise_cons.mp hm
    rcases List.mem_cons.mp hc with rfl | hc
    · simp [Memory.find]
    · simp [Memory.find, (hlt c hc).ne, ih hm' hc]

/-- What a canonical memory lists: the words that differ from what an unlisted address reads as. -/
theorem mem_iff_read {m : Memory} (h : Memory.wf m) (c : Nat × Word) :
    c ∈ m ↔ ∃ a : Word, a.toNat = c.1 ∧ Memory.read m a = c.2 ∧ c.2 ≠ resetMem := by
  obtain ⟨hm, hc⟩ := h
  constructor
  · intro hmem
    obtain ⟨hk, hv⟩ := hc c hmem
    exact ⟨BitVec.ofNatLT c.1 hk, rfl, find_of_mem hm hmem, hv⟩
  · rintro ⟨a, ha, hr, hv⟩
    rw [Memory.read, ha] at hr
    obtain ⟨d, hd, hk⟩ : ∃ d ∈ m, d.1 = c.1 := by
      by_contra habsent
      exact hv (hr.symm.trans (find_of_absent _ _ fun d hd hk => habsent ⟨d, hd, hk⟩))
    have hdc : d = c := Prod.ext hk (by rw [← hr, ← hk, find_of_mem hm hd])
    exact hdc ▸ hd

/-- Settles O17: both memories list the same words, in the one order their keys allow. -/
theorem canonicalMemoriesAreEqualWhenTheyReadEqual : Obligations.CanonicalMemoriesAreEqualWhenTheyReadEqual := by
  intro m n hm hn hread
  have hirrefl : Std.Irrefl (fun c d : Nat × Word => c.1 < d.1) := ⟨fun c => Nat.lt_irrefl c.1⟩
  have hantisymm : Std.Antisymm (fun c d : Nat × Word => c.1 < d.1) := ⟨fun _ _ h h' => absurd h h'.asymm⟩
  refine hm.1.eq_of_mem_iff hn.1 fun c => ?_
  simp only [mem_iff_read hm, mem_iff_read hn, hread]

/-! ### The producer's deliveries -/

theorem Input.next_of_byteAt_zero {i : Input} {b : Byte} (h : i.byteAt 0 = some b) :
    ∃ rest, i.next = some (b, rest) := by
  cases hn : i.next with
  | none => simp [i.next_eq_none_iff.mp hn] at h
  | some p =>
    obtain ⟨c, rest⟩ := p
    rw [(Input.byteAt_of_next hn).1, Option.some.injEq] at h
    exact ⟨rest, by rw [h]⟩

/-- An exhausted input has no byte under any number. -/
theorem Input.byteAt_of_next_eq_none {i : Input} (h : i.next = none) (k : Nat) : i.byteAt k = none := by
  rcases i with ⟨_ | ⟨c, bytes⟩, _ | n⟩ <;> simp [Input.next] at h
  simp [Input.byteAt]

@[simp] theorem Input.byteAt_finite (bs : List Byte) (k : Nat) : (Input.finite bs).byteAt k = bs[k]? := by
  unfold Input.byteAt Input.finite
  cases bs[k]? <;> rfl

theorem Input.exists_byteAt_unbounded (bs : List Byte) (k : Nat) : ∃ b, (Input.unbounded bs).byteAt k = some b := by
  unfold Input.byteAt Input.unbounded
  cases bs[k]? with
  | none => exact ⟨_, rfl⟩
  | some b => exact ⟨b, rfl⟩

theorem Input.byteAt_unbounded_of_lt (bs : List Byte) {k : Nat} (h : k < bs.length) :
    (Input.unbounded bs).byteAt k = bs[k]? := by
  simp [Input.byteAt, Input.unbounded, List.getElem?_eq_getElem h]

/-- Two producer events, of a producer between bytes, use up one byte. -/
theorem producerEvent_twice {s : State} (h : s.readyDue = false) :
    (producerEvent (producerEvent s)).readyDue = false ∧
      ∀ k, (producerEvent (producerEvent s)).input.byteAt k = s.input.byteAt (k + 1) := by
  cases hn : s.input.next with
  | none =>
    rw [producerEvent_of_none h hn, producerEvent_of_none h hn]
    exact ⟨h, fun k => by simp only [Input.byteAt_of_next_eq_none hn]⟩
  | some p =>
    obtain ⟨b, rest⟩ := p
    rw [producerEvent_of_byte h hn, producerEvent_of_due rfl]
    exact ⟨rfl, (Input.byteAt_of_next hn).2⟩

/-- After `2 * k` events the producer is between bytes, and the byte numbers have moved on by `k`. -/
theorem producerEvent_iterate_two_mul (k : Nat) {s : State} (h : s.readyDue = false) :
    (producerEvent^[2 * k] s).readyDue = false ∧
      ∀ j, (producerEvent^[2 * k] s).input.byteAt j = s.input.byteAt (j + k) := by
  induction k generalizing s with
  | zero => exact ⟨h, fun _ => rfl⟩
  | succ k ih =>
    obtain ⟨hdue, hbyte⟩ := producerEvent_twice h
    obtain ⟨hdue', hbyte'⟩ := ih hdue
    simp only [Nat.mul_succ, Function.iterate_add_apply]
    exact ⟨hdue', fun j => by rw [Nat.add_succ, ← hbyte]; exact hbyte' j⟩

/-- The two events that deliver a byte: KBDR holds it after the first and still after the second, which sets READY. -/
theorem producerEvent_delivers {s : State} {b : Byte} {rest : Input} (h : s.readyDue = false)
    (hn : s.input.next = some (b, rest)) :
    (producerEvent s).readMem Config.kbdr = zext b ∧ (producerEvent s).readyDue = true ∧
      (producerEvent (producerEvent s)).readMem Config.kbdr = zext b ∧
      (producerEvent (producerEvent s)).ready = true ∧ (producerEvent (producerEvent s)).readyDue = false := by
  have hdata : (kbdData b rest s).readMem Config.kbdr = zext b := read_write_self s.mem Config.kbdr (zext b)
  rw [producerEvent_of_byte h hn, producerEvent_of_due rfl]
  refine ⟨hdata, rfl, (read_write_ne _ _ (by decide)).trans hdata, ?_, rfl⟩
  have hkbsr : ∀ u : State, (kbdReady u).readMem Config.kbsr = u.readMem Config.kbsr ||| 0x8000#16 := fun u =>
    read_write_self u.mem Config.kbsr _
  rw [State.ready, hkbsr, BitVec.msb_or]
  exact Bool.or_true _

/-- Settles O54: after `2 * k` events byte number `k` is the next one, so the next two events deliver it, or there is
none. -/
theorem producerDeliversTheInputInOrder : Obligations.ProducerDeliversTheInputInOrder := by
  refine ⟨fun s k b hdue hb => ?_, fun s k hdue hb => ?_, Input.byteAt_finite, fun bs k =>
    ⟨Input.exists_byteAt_unbounded bs k, Input.byteAt_unbounded_of_lt bs⟩⟩
  · obtain ⟨hbetween, hbyte⟩ := producerEvent_iterate_two_mul k hdue
    obtain ⟨rest, hn⟩ := Input.next_of_byteAt_zero ((hbyte 0).trans (by rw [Nat.zero_add, hb]))
    obtain ⟨hdata, hdataDue, hdone, hready, hdoneDue⟩ := producerEvent_delivers hbetween hn
    exact ⟨by simp [State.producerEnabled, hn], hdata, by simp [State.producerEnabled, hdataDue], hdone, hready,
      hdoneDue⟩
  · obtain ⟨hbetween, hbyte⟩ := producerEvent_iterate_two_mul k hdue
    have hn := (Input.next_eq_none_iff _).mpr ((hbyte 0).trans (by rw [Nat.zero_add, hb]))
    simp [State.producerEnabled, hbetween, hn]

end Sys2Proof.Machine
end

section
/-! PROOFS. What the decoder's answer says of the word it was read from (30_encoding.md R53, R55): the word is the
instruction's own, and the instruction is well-formed. So a fault record put together from an instruction's fields
holds the word that was fetched. -/

namespace Sys2Proof

/-! ### A word is its fields, side by side -/

/-- Two fields, the lower one starting at bit `l`, make one field. -/
theorem append_next_field (w : Word) (l k : Nat) {n : Nat} :
    w.extractLsb' (l + k) n ++ w.extractLsb' l k = w.extractLsb' l (n + k) :=
  BitVec.extractLsb'_append_extractLsb'_eq_extractLsb' rfl

theorem fields_regOff9 (w : Word) : Field.opcode w ++ Field.r11_9 w ++ Field.off9 w = w := by
  unfold Field.opcode Field.r11_9 Field.off9
  rw [append_next_field w 9 3, append_next_field w 0 9, BitVec.extractLsb'_eq_self]

theorem fields_regRegOff6 (w : Word) : Field.opcode w ++ Field.r11_9 w ++ Field.r8_6 w ++ Field.off6 w = w := by
  unfold Field.opcode Field.r11_9 Field.r8_6 Field.off6
  rw [append_next_field w 9 3, append_next_field w 6 3, append_next_field w 0 6, BitVec.extractLsb'_eq_self]

theorem fields_regRegImm5 (w : Word) :
    Field.opcode w ++ Field.r11_9 w ++ Field.r8_6 w ++ Field.mode5 w ++ Field.imm5 w = w := by
  unfold Field.opcode Field.r11_9 Field.r8_6 Field.mode5 Field.imm5
  rw [append_next_field w 9 3, append_next_field w 6 3, append_next_field w 5 1, append_next_field w 0 5,
    BitVec.extractLsb'_eq_self]

theorem fields_regRegReg (w : Word) :
    Field.opcode w ++ Field.r11_9 w ++ Field.r8_6 w ++ Field.mode5 w ++ Field.ign4_3 w ++ Field.r2_0 w = w := by
  unfold Field.opcode Field.r11_9 Field.r8_6 Field.mode5 Field.ign4_3 Field.r2_0
  rw [append_next_field w 9 3, append_next_field w 6 3, append_next_field w 5 1, append_next_field w 3 2,
    append_next_field w 0 3, BitVec.extractLsb'_eq_self]

theorem fields_base (w : Word) :
    Field.opcode w ++ Field.mode11 w ++ Field.ign10_9 w ++ Field.r8_6 w ++ Field.off6 w = w := by
  unfold Field.opcode Field.mode11 Field.ign10_9 Field.r8_6 Field.off6
  rw [append_next_field w 11 1, append_next_field w 9 2, append_next_field w 6 3, append_next_field w 0 6,
    BitVec.extractLsb'_eq_self]

theorem fields_off11 (w : Word) : Field.opcode w ++ Field.mode11 w ++ Field.off11 w = w := by
  unfold Field.opcode Field.mode11 Field.off11
  rw [append_next_field w 11 1, append_next_field w 0 11, BitVec.extractLsb'_eq_self]

theorem fields_ignored (w : Word) : Field.opcode w ++ Field.ign11_0 w = w := by
  unfold Field.opcode Field.ign11_0
  rw [append_next_field w 0 12, BitVec.extractLsb'_eq_self]

theorem fields_vector (w : Word) : Field.opcode w ++ Field.ign11_8 w ++ Field.vect8 w = w := by
  unfold Field.opcode Field.ign11_8 Field.vect8
  rw [append_next_field w 8 4, append_next_field w 0 8, BitVec.extractLsb'_eq_self]

/-! ### The fields of a reserved word and of a TRAP word -/

theorem opcode_reserved (op : BitVec 4) (ign : BitVec 12) : Field.opcode (op ++ ign) = op :=
  BitVec.extractLsb'_append_eq_left

theorem opcode_trap (op ign : BitVec 4) (v : BitVec 8) : Field.opcode (op ++ ign ++ v) = op := by
  rw [BitVec.append_assoc]
  exact BitVec.extractLsb'_append_eq_left

theorem vect8_trap (op ign : BitVec 4) (v : BitVec 8) : Field.vect8 (op ++ ign ++ v) = v :=
  BitVec.extractLsb'_append_eq_right

/-! ### The TRAP row and the rows that refine it -/

theorem encode_decodeTrap (ign : BitVec 4) (v : BitVec 8) : encode (decodeTrap ign v) = 0xF#4 ++ ign ++ v := by
  unfold decodeTrap
  split_ifs <;> simp only [encode, *]

theorem wf_decodeTrap (ign : BitVec 4) (v : BitVec 8) : (decodeTrap ign v).wf = true := by
  unfold decodeTrap
  split_ifs <;> simp [Instr.wf, definedVector, *]

/-! ### The decoder -/

/-- An opcode the decoder has no other row for is TRAP's. -/
theorem opcode_eq_trap_of_ne (op : BitVec 4) (h : ∀ k < 15, op ≠ BitVec.ofNat 4 k) : op = 0xF#4 := by
  by_contra hne
  have hlt := op.isLt
  have hne' : op.toNat ≠ 15 := fun h => hne (BitVec.eq_of_toNat_eq h)
  exact h op.toNat (by omega) (by simp)

theorem eq_one_of_ne_zero {b : BitVec 1} (h : b ≠ 0#1) : b = 1#1 := (BitVec.eq_zero_or_eq_one b).resolve_left h

theorem encode_decode (w : Word) : encode (decode w) = w := by
  unfold decode
  split
  case h_1 h | h_3 h | h_4 h | h_11 h | h_12 h | h_15 h => rw [encode, ← h, fields_regOff9]
  case h_7 h | h_8 h | h_10 h | h_13 h => rw [encode, ← h, fields_regRegOff6]
  case h_9 h | h_14 h => rw [encode, ← h, fields_ignored]
  case h_2 h | h_6 h =>
    split
    case isTrue hm => rw [encode, ← h, ← hm, fields_regRegReg]
    case isFalse hm => rw [encode, ← h, ← eq_one_of_ne_zero hm, fields_regRegImm5]
  case h_5 h =>
    split
    case isTrue hm => rw [encode, ← h, ← hm, fields_base]
    case isFalse hm => rw [encode, ← h, ← eq_one_of_ne_zero hm, fields_off11]
  case h_16 =>
    have h : Field.opcode w = 0xF#4 := opcode_eq_trap_of_ne _ fun k hk => by interval_cases k <;> assumption
    rw [encode_decodeTrap, ← h, fields_vector]

theorem wf_decode (w : Word) : (decode w).wf = true := by
  unfold decode
  split
  case h_2 | h_5 | h_6 => split <;> rfl
  case h_16 => exact wf_decodeTrap _ _
  all_goals rfl

end Sys2Proof
end

section
/-! PROOFS. What no event reads (10_state.md R16, R20): the characters already emitted, and, within an instruction, the
run flag. Both are said by one update of the state, `relabel`, that every operation commutes with. -/

namespace Sys2Proof.Machine

/-! ### BR and an undefined TRAP, case by case -/

theorem exec_br_of_taken {nzp : BitVec 3} {off : BitVec 9} {s : State} (h : branchTaken nzp s.cond = true) :
    exec (.br nzp off) s = .next { s with pc := eaPc off s } :=
  congrArg Host.Outcome.next (if_pos h)

theorem exec_br_of_not_taken {nzp : BitVec 3} {off : BitVec 9} {s : State} (h : ¬ branchTaken nzp s.cond = true) :
    exec (.br nzp off) s = .next s :=
  congrArg Host.Outcome.next (if_neg h)

/-- A well-formed TRAP term has a vector no service answers to. -/
theorem exec_trap_of_wf {ign : BitVec 4} {v : BitVec 8} (h : (Instr.trap ign v).wf = true) (s : State) :
    exec (.trap ign v) s = .next (undefinedVector ign v s) := by
  simp only [Instr.wf, definedVector, Bool.not_eq_true', Bool.or_eq_false_iff, beq_eq_false_iff_ne] at h
  simp only [exec, execTrap, h, if_false]

/-! ### Relabelling a state -/

/-- The state with its run flag seen through `run` and with `before` emitted before everything else. -/
def State.relabel (run : Bool → Bool) (before : List Byte) (s : State) : State :=
  { s with running := run s.running, output := before ++ s.output }

section
variable (run : Bool → Bool) (before : List Byte)

/-! ### The shared operations -/

@[simp] theorem relabel_readMem (s : State) (a : Word) : (s.relabel run before).readMem a = s.readMem a := rfl
@[simp] theorem relabel_cfg (s : State) : (s.relabel run before).cfg = s.cfg := rfl
@[simp] theorem relabel_sinkRefuses (s : State) : (s.relabel run before).sinkRefuses = s.sinkRefuses := rfl

@[simp] theorem relabel_emitChar (s : State) (c : Byte) :
    (s.relabel run before).emitChar c = (s.emitChar c).relabel run before := by
  simp only [State.emitChar, State.relabel, List.append_assoc]
  rfl

@[simp] theorem producerEvent_relabel (s : State) :
    producerEvent (s.relabel run before) = (producerEvent s).relabel run before :=
  producerEvent_comm (State.relabel run before) s rfl rfl rfl fun _ _ => rfl

@[simp] theorem turn_relabel (s : State) : (s.relabel run before).turn = s.turn.relabel run before :=
  drain_comm (State.relabel run before) (producerEvent_relabel run before) (fun _ _ => rfl) s.sched s

/-- A service's answer, its state relabelled. -/
def relabelAnswer (r : State × Bool) : State × Bool := (r.1.relabel run before, r.2)

theorem emit_relabel (cs : List Byte) (s : State) :
    emit cs (s.relabel run before) = relabelAnswer run before (emit cs s) := by
  induction cs generalizing s with
  | nil => rfl
  | cons c cs ih =>
    simp only [emit, relabel_sinkRefuses, relabel_emitChar, ih]
    split <;> rfl

theorem consume_relabel (hold : Position) (s : State) :
    consume hold (s.relabel run before) = relabelAnswer run before (consume hold s) := by
  by_cases h : s.turn.ready = true
  · have h' : (s.relabel run before).turn.ready = true := by rwa [turn_relabel]
    rw [consume_of_ready h, consume_of_ready h']
    simp only [turn_relabel, relabel_cfg, relabel_readMem]
    split <;> rfl
  · have h' : ¬ (s.relabel run before).turn.ready = true := by rwa [turn_relabel]
    rw [consume_of_not_ready (Bool.eq_false_of_not_eq_true h), consume_of_not_ready (Bool.eq_false_of_not_eq_true h'),
      turn_relabel]
    rfl

theorem scan_relabel (chars : Word → List Byte) (hold : Word → Position) (n : Nat) (a : Word) (s : State) :
    scan chars hold n a (s.relabel run before) = (scan chars hold n a s).relabel run before := by
  induction n generalizing a s with
  | zero => rfl
  | succ n ih =>
    simp only [scan, turn_relabel, relabel_readMem, emit_relabel]
    split
    · rfl
    · cases emit (chars (s.turn.readMem a)) s.turn with
      | mk t accepted => cases accepted with
        | true => exact ih _ _
        | false => rfl

/-! ### The services -/

theorem serviceGetc_relabel (s : State) :
    serviceGetc (s.relabel run before) = (serviceGetc s).relabel run before := by
  unfold serviceGetc
  rw [consume_relabel]
  obtain ⟨t, consumed⟩ := consume .getcWait s
  cases consumed <;> rfl

theorem serviceInAfterPrompt_relabel (s : State) :
    serviceInAfterPrompt (s.relabel run before) = (serviceInAfterPrompt s).relabel run before := by
  unfold serviceInAfterPrompt
  rw [consume_relabel]
  obtain ⟨t, consumed⟩ := consume .inWait s
  cases consumed with
  | true => exact congrArg Prod.fst (emit_relabel run before _ { t with pos := .fetch })
  | false => rfl

theorem serviceIn_relabel (s : State) : serviceIn (s.relabel run before) = (serviceIn s).relabel run before := by
  unfold serviceIn
  rw [relabel_cfg, emit_relabel]
  obtain ⟨t, accepted⟩ := emit s.cfg.inPrompt s
  cases accepted with
  | true => exact serviceInAfterPrompt_relabel run before t
  | false => rfl

theorem serviceOut_relabel (s : State) : serviceOut (s.relabel run before) = (serviceOut s).relabel run before :=
  congrArg Prod.fst (emit_relabel run before _ s)

theorem undefinedVector_relabel (ign : BitVec 4) (v : BitVec 8) (s : State) :
    undefinedVector ign v (s.relabel run before) = (undefinedVector ign v s).relabel run before := by
  unfold undefinedVector
  rw [relabel_cfg]
  cases s.cfg.undefinedTrap <;> rfl

/-! ### The instructions -/

/-- An outcome, its next state relabelled. -/
def relabelOutcome : Host.Outcome State Fault Refusal → Host.Outcome State Fault Refusal
  | .next t => .next (t.relabel run before)
  | .fault r => .fault r
  | .refused r => .refused r

/-- A handler does the same under another run flag and another output, HALT under every `run` that keeps what it
writes. -/
theorem exec_relabel {i : Instr} (hi : i.wf = true) (hrun : (∀ ign, i ≠ .trapHalt ign) ∨ run false = false)
    (s : State) : exec i (s.relabel run before) = relabelOutcome run before (exec i s) := by
  cases i
  case addReg | addImm | andReg | andImm | not | lea | jmp | jsr | jsrr | rti | res => rfl
  case br nzp off =>
    by_cases htaken : branchTaken nzp s.cond = true
    · rw [exec_br_of_taken htaken, exec_br_of_taken (s := s.relabel run before) htaken]
      rfl
    · rw [exec_br_of_not_taken htaken, exec_br_of_not_taken (s := s.relabel run before) htaken]
      rfl
  case ld | ldr | st | str | ldi | sti =>
    simp only [exec, execLd, execLdr, execSt, execStr, execLdi, execSti, turn_relabel]
    rfl
  case trap ign v =>
    rw [exec_trap_of_wf hi, exec_trap_of_wf hi, undefinedVector_relabel]
    rfl
  case trapGetc => exact congrArg Host.Outcome.next (serviceGetc_relabel run before s)
  case trapOut => exact congrArg Host.Outcome.next (serviceOut_relabel run before s)
  case trapPuts => exact congrArg Host.Outcome.next (scan_relabel run before putsChars .puts _ _ s)
  case trapIn => exact congrArg Host.Outcome.next (serviceIn_relabel run before s)
  case trapPutsp => exact congrArg Host.Outcome.next (scan_relabel run before putspChars .putsp _ _ s)
  case trapHalt ign =>
    have hfalse := hrun.resolve_left fun h => h ign rfl
    simp only [exec, execTrapHalt, serviceHalt, State.relabel, relabelOutcome, hfalse]

end

/-! ### The step -/

section
variable (before : List Byte)

theorem waitStep_relabel {service : State → State}
    (hs : ∀ s, service (s.relabel id before) = (service s).relabel id before) (s : State) :
    waitStep service (s.relabel id before) = (waitStep service s).relabel id before := by
  simp only [waitStep, hs, producerEvent_relabel]
  exact (apply_ite (State.relabel id before) _ _ _).symm

theorem engineStep_relabel (s : State) :
    engineStep (s.relabel id before) = relabelOutcome id before (engineStep s) := by
  have hpos : (s.relabel id before).pos = s.pos := rfl
  unfold engineStep
  rw [hpos]
  cases s.pos with
  | fetch => exact exec_relabel id before (wf_decode _) (.inr rfl) s.fetched
  | getcWait => exact congrArg Host.Outcome.next (waitStep_relabel before (serviceGetc_relabel id before) s)
  | inWait => exact congrArg Host.Outcome.next (waitStep_relabel before (serviceInAfterPrompt_relabel id before) s)
  | puts a => exact congrArg Host.Outcome.next (scan_relabel id before putsChars .puts _ a s)
  | putsp a => exact congrArg Host.Outcome.next (scan_relabel id before putspChars .putsp _ a s)

theorem stoppedStep_relabel (s : State) :
    stoppedStep (s.relabel id before) = relabelOutcome id before (stoppedStep s) := by
  have hproducer : producerEvent (s.relabel id before).takeEntry = (producerEvent s.takeEntry).relabel id before :=
    producerEvent_relabel id before s.takeEntry
  have henabled : (s.relabel id before).producerEnabled = s.producerEnabled := rfl
  unfold stoppedStep
  rw [henabled, hproducer]
  split <;> rfl

/-- A step does the same after another output, and emits the same. -/
theorem step_relabel (s : State) : step (s.relabel id before) = relabelOutcome id before (step s) := by
  have hsched : (s.relabel id before).sched = s.sched := rfl
  have henabled : (s.relabel id before).engineEnabled = s.engineEnabled := rfl
  unfold step machineStep
  rw [hsched, henabled]
  split
  · rename_i rest _
    exact congrArg Host.Outcome.next (producerEvent_relabel id before { s with sched := rest })
  · rw [engineStep_relabel, stoppedStep_relabel]
    exact (apply_ite (relabelOutcome id before) _ _ _).symm

end

/-- A next state of a relabelled state is a relabelled next state. -/
theorem next_of_relabelOutcome {run : Bool → Bool} {before : List Byte} {o : Host.Outcome State Fault Refusal}
    {t : State} (h : relabelOutcome run before o = .next t) : ∃ u, o = .next u ∧ u.relabel run before = t := by
  cases o with
  | next u => exact ⟨u, rfl, Host.Outcome.next.inj h⟩
  | fault r => nomatch h
  | refused r => nomatch h

/-- What a step emits does not depend on what was emitted before it. -/
theorem step_output_grows {s t : State} (h : step s = .next t) :
    ∃ new, t.output = s.output ++ new ∧ ∀ o, step { s with output := o } = .next { t with output := o ++ new } := by
  have hrelabel (o : List Byte) : State.relabel id o { s with output := [] } = { s with output := o } := by
    simp [State.relabel]
  have hstep (o : List Byte) := step_relabel o { s with output := [] }
  simp only [hrelabel] at hstep
  obtain ⟨u, hu, rfl⟩ := next_of_relabelOutcome ((hstep s.output).symm.trans h)
  exact ⟨u.output, rfl, fun o => by rw [hstep, hu]; rfl⟩

end Sys2Proof.Machine
end

section
/-! PROOFS. What an instruction, and what a step that fetches nothing, can do to the run flag, the fault latch and the
output (10_state.md R16, R17, R20): each said once, and the three statements read off it. -/

namespace Sys2Proof.Machine

/-! ### The output services -/

/-- The most a service that emits, or a producer event, can do to the run flag and the latch: only a refusing sink sets
the latch. -/
structure SinkEffect (s t : State) : Prop where
  running : t.running = s.running
  cfg : t.cfg = s.cfg
  fault : t.fault = s.fault ∨ t.fault = some .ioError ∧ s.cfg.sinkMayFail = true

theorem SinkEffect.trans {s t u : State} (h : SinkEffect s t) (k : SinkEffect t u) : SinkEffect s u where
  running := k.running.trans h.running
  cfg := k.cfg.trans h.cfg
  fault := by
    rcases k.fault with hsame | ⟨hset, hmay⟩
    · rw [hsame]
      exact h.fault
    · exact .inr ⟨hset, h.cfg ▸ hmay⟩

theorem ProducerOnly.sinkEffect {s t : State} (h : ProducerOnly s t) : SinkEffect s t :=
  ⟨h.running, h.cfg, .inl h.fault⟩

theorem ScanFrame.sinkEffect {hold : Word → Position} {s t : State} (h : ScanFrame hold s t) : SinkEffect s t :=
  ⟨h.running, h.cfg, h.ending.imp And.left fun ⟨hset, _, hmay⟩ => ⟨hset, hmay⟩⟩

theorem emit_sinkEffect (cs : List Byte) (s : State) : SinkEffect s (emit cs s).1 := by
  have f := emit_frame cs s
  refine ⟨f.running, f.cfg, ?_⟩
  cases haccepted : (emit cs s).2 with
  | true => exact .inl (f.accepted haccepted).1
  | false =>
    obtain ⟨hset, -, hmay⟩ := f.refused haccepted
    exact .inr ⟨hset, hmay⟩

theorem serviceGetc_sinkEffect (s : State) : SinkEffect s (serviceGetc s) := by
  obtain ⟨f, -, hfault, -⟩ := serviceGetc_frame s
  exact ⟨f.running, f.cfg, .inl hfault⟩

theorem serviceInAfterPrompt_sinkEffect (s : State) : SinkEffect s (serviceInAfterPrompt s) := by
  have f := consume_frame .inWait s
  unfold serviceInAfterPrompt
  split <;> rename_i t h <;> rw [h] at f
  · have hconsumed : SinkEffect s { t with pos := .fetch } := ⟨f.running, f.cfg, .inl f.fault⟩
    exact hconsumed.trans (emit_sinkEffect _ _)
  · exact ⟨f.running, f.cfg, .inl f.fault⟩

theorem serviceIn_sinkEffect (s : State) : SinkEffect s (serviceIn s) := by
  have hprompt := emit_sinkEffect s.cfg.inPrompt s
  unfold serviceIn
  split <;> rename_i t h <;> rw [h] at hprompt
  · exact hprompt.trans (serviceInAfterPrompt_sinkEffect t)
  · exact hprompt

theorem waitStep_sinkEffect {service : State → State} (hs : ∀ s, SinkEffect s (service s)) (s : State) :
    SinkEffect s (waitStep service s) := by
  obtain ⟨-, -, -, h⟩ | h := waitStep_cases service s <;> rw [h]
  · exact (producerEvent_producerOnly s).sinkEffect
  · exact hs s

/-! ### The step -/

theorem producerEvent_takeEntry_producerOnly (s : State) : ProducerOnly s (producerEvent s.takeEntry) :=
  (ProducerOnly.withSched s _).trans (producerEvent_producerOnly _)

/-- A step fetches, or it is a producer event or a service gone on with. -/
theorem step_fetches_or_sinkEffect {s t : State} (h : step s = .next t) :
    (s.Fetching ∧ exec (decode (s.readMem s.pc)) s.fetched = .next t) ∨ SinkEffect s t := by
  rcases step_cases h with hfetch | ⟨-, rfl⟩ | ⟨-, rfl⟩ | ⟨-, rfl⟩ | ⟨a, -, rfl⟩ | ⟨a, -, rfl⟩
  · exact .inl hfetch
  · exact .inr (producerEvent_takeEntry_producerOnly s).sinkEffect
  · exact .inr (waitStep_sinkEffect serviceGetc_sinkEffect s)
  · exact .inr (waitStep_sinkEffect serviceInAfterPrompt_sinkEffect s)
  · exact .inr (scan_frame putsChars .puts _ a s).sinkEffect
  · exact .inr (scan_frame putspChars .putsp _ a s).sinkEffect

/-- A step of a machine whose engine has stopped is the producer's. -/
theorem step_of_not_enabled {s t : State} (he : s.engineEnabled = false) (h : step s = .next t) : ProducerOnly s t := by
  have hnot : ∀ p, ¬ s.GoesOnAt p := fun p ⟨henabled, _⟩ => by simp [he] at henabled
  rcases step_cases h with ⟨hp, -⟩ | ⟨-, rfl⟩ | ⟨hp, -⟩ | ⟨hp, -⟩ | ⟨a, hp, -⟩ | ⟨a, hp, -⟩
  case inr.inl => exact producerEvent_takeEntry_producerOnly s
  all_goals exact absurd hp (hnot _)

theorem ProducerOnly.sameEngineState {s t : State} (h : ProducerOnly s t) : SameEngineState s t :=
  ⟨reg_congr h.regs, h.cond, h.pc, h.running, h.fault, h.output, h.cfg, h.sinkPlan, h.mem⟩

/-! ### The instruction -/

/-- What an instruction does to the run flag, the latch and the output. -/
inductive ExecEffect (s : State) : Instr → State → Prop
  /-- Nothing: most instructions, GETC and an ignored vector among them. -/
  | quiet {i : Instr} {t : State} (running : t.running = s.running) (fault : t.fault = s.fault)
      (output : t.output = s.output) : ExecEffect s i t
  | rti (ign : BitVec 12) : ExecEffect s (.rti ign) (decodeFault 8#4 (encode (.rti ign)) s)
  | res (ign : BitVec 12) : ExecEffect s (.res ign) (decodeFault 13#4 (encode (.res ign)) s)
  | undefinedTrap (ign : BitVec 4) (v : BitVec 8) (hv : definedVector v = false)
      (hcfg : s.cfg.undefinedTrap = .fault) :
      ExecEffect s (.trap ign v) (s.raise (.undefinedTrap v (encode (.trap ign v)) (s.pc - 1#16)))
  /-- OUT, PUTS, IN and PUTSP. -/
  | emits {i : Instr} {t : State} (hi : (∃ ign, i = .trapOut ign) ∨ (∃ ign, i = .trapPuts ign) ∨
      (∃ ign, i = .trapIn ign) ∨ ∃ ign, i = .trapPutsp ign) (h : SinkEffect s t) : ExecEffect s i t
  | halt (ign : BitVec 4) : ExecEffect s (.trapHalt ign) (serviceHalt s)

theorem exec_effect {i : Instr} {s t : State} (hi : i.wf = true) (h : exec i s = .next t) : ExecEffect s i t := by
  cases i
  case trap ign v =>
    rw [exec_trap_of_wf hi] at h
    obtain rfl := Host.Outcome.next.inj h
    unfold undefinedVector
    split
    · exact .quiet rfl rfl rfl
    · exact .undefinedTrap ign v (by simpa [Instr.wf] using hi) ‹_›
  all_goals obtain rfl := Host.Outcome.next.inj h
  case addReg | addImm | andReg | andImm | not | lea | jmp | jsr | jsrr => exact .quiet rfl rfl rfl
  case br => split <;> exact .quiet rfl rfl rfl
  case ld | ldr | st | str | ldi | sti => exact .quiet (by simp) (by simp) (by simp)
  case rti ign => exact .rti ign
  case res ign => exact .res ign
  case trapGetc =>
    obtain ⟨f, houtput, hfault, -⟩ := serviceGetc_frame s
    exact .quiet f.running hfault houtput
  case trapOut ign => exact .emits (.inl ⟨ign, rfl⟩) (emit_sinkEffect _ s)
  case trapPuts ign => exact .emits (.inr (.inl ⟨ign, rfl⟩)) (scan_frame putsChars .puts _ _ s).sinkEffect
  case trapIn ign => exact .emits (.inr (.inr (.inl ⟨ign, rfl⟩))) (serviceIn_sinkEffect s)
  case trapPutsp ign => exact .emits (.inr (.inr (.inr ⟨ign, rfl⟩))) (scan_frame putspChars .putsp _ _ s).sinkEffect
  case trapHalt ign => exact .halt ign

/-! ### The run flag -/

theorem exec_running_of_ne_halt {i : Instr} {s t : State} (hi : i.wf = true) (hne : ∀ ign, i ≠ .trapHalt ign)
    (h : exec i s = .next t) : t.running = s.running := by
  cases exec_effect hi h with
  | quiet running => exact running
  | rti | res | undefinedTrap => rfl
  | emits _ h => exact h.running
  | halt ign => exact absurd rfl (hne ign)

/-- Settles O18: only HALT's handler writes the flag (`exec_running_of_ne_halt`), no handler reads it
(`exec_relabel`), and the engine has no step while it is false. -/
theorem runningIsClearedOnlyByHalt : Obligations.RunningIsClearedOnlyByHalt := by
  refine ⟨fun i s t hi h => ?written, fun s t h hs ht => ?cleared, fun s t h hs => ?stopped,
    fun i s t b hi h hne => ?unread⟩
  case written =>
    by_cases hhalt : ∃ ign, i = .trapHalt ign
    · obtain ⟨ign, rfl⟩ := hhalt
      obtain rfl := Host.Outcome.next.inj h
      exact .inl ⟨⟨ign, rfl⟩, rfl⟩
    · have hne := not_exists.mp hhalt
      exact .inr ⟨hne, exec_running_of_ne_halt hi hne h⟩
  case cleared =>
    rcases step_fetches_or_sinkEffect h with ⟨hfetch, hexec⟩ | hsink
    · by_contra hhalt
      have hne : ∀ ign, decode (s.readMem s.pc) ≠ .trapHalt ign := fun ign hd => hhalt ⟨ign, hfetch, hd⟩
      have hsame := exec_running_of_ne_halt (wf_decode _) hne hexec
      simp [hs, ht] at hsame
    · have hsame := hsink.running
      simp [hs, ht] at hsame
  case stopped =>
    have honly := step_of_not_enabled (by simp [State.engineEnabled, hs]) h
    exact ⟨honly.running.trans hs, honly.sameEngineState⟩
  case unread =>
    exact (exec_relabel (fun _ => b) [] hi (.inl hne) s).trans (congrArg _ h)

/-! ### The fault latch -/

theorem SinkEffect.sets_fault {s t : State} {r : FaultRecord} (h : SinkEffect s t) (hs : s.fault = none)
    (ht : t.fault = some r) : r = .ioError ∧ s.cfg.sinkMayFail = true := by
  rcases h.fault with hsame | ⟨hset, hmay⟩
  · simp [hs, ht] at hsame
  · exact ⟨Option.some.inj (ht.symm.trans hset), hmay⟩

/-- The latch after the instruction of a fetched word: the record holds that word, since the instruction encodes to
it. -/
theorem exec_decode_sets_fault {w : Word} {s t : State} {r : FaultRecord} (h : exec (decode w) s = .next t)
    (hs : s.fault = none) (ht : t.fault = some r) :
    (r = .decodeError (Field.opcode w) w (s.pc - 1#16) ∧ (Field.opcode w = 8#4 ∨ Field.opcode w = 13#4)) ∨
    (r = .ioError ∧ s.cfg.sinkMayFail = true) ∨
    (s.cfg.undefinedTrap = .fault ∧ Field.opcode w = 15#4 ∧ definedVector (Field.vect8 w) = false ∧
      r = .undefinedTrap (Field.vect8 w) w (s.pc - 1#16)) := by
  have heffect := exec_effect (wf_decode w) h
  have hword := encode_decode w
  generalize decode w = i at heffect hword
  subst hword
  cases heffect with
  | quiet _ fault => simp [hs, ht] at fault
  | rti ign =>
    have hop : Field.opcode (encode (.rti ign)) = 8#4 := opcode_reserved 8#4 ign
    obtain rfl := Option.some.inj ht
    exact .inl ⟨by rw [hop], .inl hop⟩
  | res ign =>
    have hop : Field.opcode (encode (.res ign)) = 13#4 := opcode_reserved 13#4 ign
    obtain rfl := Option.some.inj ht
    exact .inl ⟨by rw [hop], .inr hop⟩
  | undefinedTrap ign v hv hcfg =>
    have hvect : Field.vect8 (encode (.trap ign v)) = v := vect8_trap 15#4 ign v
    obtain rfl := Option.some.inj ht
    exact .inr (.inr ⟨hcfg, opcode_trap 15#4 ign v, by rw [hvect]; exact hv, by rw [hvect]⟩)
  | emits _ hsink => exact .inr (.inl (hsink.sets_fault hs ht))
  | halt ign => exact absurd (hs.symm.trans ht) nofun

/-- Settles O19: a faulted machine's engine has no step; an instruction sets the latch only as `ExecEffect` lists, with
the word it was decoded from, and every other step only through the sink. -/
theorem faultLatchIsSetByTheListedCausesAndNeverCleared :
    Obligations.FaultLatchIsSetByTheListedCausesAndNeverCleared := by
  refine ⟨fun s t r h hs => ?kept, fun s t r h hs ht => ?set⟩
  case kept => exact (step_of_not_enabled (by simp [State.engineEnabled, hs]) h).fault.trans hs
  case set =>
    rcases step_fetches_or_sinkEffect h with ⟨hfetch, hexec⟩ | hsink
    · have haddress : s.fetched.pc - 1#16 = s.pc := BitVec.add_sub_cancel _ _
      have hcause := exec_decode_sets_fault hexec hs ht
      rw [haddress] at hcause
      obtain ⟨hr, hop⟩ | hio | hundefined := hcause
      · exact .inl ⟨hfetch, hr, hop⟩
      · exact .inr (.inl hio)
      · exact .inr (.inr ⟨hfetch, hundefined⟩)
    · exact .inr (.inl (hsink.sets_fault hs ht))

/-! ### The output -/

/-- Settles O20: what is emitted does not depend on what was (`step_output_grows`); `ExecEffect` lists the instructions
that emit, `step_cases` the services gone on with. -/
theorem outputOnlyGrowsAndIsNeverRead : Obligations.OutputOnlyGrowsAndIsNeverRead := by
  refine ⟨fun s t => step_output_grows, fun i s t hi h hout hputs hin hputsp => ?instruction,
    fun s t hfetch hin hputs hputsp h => ?other⟩
  case instruction =>
    cases exec_effect hi h with
    | quiet _ _ output => exact output
    | rti | res | undefinedTrap | halt => rfl
    | emits hi _ =>
      obtain ⟨ign, rfl⟩ | ⟨ign, rfl⟩ | ⟨ign, rfl⟩ | ⟨ign, rfl⟩ := hi
      · exact absurd rfl (hout ign)
      · exact absurd rfl (hputs ign)
      · exact absurd rfl (hin ign)
      · exact absurd rfl (hputsp ign)
  case other =>
    rcases step_cases h with ⟨hgo, -⟩ | ⟨-, rfl⟩ | ⟨-, rfl⟩ | ⟨hgo, -⟩ | ⟨a, hgo, -⟩ | ⟨a, hgo, -⟩
    · exact absurd hgo hfetch
    · exact (producerEvent_takeEntry_producerOnly s).output
    · obtain ⟨-, -, -, h⟩ | h := waitStep_cases serviceGetc s <;> rw [h]
      · exact (producerEvent_producerOnly s).output
      · exact (serviceGetc_frame s).2.1
    · exact absurd hgo.2.1 hin
    · exact absurd hgo.2.1 (hputs a)
    · exact absurd hgo.2.1 (hputsp a)

end Sys2Proof.Machine
end

section
/-! PROOFS. Turns, the two agents' shares of the state, and MemWrite (20_memory.md R32, R36, R42): a producer event
does not see the engine's share of the state, and leaves it alone. -/

namespace Sys2Proof.Machine

/-! ### Turns -/

theorem drain_replicate_producer (k : Nat) (l : List Agent) (s : State) :
    drain (List.replicate k .producer ++ l) s = drain l (producerEvent^[k] s) := by
  induction k generalizing s with
  | zero => rfl
  | succ k ih => exact ih (producerEvent s)

/-- Settles O10: the producer's entries are its events (`drain_replicate_producer`); the engine's entry, or the end of
the schedule, ends the turn. -/
theorem turnPerformsTheScheduledProducerEvents : Obligations.TurnPerformsTheScheduledProducerEvents := by
  refine ⟨fun s k rest h => ?_, fun s k h => ?_⟩
  · rw [State.turn, h, drain_replicate_producer]
    rfl
  · rw [State.turn, h, ← List.append_nil (List.replicate k _), drain_replicate_producer]
    rfl

/-! ### What the engine alone writes, beside what the producer also writes -/

/-- The engine's own share of `e` (registers, flags, output, position, parameters) beside the share of `p` that a
producer event or the schedule can reach: memory, the input, `readyDue` and the schedule. -/
def State.beside (e p : State) : State :=
  { e with mem := p.mem, input := p.input, readyDue := p.readyDue, sched := p.sched }

/-- The state with its schedule used up. -/
def State.unscheduled (s : State) : State := { s with sched := [] }

@[simp] theorem beside_self (s : State) : s.beside s = s := rfl
@[simp] theorem beside_beside (e p q : State) : (e.beside p).beside q = e.beside q := rfl
@[simp] theorem beside_readMem (e p : State) (a : Word) : (e.beside p).readMem a = p.readMem a := rfl
@[simp] theorem unscheduled_readMem (s : State) (a : Word) : s.unscheduled.readMem a = s.readMem a := rfl
@[simp] theorem unscheduled_beside (e p : State) : (e.beside p).unscheduled = e.beside p.unscheduled := rfl

/-- A producer event does not see the engine's share, and leaves it alone. -/
theorem producerEvent_beside (e p : State) : producerEvent (e.beside p) = e.beside (producerEvent p) := by
  cases hdue : p.readyDue with
  | true =>
    rw [producerEvent_of_due hdue, producerEvent_of_due (s := e.beside p) hdue]
    rfl
  | false =>
    cases hnext : p.input.next with
    | none => rw [producerEvent_of_none hdue hnext, producerEvent_of_none (s := e.beside p) hdue hnext]
    | some next =>
      rw [producerEvent_of_byte hdue hnext, producerEvent_of_byte (s := e.beside p) hdue hnext]
      rfl

theorem producerEvent_iterate_beside (k : Nat) (e p : State) :
    producerEvent^[k] (e.beside p) = e.beside (producerEvent^[k] p) :=
  (Function.Semiconj.iterate_right (f := e.beside) (fun p => (producerEvent_beside e p).symm) k p).symm

theorem producerEvent_unscheduled (s : State) : producerEvent s.unscheduled = (producerEvent s).unscheduled :=
  producerEvent_comm State.unscheduled s rfl rfl rfl fun _ _ => rfl

theorem producerEvent_iterate_producerOnly (k : Nat) (s : State) : ProducerOnly s (producerEvent^[k] s) := by
  induction k generalizing s with
  | zero => exact .refl s
  | succ k ih => exact (producerEvent_producerOnly s).trans (ih _)

theorem ProducerOnly.readMem {s t : State} (h : ProducerOnly s t) {a : Word} (ha : ¬ IsDevice a) :
    t.readMem a = s.readMem a :=
  h.mem a (fun e => ha (.inl e)) fun e => ha (.inr e)

/-! ### MemWrite -/

theorem readMem_foldl_writeMem {a : Word} {writes : List (Word × Word)} (h : ∀ p ∈ writes, p.1 ≠ a) (s : State) :
    (writes.foldl (fun u p => u.writeMem p.1 p.2) s).readMem a = s.readMem a := by
  induction writes generalizing s with
  | nil => rfl
  | cons p writes ih =>
    obtain ⟨hp, hwrites⟩ := List.forall_mem_cons.mp h
    exact (ih hwrites _).trans (readMem_writeMem_ne s p.2 hp.symm)

theorem writeMem_storesWord (s : State) (a v : Word) : StoresWord s (s.writeMem a v) a v where
  stored := readMem_writeMem_self s a v
  others _ h := readMem_writeMem_ne s v h
  regs _ := rfl
  cond := rfl
  pc := rfl
  rest := ⟨rfl, rfl, rfl, rfl, rfl, rfl, rfl, rfl, rfl⟩

/-- `KbdData` leaves every word but KBDR. -/
theorem readMem_producerEvent_of_not_due {s : State} (h : s.readyDue = false) {a : Word} (ha : a ≠ Config.kbdr) :
    (producerEvent s).readMem a = s.readMem a := by
  cases hnext : s.input.next with
  | none => rw [producerEvent_of_none h hnext]
  | some next =>
    rw [producerEvent_of_byte h hnext]
    exact readMem_writeMem_ne s _ ha

/-- `KbdReady` leaves every word but KBSR. -/
theorem readMem_producerEvent_of_due {s : State} (h : s.readyDue = true) {a : Word} (ha : a ≠ Config.kbsr) :
    (producerEvent s).readMem a = s.readMem a := by
  rw [producerEvent_of_due h]
  exact readMem_writeMem_ne s _ ha

/-- Settles O55: the word read back survives writes to other words and every event but the one on its own device
word. -/
theorem memWriteSetsOneWordUntilItIsWrittenAgain : Obligations.MemWriteSetsOneWordUntilItIsWrittenAgain := by
  refine ⟨writeMem_storesWord, fun s a v later h => ?writes, fun s a v k ha => ?events, fun s v h => ?data,
    fun s v h => ?ready⟩
  case writes => rw [readMem_foldl_writeMem h, readMem_writeMem_self]
  case events => rw [(producerEvent_iterate_producerOnly k _).readMem ha, readMem_writeMem_self]
  case data =>
    rw [readMem_producerEvent_of_not_due (s := s.writeMem _ v) h (by decide), readMem_writeMem_self]
  case ready =>
    rw [readMem_producerEvent_of_due (s := s.writeMem _ v) h (by decide), readMem_writeMem_self]

end Sys2Proof.Machine
end

section
/-! PROOFS. What an instruction, and a step that fetches nothing, can do to memory (20_memory.md R37, R45, R47). -/

namespace Sys2Proof.Machine

/-! ### Emitting and scanning -/

/-- What is emitted, and whether the sink accepts it, does not depend on memory, the input or the schedule. -/
theorem emit_beside (cs : List Byte) (e p : State) :
    emit cs (e.beside p) = ((emit cs e).1.beside p, (emit cs e).2) := by
  induction cs generalizing e with
  | nil => rfl
  | cons c cs ih =>
    have hrefuses : (e.beside p).sinkRefuses = e.sinkRefuses := rfl
    have hchar : (e.beside p).emitChar c = (e.emitChar c).beside p := rfl
    simp only [emit, hrefuses, hchar, ih]
    split <;> rfl

/-- One word of PUTS or PUTSP, once read: the end of the service at a zero word, else its characters. The Bool says
whether the scan goes on. -/
def scanWord (chars : Word → List Byte) (w : Word) (s : State) : State × Bool :=
  if w = 0#16 then ({ s with pos := .fetch }, false) else emit (chars w) s

section
variable (chars : Word → List Byte) (hold : Word → Position)

theorem scanWord_beside (w : Word) (e p : State) :
    scanWord chars w (e.beside p) = ((scanWord chars w e).1.beside p, (scanWord chars w e).2) := by
  unfold scanWord
  split
  · rfl
  · exact emit_beside _ e p

theorem scanWord_eq_beside (w : Word) (s : State) : (scanWord chars w s).1 = (scanWord chars w s).1.beside s :=
  congrArg Prod.fst (scanWord_beside chars w s s)

theorem ne_zero_of_scanWord_goes_on {w : Word} {s : State} (h : (scanWord chars w s).2 = true) : w ≠ 0#16 := by
  rintro rfl
  simp [scanWord] at h

/-- A scan reads a word after a turn, and goes on at the next address or ends. -/
theorem scan_succ (n : Nat) (a : Word) (s : State) :
    scan chars hold (n + 1) a s =
      if (scanWord chars (s.turn.readMem a) s.turn).2 then
        scan chars hold n (a + 1#16) (scanWord chars (s.turn.readMem a) s.turn).1
      else (scanWord chars (s.turn.readMem a) s.turn).1 := by
  by_cases hzero : s.turn.readMem a = 0#16
  · simp [scan, scanWord, hzero]
  · simp only [scan, scanWord, if_neg hzero]
    rcases emit (chars (s.turn.readMem a)) s.turn with ⟨t, _ | _⟩ <;> rfl

/-- A scan writes no memory, so with nothing scheduled nothing changes it. -/
theorem scan_mem_of_sched_nil (n : Nat) (a : Word) {s : State} (hs : s.sched = []) :
    (scan chars hold n a s).mem = s.mem := by
  induction n generalizing a s with
  | zero => rfl
  | succ n ih =>
    have htail := scanWord_eq_beside chars (s.readMem a) s
    rw [scan_succ, turn_of_sched_nil hs, htail]
    split
    · exact ih _ hs
    · rfl

end

/-! ### Instructions without a data access -/

/-- Whether an instruction's meaning reads or writes memory. -/
def accessesData : Instr → Bool
  | .ld _ _ | .ldi _ _ | .ldr _ _ _ | .st _ _ | .sti _ _ | .str _ _ _
  | .trapGetc _ | .trapPuts _ | .trapIn _ | .trapPutsp _ => true
  | _ => false

/-- An instruction without a data access does not see memory, the input or the schedule, and leaves them alone. -/
theorem exec_beside {i : Instr} {e t : State} (hi : i.wf = true) (hacc : accessesData i = false)
    (h : exec i e = .next t) (p : State) : exec i (e.beside p) = .next (t.beside p) := by
  cases i
  case ld | ldi | ldr | st | sti | str | trapGetc | trapPuts | trapIn | trapPutsp => nomatch hacc
  case br nzp off =>
    by_cases htaken : branchTaken nzp e.cond = true
    · obtain rfl := Host.Outcome.next.inj ((exec_br_of_taken htaken).symm.trans h)
      exact exec_br_of_taken (s := e.beside p) htaken
    · obtain rfl := Host.Outcome.next.inj ((exec_br_of_not_taken htaken).symm.trans h)
      exact exec_br_of_not_taken (s := e.beside p) htaken
  case trap ign v =>
    obtain rfl := Host.Outcome.next.inj ((exec_trap_of_wf hi e).symm.trans h)
    have hcfg : (e.beside p).cfg = e.cfg := rfl
    rw [exec_trap_of_wf hi, undefinedVector, undefinedVector, hcfg]
    cases e.cfg.undefinedTrap <;> rfl
  all_goals obtain rfl := Host.Outcome.next.inj h
  case trapOut => exact congrArg (fun r => Host.Outcome.next r.1) (emit_beside [lowByte (e.reg 0#3)] e p)
  all_goals rfl

/-- So its next state has the memory, the input and the schedule it started from. -/
theorem next_eq_beside {i : Instr} {s t : State} (hi : i.wf = true) (hacc : accessesData i = false)
    (h : exec i s = .next t) : t = t.beside s :=
  Host.Outcome.next.inj (h.symm.trans (exec_beside hi hacc h s))

theorem readMem_of_not_accessesData {i : Instr} {s t : State} (hi : i.wf = true) (hacc : accessesData i = false)
    (h : exec i s = .next t) (a : Word) : t.readMem a = s.readMem a := by
  rw [next_eq_beside hi hacc h, beside_readMem]

/-! ### Memory but for the stored word and the device words -/

theorem serviceIn_readMem (s : State) {a : Word} (hkbsr : a ≠ Config.kbsr) (hkbdr : a ≠ Config.kbdr) :
    (serviceIn s).readMem a = s.readMem a := by
  have hprompt := emit_frame s.cfg.inPrompt s
  unfold serviceIn
  split <;> rename_i t h <;> rw [h] at hprompt
  · exact ((serviceInAfterPrompt_frame t).mem a hkbsr hkbdr).trans (readMem_congr hprompt.mem a)
  · exact readMem_congr hprompt.mem a

theorem exec_readMem_of_ne_storeAddr {i : Instr} {s t : State} {a : Word} (hi : i.wf = true)
    (h : exec i s = .next t) (haddr : storeAddr i s ≠ some a) (hkbsr : a ≠ Config.kbsr) (hkbdr : a ≠ Config.kbdr) :
    t.readMem a = s.readMem a := by
  cases hacc : accessesData i with
  | false => exact readMem_of_not_accessesData hi hacc h a
  | true =>
    have hturn : s.turn.readMem a = s.readMem a := (turn_producerOnly s).mem a hkbsr hkbdr
    have hturns : s.turn.turn.readMem a = s.readMem a := ((turn_producerOnly s.turn).mem a hkbsr hkbdr).trans hturn
    have hne {ea : Word} (h : some ea ≠ some a) : a ≠ ea := fun e => h (congrArg some e.symm)
    cases i <;> obtain rfl := Host.Outcome.next.inj h
    case ld | ldr => exact hturn
    case ldi => exact hturns
    case st | str => exact (readMem_writeMem_ne _ _ (hne haddr)).trans hturn
    case sti => exact (readMem_writeMem_ne _ _ (hne haddr)).trans hturns
    case trapGetc => exact (serviceGetc_frame s).1.mem a hkbsr hkbdr
    case trapIn => exact serviceIn_readMem s hkbsr hkbdr
    case trapPuts => exact (scan_frame putsChars .puts _ _ s).mem a hkbsr hkbdr
    case trapPutsp => exact (scan_frame putspChars .putsp _ _ s).mem a hkbsr hkbdr
    all_goals nomatch hacc

/-- Settles O26: `exec_readMem_of_ne_storeAddr`, and the frames of the steps that fetch nothing. -/
theorem onlyTheStoredWordAndTheDeviceWordsChange : Obligations.OnlyTheStoredWordAndTheDeviceWordsChange := by
  refine ⟨fun i s t a => exec_readMem_of_ne_storeAddr, fun s t a hfetch h hkbsr hkbdr => ?_⟩
  rcases step_cases h with ⟨hgo, -⟩ | ⟨-, rfl⟩ | ⟨-, rfl⟩ | ⟨-, rfl⟩ | ⟨start, -, rfl⟩ | ⟨start, -, rfl⟩
  · exact absurd hgo hfetch
  · exact (producerEvent_takeEntry_producerOnly s).mem a hkbsr hkbdr
  · exact (waitStep_frame (fun u => (serviceGetc_frame u).1) s).mem a hkbsr hkbdr
  · exact (waitStep_frame serviceInAfterPrompt_frame s).mem a hkbsr hkbdr
  · exact (scan_frame putsChars .puts _ start s).mem a hkbsr hkbdr
  · exact (scan_frame putspChars .putsp _ start s).mem a hkbsr hkbdr

/-! ### Memory with nothing scheduled -/

/-- Settles O27: with nothing scheduled a turn is nothing and a scan writes nothing (`scan_mem_of_sched_nil`). -/
theorem instructionsThatStoreNothingLeaveMemoryAlone : Obligations.InstructionsThatStoreNothingLeaveMemoryAlone := by
  refine ⟨fun i s t hi h hs haddr hgetc hin a => ?instruction, fun s t start hgo hs h a => ?service⟩
  case instruction =>
    cases hacc : accessesData i with
    | false => exact readMem_of_not_accessesData hi hacc h a
    | true =>
      have hturn := turn_of_sched_nil hs
      cases i <;> obtain rfl := Host.Outcome.next.inj h
      case ld | ldr =>
        rw [hturn]
        rfl
      case ldi =>
        rw [hturn, hturn]
        rfl
      case st | sti | str => nomatch haddr
      case trapGetc ign => exact absurd rfl (hgetc ign)
      case trapIn ign => exact absurd rfl (hin ign)
      case trapPuts | trapPutsp => exact readMem_congr (scan_mem_of_sched_nil _ _ _ _ hs) a
      all_goals nomatch hacc
  case service =>
    have hstep : ∃ chars hold, step s = .next (scan chars hold scanBound start s) :=
      hgo.elim (fun hgo => ⟨_, _, step_of_puts hgo⟩) fun hgo => ⟨_, _, step_of_putsp hgo⟩
    obtain ⟨chars, hold, hscan⟩ := hstep
    obtain rfl := Host.Outcome.next.inj (hscan.symm.trans h)
    exact readMem_congr (scan_mem_of_sched_nil chars hold _ _ hs) a

/-! ### A store over the next instruction -/

/-- With nothing scheduled a store is one MemWrite. -/
theorem exec_of_storeSource {i : Instr} {s : State} {sr : RegIdx} {a : Word} (hs : s.sched = [])
    (hsource : storeSource i = some sr) (haddr : storeAddr i s = some a) :
    exec i s = .next (s.writeMem a (s.reg sr)) := by
  have hturn := turn_of_sched_nil hs
  cases i
  case st | str =>
    obtain rfl := Option.some.inj hsource
    obtain rfl := Option.some.inj haddr
    simp only [exec, execSt, execStr, hturn]
  case sti =>
    obtain rfl := Option.some.inj hsource
    obtain rfl := Option.some.inj haddr
    simp only [exec, execSti, hturn]
  all_goals nomatch hsource

/-- Settles O29: the store's step is one MemWrite (`exec_of_storeSource`), and the state after it fetches again. -/
theorem storedWordIsFetchedNext : Obligations.StoredWordIsFetchedNext := by
  intro i s sr hfetch hs hdecode hsource haddr
  have hsched : s.fetched.sched = [] := congrArg List.tail hs
  have hstore : step s = .next (s.fetched.writeMem (s.pc + 1#16) (s.reg sr)) := by
    rw [step_of_fetching hfetch, hdecode]
    exact exec_of_storeSource hsched hsource haddr
  have hread := readMem_writeMem_self s.fetched (s.pc + 1#16) (s.reg sr)
  refine ⟨_, hstore, rfl, hread, ?_⟩
  generalize ht : s.fetched.writeMem (s.pc + 1#16) (s.reg sr) = t at hread ⊢
  have hpc : t.pc = s.pc + 1#16 := by rw [← ht]; rfl
  have htsched : t.sched = [] := by rw [← ht]; exact hsched
  have hnext : t.Fetching := by
    obtain ⟨henabled, hpos, -⟩ := hfetch
    rw [← ht]
    exact ⟨henabled, hpos, by simp [hs]⟩
  rw [step_of_fetching hnext, hpc, hread, State.fetched, State.takeEntry, hpc, htsched, List.tail_nil, ← htsched]

end Sys2Proof.Machine
end

section
/-! PROOFS. Atomicity for the producer (20_memory.md R36, 40_execution_cycle.md R79; D18). An access to a word that is
no device's commutes with a producer event, so the events that fell between an instruction's accesses can be moved past
every access but the one to a device word. -/

namespace Sys2Proof.Machine

/-! ### States that agree -/

theorem Agree.refl (s : State) : Agree s s :=
  ⟨fun _ => rfl, rfl, rfl, fun _ => rfl, ⟨rfl, rfl, rfl, rfl, rfl, rfl, rfl, rfl, rfl⟩⟩

theorem Agree.of_eq {s t : State} (h : s = t) : Agree s t := h ▸ .refl s

theorem SameRest.trans {s t u : State} (h : SameRest s t) (k : SameRest t u) : SameRest s u where
  running := k.running.trans h.running
  fault := k.fault.trans h.fault
  output := k.output.trans h.output
  input := k.input.trans h.input
  readyDue := k.readyDue.trans h.readyDue
  pos := k.pos.trans h.pos
  cfg := k.cfg.trans h.cfg
  sched := k.sched.trans h.sched
  sinkPlan := k.sinkPlan.trans h.sinkPlan

theorem Agree.trans {s t u : State} (h : Agree s t) (k : Agree t u) : Agree s u where
  regs i := (k.regs i).trans (h.regs i)
  cond := k.cond.trans h.cond
  pc := k.pc.trans h.pc
  mem a := (k.mem a).trans (h.mem a)
  rest := h.rest.trans k.rest

theorem readMem_writeMem (s : State) (a b v : Word) :
    (s.writeMem a v).readMem b = if b = a then v else s.readMem b := by
  split
  case isTrue h => rw [h, readMem_writeMem_self]
  case isFalse h => exact readMem_writeMem_ne s v h

theorem Agree.readMem_writeMem_eq {s t : State} (h : Agree s t) (a v b : Word) :
    (t.writeMem a v).readMem b = (s.writeMem a v).readMem b := by
  rw [readMem_writeMem, readMem_writeMem, h.mem b]

/-- Producer events of states that agree lead to states that agree. -/
theorem Agree.producerEvent {s t : State} (h : Agree s t) : Agree (producerEvent s) (producerEvent t) := by
  have hdue' := h.rest.readyDue
  have hnext' := congrArg Input.next h.rest.input
  cases hdue : s.readyDue with
  | true =>
    rw [producerEvent_of_due hdue, producerEvent_of_due (hdue'.trans hdue), kbdReady, kbdReady, h.mem]
    exact ⟨h.regs, h.cond, h.pc, h.readMem_writeMem_eq _ _, { h.rest with readyDue := rfl }⟩
  | false =>
    cases hnext : s.input.next with
    | none =>
      rw [producerEvent_of_none hdue hnext, producerEvent_of_none (hdue'.trans hdue) (hnext'.trans hnext)]
      exact h
    | some next =>
      rw [producerEvent_of_byte hdue hnext, producerEvent_of_byte (hdue'.trans hdue) (hnext'.trans hnext)]
      exact ⟨h.regs, h.cond, h.pc, h.readMem_writeMem_eq _ _, { h.rest with input := rfl, readyDue := rfl }⟩

/-! ### Turns, with the schedule set aside -/

theorem producerEvent_eq_beside (s : State) : producerEvent s = s.beside (producerEvent s) :=
  producerEvent_beside s s

theorem producerEvent_iterate_sched (k : Nat) (s : State) : (producerEvent^[k] s).sched = s.sched := by
  induction k generalizing s with
  | zero => rfl
  | succ k ih => exact (ih _).trans (producerEvent_sched s)

theorem turn_producerEvent_of_sched_nil {s : State} (hs : s.sched = []) : (producerEvent s).turn = producerEvent s :=
  turn_of_sched_nil ((producerEvent_sched s).trans hs)

theorem turn_beside (e p : State) : (e.beside p).turn = e.beside p.turn :=
  drain_comm e.beside (producerEvent_beside e) (fun _ _ => rfl) p.sched p

theorem turn_eq_beside (s : State) : s.turn = s.beside s.turn := turn_beside s s

@[simp] theorem turn_unscheduled (s : State) : s.unscheduled.turn = s.unscheduled := turn_of_sched_nil rfl

theorem drain_unscheduled (l : List Agent) (s : State) :
    ∃ k, (drain l s).unscheduled = producerEvent^[k] s.unscheduled := by
  induction l generalizing s with
  | nil => exact ⟨0, rfl⟩
  | cons agent l ih =>
    cases agent with
    | engine => exact ⟨0, rfl⟩
    | producer =>
      obtain ⟨k, hk⟩ := ih (producerEvent s)
      exact ⟨k + 1, by rw [Function.iterate_succ_apply, producerEvent_unscheduled]; exact hk⟩

/-- From `p` to `q` producer events happened and entries of the schedule were used up, and nothing with nothing
scheduled. -/
structure OnlyEvents (p q : State) : Prop where
  events : ∃ k, q.unscheduled = producerEvent^[k] p.unscheduled
  idle : p.sched = [] → q = p

theorem turn_onlyEvents (s : State) : OnlyEvents s s.turn := ⟨drain_unscheduled s.sched s, turn_of_sched_nil⟩

theorem OnlyEvents.trans {p q r : State} (h : OnlyEvents p q) (k : OnlyEvents q r) : OnlyEvents p r := by
  refine ⟨?_, fun hp => ?_⟩
  · obtain ⟨m, hm⟩ := h.events
    obtain ⟨n, hn⟩ := k.events
    exact ⟨n + m, by rw [hn, hm, Function.iterate_add_apply]⟩
  · have hq := h.idle hp
    rw [k.idle (by rw [hq, hp]), hq]

/-! ### Handlers -/

/-- `f` from `s` does before a producer event what it does after it. -/
def CommutesWithEvent (f : State → State) (s : State) : Prop := Agree (producerEvent (f s)) (f (producerEvent s))

/-- `f` from `s` ends as it would with nothing scheduled, the producer events that fell inside it put before it or
after it. -/
def ActsAtomically (f : State → State) (s : State) : Prop :=
  ∃ before later, Agree (producerEvent^[later] (f (producerEvent^[before] s.unscheduled))) (f s).unscheduled

/-- `f` is the meaning of `i`, and both kinds of atomicity hold of it. -/
structure AtomicHandler (i : Instr) (f : State → State) : Prop where
  exec_eq : ∀ s, exec i s = .next (f s)
  commutes : ∀ s, TouchesNoDevice i s → s.sched = [] → CommutesWithEvent f s
  atomic : ∀ s, TouchesDeviceAtMostOnce i s → ActsAtomically f s

/-! ### Loads and stores -/

/-- A load's access: the word at `ea` into a register and `cond`. -/
def loadTo (dr : RegIdx) (ea : Word) (s : State) : State := s.writeDest dr (s.readMem ea)

/-- A store's access: a register's value to the word at `ea`. -/
def storeFrom (sr : RegIdx) (ea : Word) (s : State) : State := s.writeMem ea (s.reg sr)

/-- What atomicity needs of one data access: it does not depend on the schedule, and at an address that is no device's
it commutes with a producer event. -/
structure DataAccess (g : Word → State → State) : Prop where
  unscheduled : ∀ ea s, (g ea s).unscheduled = g ea s.unscheduled
  commutes : ∀ ea s, ¬ IsDevice ea → Agree (producerEvent (g ea s)) (g ea (producerEvent s))

theorem loadTo_dataAccess (dr : RegIdx) : DataAccess (loadTo dr) where
  unscheduled _ _ := rfl
  commutes ea s hea := .of_eq <| by
    rw [loadTo, loadTo, (producerEvent_producerOnly s).readMem hea]
    exact producerEvent_comm (fun s => s.writeDest dr (State.readMem _ ea)) s rfl rfl rfl fun _ _ => rfl

/-- Writes to two words can be read in either order. -/
theorem readMem_writeMem_comm (s : State) {a a' : Word} (h : a ≠ a') (v v' b : Word) :
    ((s.writeMem a' v').writeMem a v).readMem b = ((s.writeMem a v).writeMem a' v').readMem b := by
  simp only [readMem_writeMem]
  split_ifs with hb hb'
  · exact absurd (hb.symm.trans hb') h
  all_goals rfl

theorem storeFrom_dataAccess (sr : RegIdx) : DataAccess (storeFrom sr) where
  unscheduled _ _ := rfl
  commutes ea s hea := by
    have hkbsr : ea ≠ Config.kbsr := fun e => hea (.inl e)
    have hkbdr : ea ≠ Config.kbdr := fun e => hea (.inr e)
    have hsame : SameRest s s := (Agree.refl s).rest
    cases hdue : s.readyDue with
    | true =>
      rw [producerEvent_of_due hdue, producerEvent_of_due (s := storeFrom sr ea s) hdue, kbdReady, storeFrom,
        readMem_writeMem_ne s _ hkbsr.symm]
      exact ⟨fun _ => rfl, rfl, rfl, readMem_writeMem_comm s hkbsr _ _, { hsame with readyDue := rfl }⟩
    | false =>
      cases hnext : s.input.next with
      | none =>
        rw [producerEvent_of_none hdue hnext, producerEvent_of_none (s := storeFrom sr ea s) hdue hnext]
        exact .refl _
      | some next =>
        rw [producerEvent_of_byte hdue hnext, producerEvent_of_byte (s := storeFrom sr ea s) hdue hnext]
        exact ⟨fun _ => rfl, rfl, rfl, readMem_writeMem_comm s hkbdr _ _,
          { hsame with input := rfl, readyDue := rfl }⟩

/-- The meaning of LD, LDR, ST and STR: one access, after a turn. -/
def directAccess (g : Word → State → State) (address : State → Word) (s : State) : State := g (address s) s.turn

/-- The meaning of LDI and STI: the pointer is read after one turn, the access it names follows after another. -/
def indirectAccess (g : Word → State → State) (address : State → Word) (s : State) : State :=
  g (s.turn.readMem (address s)) s.turn.turn

section
variable {g : Word → State → State} {address : State → Word} {s : State}
  (hg : DataAccess g) (haddress : ∀ e p, address (e.beside p) = address e)
include hg

theorem DataAccess.commutes_iterate {ea : Word} (hea : ¬ IsDevice ea) (k : Nat) (s : State) :
    Agree (producerEvent^[k] (g ea s)) (g ea (producerEvent^[k] s)) := by
  induction k with
  | zero => exact .refl _
  | succ k ih =>
    rw [Function.iterate_succ_apply', Function.iterate_succ_apply']
    exact ih.producerEvent.trans (hg.commutes ea _ hea)

include haddress

theorem directAccess_commutes (hs : s.sched = []) (hea : ¬ IsDevice (address s)) :
    CommutesWithEvent (directAccess g address) s := by
  have haddr : address (producerEvent s) = address s := by rw [producerEvent_eq_beside, haddress]
  have hturn := turn_producerEvent_of_sched_nil hs
  unfold CommutesWithEvent directAccess
  rw [haddr, hturn, turn_of_sched_nil hs]
  exact hg.commutes _ s hea

theorem indirectAccess_commutes (hs : s.sched = []) (hptr : ¬ IsDevice (address s))
    (hea : ¬ IsDevice (s.readMem (address s))) : CommutesWithEvent (indirectAccess g address) s := by
  have haddr : address (producerEvent s) = address s := by rw [producerEvent_eq_beside, haddress]
  have hturn := turn_producerEvent_of_sched_nil hs
  unfold CommutesWithEvent indirectAccess
  rw [haddr, hturn, hturn, turn_of_sched_nil hs, turn_of_sched_nil hs, (producerEvent_producerOnly s).readMem hptr]
  exact hg.commutes _ s hea

/-- With one access, at a device word or not, all events fall before it. -/
theorem directAccess_actsAtomically (s : State) : ActsAtomically (directAccess g address) s := by
  obtain ⟨k, hk⟩ := (turn_onlyEvents s).events
  have haddr : address s.turn.unscheduled = address s := by rw [turn_eq_beside, unscheduled_beside, haddress]
  refine ⟨k, 0, .of_eq ?_⟩
  calc directAccess g address (producerEvent^[k] s.unscheduled)
      = directAccess g address s.turn.unscheduled := by rw [hk]
    _ = g (address s) s.turn.unscheduled := by rw [directAccess, haddr, turn_unscheduled]
    _ = (directAccess g address s).unscheduled := (hg.unscheduled _ _).symm

/-- The events between the two accesses move behind the second one if the pointer is a device word, and before the
first one if it is not. -/
theorem indirectAccess_actsAtomically (honce : ¬ (IsDevice (address s) ∧ IsDevice (s.turn.readMem (address s)))) :
    ActsAtomically (indirectAccess g address) s := by
  obtain ⟨k, hk⟩ := (turn_onlyEvents s).events
  obtain ⟨l, hl⟩ := (turn_onlyEvents s.turn).events
  have haddr : address s.turn.unscheduled = address s := by rw [turn_eq_beside, unscheduled_beside, haddress]
  have haddr' : address s.turn.turn.unscheduled = address s := by
    rw [turn_eq_beside s.turn, unscheduled_beside, turn_eq_beside s, beside_beside, haddress]
  have hresult := hg.unscheduled (s.turn.readMem (address s)) s.turn.turn
  by_cases hptr : IsDevice (address s)
  · have hea : ¬ IsDevice (s.turn.readMem (address s)) := fun h => honce ⟨hptr, h⟩
    refine ⟨k, l, ?_⟩
    rw [← hk, indirectAccess, indirectAccess, haddr, turn_unscheduled, turn_unscheduled, unscheduled_readMem, hresult,
      hl]
    exact hg.commutes_iterate hea l _
  · refine ⟨l + k, 0, .of_eq ?_⟩
    have hread : s.turn.turn.readMem (address s) = s.turn.readMem (address s) :=
      (turn_producerOnly s.turn).readMem hptr
    rw [Function.iterate_add_apply, ← hk, ← hl, Function.iterate_zero_apply, indirectAccess, indirectAccess, haddr',
      turn_unscheduled, turn_unscheduled, unscheduled_readMem, hread, hresult]

end

/-! ### Strings and the device words -/

/-- A zero word ends the string at `a` after `m` words, and none of its words, the zero word too, is a device's. -/
structure DeviceFreeString (s : State) (a : Word) (m : Nat) : Prop where
  zero : s.readMem (a + BitVec.ofNat 16 m) = 0#16
  free : ∀ k ≤ m, ¬ IsDevice (a + BitVec.ofNat 16 k)

/-- A zero word that is no device's ends the string at `a` after `m` words, at most one of which is a device's. -/
structure OneDeviceString (s : State) (a : Word) (m : Nat) : Prop where
  zero : s.readMem (a + BitVec.ofNat 16 m) = 0#16
  zero_free : ¬ IsDevice (a + BitVec.ofNat 16 m)
  once : ∀ j, j < m → ∀ k, k < m → IsDevice (a + BitVec.ofNat 16 j) → IsDevice (a + BitVec.ofNat 16 k) → j = k

section
variable {s t : State} {a : Word} {m : Nat}

theorem DeviceFreeString.first_free (h : DeviceFreeString s a m) : ¬ IsDevice a := by
  simpa using h.free 0 (Nat.zero_le m)

theorem DeviceFreeString.exists_succ (h : DeviceFreeString s a m) (hne : s.readMem a ≠ 0#16) : ∃ j, m = j + 1 :=
  Nat.exists_eq_succ_of_ne_zero fun hm => hne (by simpa [hm] using h.zero)

theorem OneDeviceString.exists_succ (h : OneDeviceString s a m) (hne : s.turn.readMem a ≠ 0#16) : ∃ j, m = j + 1 :=
  Nat.exists_eq_succ_of_ne_zero fun hm => by
    obtain ⟨hzero, hfree, -⟩ := h
    simp only [hm, BitVec.add_zero] at hzero hfree
    exact hne (((turn_producerOnly s).readMem hfree).trans hzero)

variable (hmem : ∀ b, ¬ IsDevice b → t.readMem b = s.readMem b)
include hmem

theorem DeviceFreeString.tail (h : DeviceFreeString s a (m + 1)) : DeviceFreeString t (a + 1#16) m where
  zero := by rw [next_address, hmem _ (h.free _ le_rfl), h.zero]
  free k hk := by
    rw [next_address]
    exact h.free _ (Nat.succ_le_succ hk)

theorem OneDeviceString.tail (h : OneDeviceString s a (m + 1)) : OneDeviceString t (a + 1#16) m where
  zero := by rw [next_address, hmem _ h.zero_free, h.zero]
  zero_free := by
    rw [next_address]
    exact h.zero_free
  once j hj k hk hdj hdk := by
    rw [next_address] at hdj hdk
    exact Nat.succ.inj (h.once _ (Nat.succ_lt_succ hj) _ (Nat.succ_lt_succ hk) hdj hdk)

/-- After its one device word a string has none. -/
theorem OneDeviceString.tail_free (h : OneDeviceString s a (m + 1)) (ha : IsDevice a) :
    DeviceFreeString t (a + 1#16) m where
  zero := (h.tail hmem).zero
  free k hk hdk := by
    rw [next_address] at hdk
    rcases Nat.lt_or_eq_of_le hk with hk | rfl
    · exact nomatch h.once 0 m.succ_pos (k + 1) (Nat.succ_lt_succ hk) (by simpa using ha) hdk
    · exact h.zero_free hdk

end

/-! ### The string services -/

section
variable (chars : Word → List Byte) (hold : Word → Position)

/-- The first word of a scan, on the two shares of a state: the producer's gives the word, the engine's what is done
with it. -/
theorem scan_succ_beside {n : Nat} {a w : Word} {e p : State} (hword : p.turn.readMem a = w) :
    scan chars hold (n + 1) a (e.beside p) =
      if (scanWord chars w e).2 then scan chars hold n (a + 1#16) ((scanWord chars w e).1.beside p.turn)
      else (scanWord chars w e).1.beside p.turn := by
  rw [scan_succ, turn_beside, beside_readMem, hword, scanWord_beside]

theorem scanWord_unscheduled (w : Word) (s : State) :
    (scanWord chars w s).1.unscheduled = (scanWord chars w s).1.beside s.unscheduled := by
  rw [scanWord_eq_beside chars w s]
  rfl

/-- The first word of a scan with nothing scheduled, `j` producer events having happened before it: those events can be
put after it. -/
theorem scan_succ_after_events {n j : Nat} {a w : Word} {s : State}
    (hword : (producerEvent^[j] s.unscheduled).readMem a = w) :
    scan chars hold (n + 1) a (producerEvent^[j] s.unscheduled) =
      if (scanWord chars w s).2 then
        scan chars hold n (a + 1#16) (producerEvent^[j] (scanWord chars w s).1.unscheduled)
      else producerEvent^[j] (scanWord chars w s).1.unscheduled := by
  have hshares : producerEvent^[j] s.unscheduled = s.beside (producerEvent^[j] s.unscheduled) :=
    producerEvent_iterate_beside j s s.unscheduled
  have hturn : (producerEvent^[j] s.unscheduled).turn = producerEvent^[j] s.unscheduled :=
    turn_of_sched_nil (producerEvent_iterate_sched j s.unscheduled)
  rw [hshares, scan_succ_beside chars hold (w := w) (by rw [hturn, hword]), hturn, scanWord_unscheduled,
    producerEvent_iterate_beside]

/-- A scan over words that are no device's emits what it would with nothing scheduled, and leaves to the producer's
share what the events that fell inside it made of it. -/
theorem scan_beside {n m : Nat} {a : Word} {e p : State} (hm : m < n) (he : DeviceFreeString e a m)
    (hp : ∀ b, ¬ IsDevice b → p.readMem b = e.readMem b) :
    ∃ q, OnlyEvents p q ∧ scan chars hold n a (e.beside p) = (scan chars hold n a e.unscheduled).beside q := by
  induction n generalizing m a e p with
  | zero => exact absurd hm (Nat.not_lt_zero m)
  | succ n ih =>
    have hread (b : Word) (hb : ¬ IsDevice b) : p.turn.readMem b = e.readMem b :=
      ((turn_producerOnly p).readMem hb).trans (hp b hb)
    have hmem (b : Word) : (scanWord chars (e.readMem a) e).1.readMem b = e.readMem b := by
      rw [scanWord_eq_beside, beside_readMem]
    have hscan : scan chars hold (n + 1) a e.unscheduled = _ :=
      scan_succ_after_events chars hold (j := 0) (w := e.readMem a) (s := e) rfl
    rw [scan_succ_beside chars hold (hread a he.first_free), hscan]
    cases hgo : (scanWord chars (e.readMem a) e).2 with
    | false => exact ⟨p.turn, turn_onlyEvents p, rfl⟩
    | true =>
      obtain ⟨m, rfl⟩ := he.exists_succ (ne_zero_of_scanWord_goes_on chars hgo)
      obtain ⟨q, hq, hrest⟩ := ih (p := p.turn) (Nat.lt_of_succ_lt_succ hm) (he.tail fun b _ => hmem b)
        fun b hb => (hread b hb).trans (hmem b).symm
      exact ⟨q, (turn_onlyEvents p).trans hq, hrest⟩

theorem scan_beside_of_sched_nil {n m : Nat} {a : Word} {e p : State} (hs : p.sched = []) (hm : m < n)
    (he : DeviceFreeString e a m) (hp : ∀ b, ¬ IsDevice b → p.readMem b = e.readMem b) :
    scan chars hold n a (e.beside p) = (scan chars hold n a e.unscheduled).beside p := by
  obtain ⟨q, hq, hscan⟩ := scan_beside chars hold hm he hp
  rw [hscan, hq.idle hs]

/-- Such a scan commutes with a producer event. -/
theorem scan_commutes {n m : Nat} {a : Word} {s : State} (hs : s.sched = []) (hm : m < n)
    (h : DeviceFreeString s a m) : CommutesWithEvent (scan chars hold n a) s := by
  have hscan : scan chars hold n a s = _ := scan_beside_of_sched_nil chars hold (p := s) hs hm h fun _ _ => rfl
  have hscan' := scan_beside_of_sched_nil chars hold ((producerEvent_sched s).trans hs) hm h
    fun _ => (producerEvent_producerOnly s).readMem
  rw [← producerEvent_eq_beside] at hscan'
  exact .of_eq (by rw [hscan, hscan', producerEvent_beside])

/-- The events that fell inside such a scan can be put after it. -/
theorem scan_eq_events_after {n m : Nat} {a : Word} {s : State} (hm : m < n) (h : DeviceFreeString s a m) :
    ∃ k, producerEvent^[k] (scan chars hold n a s.unscheduled) = (scan chars hold n a s).unscheduled := by
  obtain ⟨q, ⟨⟨k, hk⟩, -⟩, hscan⟩ := scan_beside chars hold (p := s) hm h fun _ _ => rfl
  have hquiet : scan chars hold n a s.unscheduled = _ :=
    scan_beside_of_sched_nil chars hold (p := s.unscheduled) rfl hm h fun _ _ => rfl
  refine ⟨k, ?_⟩
  calc producerEvent^[k] (scan chars hold n a s.unscheduled)
      = (scan chars hold n a s.unscheduled).beside (producerEvent^[k] s.unscheduled) := by
        rw [← producerEvent_iterate_beside, ← hquiet]
    _ = (scan chars hold n a s).unscheduled := by rw [← hk, ← unscheduled_beside, ← hscan, beside_self]

/-- The events up to the scan's one access to a device word are put before it, those after that access behind it. -/
theorem scan_actsAtomically {n m : Nat} {a : Word} {s : State} (hm : m < n) (h : OneDeviceString s a m) :
    ActsAtomically (scan chars hold n a) s := by
  induction n generalizing m a s with
  | zero => exact absurd hm (Nat.not_lt_zero m)
  | succ n ih =>
    obtain ⟨k, hk⟩ := (turn_onlyEvents s).events
    have hbefore (j : Nat) (hword : (producerEvent^[j] s.turn.unscheduled).readMem a = s.turn.readMem a) := by
      have hscan := scan_succ_after_events chars hold (n := n) hword
      rwa [hk, ← Function.iterate_add_apply] at hscan
    have hmem (b : Word) (hb : ¬ IsDevice b) :
        (scanWord chars (s.turn.readMem a) s.turn).1.readMem b = s.readMem b := by
      rw [scanWord_eq_beside, beside_readMem, (turn_producerOnly s).readMem hb]
    rw [ActsAtomically, scan_succ]
    cases hgo : (scanWord chars (s.turn.readMem a) s.turn).2 with
    | false => exact ⟨0 + k, 0, .of_eq (by rw [hbefore 0 rfl, hgo]; rfl)⟩
    | true =>
      obtain ⟨m, rfl⟩ := h.exists_succ (ne_zero_of_scanWord_goes_on chars hgo)
      have hm' := Nat.lt_of_succ_lt_succ hm
      rw [hgo] at hbefore
      by_cases ha : IsDevice a
      · obtain ⟨l, hl⟩ := scan_eq_events_after chars hold hm' (h.tail_free hmem ha)
        exact ⟨0 + k, l, .of_eq (by rw [hbefore 0 rfl]; exact hl)⟩
      · obtain ⟨j, l, hl⟩ := ih hm' (h.tail hmem)
        exact ⟨j + k, l, by rw [hbefore j ((producerEvent_iterate_producerOnly j _).readMem ha)]; exact hl⟩

/-- The meaning of PUTS and PUTSP: a scan from `x[0]` on. -/
def scanFromR0 (s : State) : State := scan chars hold scanBound (s.reg 0#3) s

theorem scanFromR0_commutes {m : Nat} {s : State} (hs : s.sched = []) (hm : m < scanBound)
    (h : DeviceFreeString s (s.reg 0#3) m) : CommutesWithEvent (scanFromR0 chars hold) s := by
  have hreg : (producerEvent s).reg 0#3 = s.reg 0#3 := reg_congr (producerEvent_producerOnly s).regs _
  rw [CommutesWithEvent, scanFromR0, scanFromR0, hreg]
  exact scan_commutes chars hold hs hm h

theorem scanFromR0_actsAtomically {m : Nat} {s : State} (hm : m < scanBound)
    (h : OneDeviceString s (s.reg 0#3) m) : ActsAtomically (scanFromR0 chars hold) s := by
  obtain ⟨k, l, hagree⟩ := scan_actsAtomically chars hold hm h
  have hreg : (producerEvent^[k] s.unscheduled).reg 0#3 = s.reg 0#3 :=
    reg_congr (producerEvent_iterate_producerOnly k s.unscheduled).regs _
  refine ⟨k, l, ?_⟩
  rw [scanFromR0, scanFromR0, hreg]
  exact hagree

end

/-! ### The instructions -/

theorem atomicHandler_of_directAccess {i : Instr} {g : Word → State → State} {address : State → Word}
    (hg : DataAccess g) (haddress : ∀ e p, address (e.beside p) = address e)
    (hexec : ∀ s, exec i s = .next (directAccess g address s))
    (htouch : ∀ s, TouchesNoDevice i s → ¬ IsDevice (address s)) : AtomicHandler i (directAccess g address) where
  exec_eq := hexec
  commutes s h hs := directAccess_commutes hg haddress hs (htouch s h)
  atomic s _ := directAccess_actsAtomically hg haddress s

theorem atomicHandler_of_indirectAccess {i : Instr} {g : Word → State → State} {address : State → Word}
    (hg : DataAccess g) (haddress : ∀ e p, address (e.beside p) = address e)
    (hexec : ∀ s, exec i s = .next (indirectAccess g address s))
    (htouch : ∀ s, TouchesNoDevice i s → ¬ IsDevice (address s) ∧ ¬ IsDevice (s.readMem (address s)))
    (honce : ∀ s, TouchesDeviceAtMostOnce i s → ¬ (IsDevice (address s) ∧ IsDevice (s.turn.readMem (address s)))) :
    AtomicHandler i (indirectAccess g address) where
  exec_eq := hexec
  commutes s h hs := indirectAccess_commutes hg haddress hs (htouch s h).1 (htouch s h).2
  atomic s h := indirectAccess_actsAtomically hg haddress (honce s h)

theorem atomicHandler_of_scan {i : Instr} {chars : Word → List Byte} {hold : Word → Position}
    (hexec : ∀ s, exec i s = .next (scanFromR0 chars hold s))
    (htouch : ∀ s, TouchesNoDevice i s → ∃ m < scanBound, DeviceFreeString s (s.reg 0#3) m)
    (honce : ∀ s, TouchesDeviceAtMostOnce i s → ∃ m < scanBound, OneDeviceString s (s.reg 0#3) m) :
    AtomicHandler i (scanFromR0 chars hold) where
  exec_eq := hexec
  commutes s h hs :=
    have ⟨_, hm, hstring⟩ := htouch s h
    scanFromR0_commutes chars hold hs hm hstring
  atomic s h :=
    have ⟨_, hm, hstring⟩ := honce s h
    scanFromR0_actsAtomically chars hold hm hstring

theorem exists_atomicHandler {i : Instr} (hacc : accessesData i = true) (hgetc : ∀ ign, i ≠ .trapGetc ign)
    (hin : ∀ ign, i ≠ .trapIn ign) : ∃ f, AtomicHandler i f := by
  cases i
  case ld dr off =>
    exact ⟨_, atomicHandler_of_directAccess (address := eaPc off) (loadTo_dataAccess dr) (fun _ _ => rfl)
      (fun _ => rfl) fun _ => id⟩
  case ldr dr base off =>
    exact ⟨_, atomicHandler_of_directAccess (address := eaBase base off) (loadTo_dataAccess dr) (fun _ _ => rfl)
      (fun _ => rfl) fun _ => id⟩
  case st sr off =>
    exact ⟨_, atomicHandler_of_directAccess (address := eaPc off) (storeFrom_dataAccess sr) (fun _ _ => rfl)
      (fun s => by simp [exec, execSt, directAccess, storeFrom]) fun _ => id⟩
  case str sr base off =>
    exact ⟨_, atomicHandler_of_directAccess (address := eaBase base off) (storeFrom_dataAccess sr) (fun _ _ => rfl)
      (fun s => by simp [exec, execStr, directAccess, storeFrom]) fun _ => id⟩
  case ldi dr off =>
    exact ⟨_, atomicHandler_of_indirectAccess (address := eaPc off) (loadTo_dataAccess dr) (fun _ _ => rfl)
      (fun _ => rfl) (fun _ => id) fun _ => id⟩
  case sti sr off =>
    exact ⟨_, atomicHandler_of_indirectAccess (address := eaPc off) (storeFrom_dataAccess sr) (fun _ _ => rfl)
      (fun s => by simp [exec, execSti, indirectAccess, storeFrom]) (fun _ => id) fun _ => id⟩
  case trapPuts | trapPutsp =>
    exact ⟨_, atomicHandler_of_scan (fun _ => rfl) (fun _ ⟨m, hm, hz, hd⟩ => ⟨m, hm, hz, hd⟩)
      fun _ ⟨m, hm, hz, hzd, honce⟩ => ⟨m, hm, hz, hzd, honce⟩⟩
  case trapGetc ign => exact absurd rfl (hgetc ign)
  case trapIn ign => exact absurd rfl (hin ign)
  all_goals nomatch hacc

/-- Settles O28: an instruction with data accesses has an `AtomicHandler`; one without leaves the producer's share to
the producer (`exec_beside`). -/
theorem singleAccessInstructionsAreAtomicForTheProducer :
    Obligations.SingleAccessInstructionsAreAtomicForTheProducer := by
  refine ⟨fun i s t hi htouch hs h => ?commutes, fun i s t hi honce h => ?atomic⟩
  case commutes =>
    cases hacc : accessesData i with
    | false =>
      refine ⟨_, (congrArg (exec i) (producerEvent_eq_beside s)).trans (exec_beside hi hacc h _), .of_eq ?_⟩
      conv_lhs => rw [next_eq_beside hi hacc h]
      exact producerEvent_beside t s
    | true =>
      obtain ⟨f, hf⟩ := exists_atomicHandler hacc (fun _ hi => by rwa [hi] at htouch)
        fun _ hi => by rwa [hi] at htouch
      obtain rfl := Host.Outcome.next.inj ((hf.exec_eq s).symm.trans h)
      exact ⟨_, hf.exec_eq _, hf.commutes s htouch hs⟩
  case atomic =>
    cases hacc : accessesData i with
    | false =>
      refine ⟨0, 0, _, exec_beside hi hacc h s.unscheduled, .of_eq ?_⟩
      exact (congrArg State.unscheduled (next_eq_beside hi hacc h)).symm
    | true =>
      obtain ⟨f, hf⟩ := exists_atomicHandler hacc (fun _ hi => by rwa [hi] at honce)
        fun _ hi => by rwa [hi] at honce
      obtain rfl := Host.Outcome.next.inj ((hf.exec_eq s).symm.trans h)
      obtain ⟨before, later, hagree⟩ := hf.atomic s honce
      exact ⟨before, later, _, hf.exec_eq _, hagree⟩

end Sys2Proof.Machine
end

section
/-! PROOFS. The decoder against the encoder, and against what an instruction does (30_encoding.md R53, R55, R56, R63).
Field by field: a word put together from fields gives those fields back, and words that agree on the bits of a field
agree on the field. -/

namespace Sys2Proof

/-! ### The fields of a word put together from fields -/

theorem append_eq_append_iff {n m : Nat} {x x' : BitVec n} {y y' : BitVec m} :
    x ++ y = x' ++ y' ↔ x = x' ∧ y = y' := by
  refine ⟨fun h => ?_, fun ⟨hx, hy⟩ => hx ▸ hy ▸ rfl⟩
  have hy : y = y' := by
    rw [← BitVec.extractLsb'_append_eq_right (a := x) (b := y), h, BitVec.extractLsb'_append_eq_right]
  exact ⟨(BitVec.append_left_inj y').mp (hy ▸ h), hy⟩

section
variable {w : Word} {op : BitVec 4}

theorem fields_of_eq_regOff9 {r : BitVec 3} {off : BitVec 9} (h : w = op ++ r ++ off) :
    Field.opcode w = op ∧ Field.r11_9 w = r ∧ Field.off9 w = off := by
  simpa only [append_eq_append_iff, and_assoc] using (fields_regOff9 w).trans h

theorem fields_of_eq_regRegOff6 {r r' : BitVec 3} {off : BitVec 6} (h : w = op ++ r ++ r' ++ off) :
    Field.opcode w = op ∧ Field.r11_9 w = r ∧ Field.r8_6 w = r' ∧ Field.off6 w = off := by
  simpa only [append_eq_append_iff, and_assoc] using (fields_regRegOff6 w).trans h

theorem fields_of_eq_regRegImm5 {r r' : BitVec 3} {mode : BitVec 1} {imm : BitVec 5}
    (h : w = op ++ r ++ r' ++ mode ++ imm) :
    Field.opcode w = op ∧ Field.r11_9 w = r ∧ Field.r8_6 w = r' ∧ Field.mode5 w = mode ∧ Field.imm5 w = imm := by
  simpa only [append_eq_append_iff, and_assoc] using (fields_regRegImm5 w).trans h

theorem fields_of_eq_regRegReg {r r' r'' : BitVec 3} {mode : BitVec 1} {ign : BitVec 2}
    (h : w = op ++ r ++ r' ++ mode ++ ign ++ r'') :
    Field.opcode w = op ∧ Field.r11_9 w = r ∧ Field.r8_6 w = r' ∧ Field.mode5 w = mode ∧ Field.ign4_3 w = ign ∧
      Field.r2_0 w = r'' := by
  simpa only [append_eq_append_iff, and_assoc] using (fields_regRegReg w).trans h

theorem fields_of_eq_base {mode : BitVec 1} {ignHi : BitVec 2} {base : BitVec 3} {ignLo : BitVec 6}
    (h : w = op ++ mode ++ ignHi ++ base ++ ignLo) :
    Field.opcode w = op ∧ Field.mode11 w = mode ∧ Field.ign10_9 w = ignHi ∧ Field.r8_6 w = base ∧
      Field.off6 w = ignLo := by
  simpa only [append_eq_append_iff, and_assoc] using (fields_base w).trans h

theorem fields_of_eq_off11 {mode : BitVec 1} {off : BitVec 11} (h : w = op ++ mode ++ off) :
    Field.opcode w = op ∧ Field.mode11 w = mode ∧ Field.off11 w = off := by
  simpa only [append_eq_append_iff, and_assoc] using (fields_off11 w).trans h

theorem fields_of_eq_ignored {ign : BitVec 12} (h : w = op ++ ign) : Field.opcode w = op ∧ Field.ign11_0 w = ign := by
  simpa only [append_eq_append_iff] using (fields_ignored w).trans h

theorem fields_of_eq_vector {ign : BitVec 4} {v : BitVec 8} (h : w = op ++ ign ++ v) :
    Field.opcode w = op ∧ Field.ign11_8 w = ign ∧ Field.vect8 w = v := by
  simpa only [append_eq_append_iff, and_assoc] using (fields_vector w).trans h

end

/-! ### Decode after encode -/

theorem decode_of_opcode_trap {w : Word} (hop : Field.opcode w = 0xF#4) :
    decode w = decodeTrap (Field.ign11_8 w) (Field.vect8 w) := by
  rw [decode, hop]
  rfl

theorem decode_trapWord (ign : BitVec 4) (v : BitVec 8) : decode (0xF#4 ++ ign ++ v) = decodeTrap ign v := by
  obtain ⟨hop, hign, hv⟩ := fields_of_eq_vector (rfl : 0xF#4 ++ ign ++ v = _)
  rw [decode_of_opcode_trap hop, hign, hv]

/-- A vector no service answers to is left to the TRAP row. -/
theorem decodeTrap_of_wf {ign : BitVec 4} {v : BitVec 8} (h : (Instr.trap ign v).wf = true) :
    decodeTrap ign v = .trap ign v := by
  simp only [Instr.wf, definedVector, Bool.not_eq_true', Bool.or_eq_false_iff, beq_eq_false_iff_ne] at h
  simp only [decodeTrap, h, if_false]

theorem decode_encode {i : Instr} (hi : i.wf = true) : decode (encode i) = i := by
  generalize hw : encode i = w
  cases i
  case br | ld | st | ldi | sti | lea =>
    obtain ⟨hop, hr, hoff⟩ := fields_of_eq_regOff9 hw.symm
    simp only [decode, hop, hr, hoff]
  case ldr | str | not | jmp =>
    obtain ⟨hop, hr, hr', hoff⟩ := fields_of_eq_regRegOff6 hw.symm
    simp only [decode, hop, hr, hr', hoff]
  case addImm | andImm =>
    obtain ⟨hop, hr, hr', hmode, himm⟩ := fields_of_eq_regRegImm5 hw.symm
    simp [decode, hop, hr, hr', hmode, himm]
  case addReg | andReg =>
    obtain ⟨hop, hr, hr', hmode, hign, hr''⟩ := fields_of_eq_regRegReg hw.symm
    simp [decode, hop, hr, hr', hmode, hign, hr'']
  case jsrr =>
    obtain ⟨hop, hmode, hhi, hbase, hlo⟩ := fields_of_eq_base hw.symm
    simp [decode, hop, hmode, hhi, hbase, hlo]
  case jsr =>
    obtain ⟨hop, hmode, hoff⟩ := fields_of_eq_off11 hw.symm
    simp [decode, hop, hmode, hoff]
  case rti | res =>
    obtain ⟨hop, hign⟩ := fields_of_eq_ignored hw.symm
    simp only [decode, hop, hign]
  case trap ign v =>
    rw [← hw, encode, decode_trapWord, decodeTrap_of_wf hi]
  case trapGetc | trapOut | trapPuts | trapIn | trapPutsp | trapHalt =>
    rw [← hw, encode, decode_trapWord]
    rfl

/-- Settles O1: each form's word gives back the form's fields, so the decoder takes the form's own row. -/
theorem decodeOfEncodeIsTheInstruction : Obligations.DecodeOfEncodeIsTheInstruction := fun _ => decode_encode

/-- Settles O2: the decoder's answer is well-formed, and its word is the word that was read. -/
theorem encodeOfDecodeIsTheWord : Obligations.EncodeOfDecodeIsTheWord := fun w => ⟨wf_decode w, encode_decode w⟩

/-- Settles O3: ten fixed words, computed. -/
theorem workedEncodingsDecode : Obligations.WorkedEncodingsDecode := by
  unfold Obligations.WorkedEncodingsDecode
  decide

end Sys2Proof
end

section
/-! PROOFS. What an instruction's effect depends on of its word (30_encoding.md R56, R57): two words that agree on the
bits their form reads differ only in what `exec` hands to no handler; a reserved opcode's fault record keeps the whole
word. -/

namespace Sys2Proof.Machine

/-! ### Ignored bits -/

section
variable {w w' : Word}

/-- Words that agree under a mask agree on a field all of whose bits are in the mask. -/
theorem extractLsb'_eq_of_and_eq {m : Word} (h : w &&& m = w' &&& m) {l n : Nat}
    (hm : m.extractLsb' l n = BitVec.allOnes n) : w'.extractLsb' l n = w.extractLsb' l n := by
  simpa only [BitVec.extractLsb'_and, hm, BitVec.and_allOnes] using (congrArg (BitVec.extractLsb' l n) h).symm

theorem eq_of_and_fullMask_eq (h : w &&& 0xFFFF#16 = w' &&& 0xFFFF#16) : w' = w := by
  simpa only [BitVec.extractLsb'_eq_self] using extractLsb'_eq_of_and_eq h (l := 0) (n := 16) (by decide)

end

/-! ### TRAP's ignored bits -/

/-- The rows that refine TRAP mean what TRAP's dispatch by vector means. -/
theorem exec_decodeTrap (ign : BitVec 4) (v : BitVec 8) (s : State) :
    exec (decodeTrap ign v) s = execTrap ign v s := by
  unfold decodeTrap execTrap
  split_ifs <;> simp only [exec, execTrap, *] <;> rfl

/-- TRAP reads its ignored bits only for the record of an undefined vector that faults. -/
theorem execTrap_congr_ign {v : BitVec 8} {s : State} (h : s.cfg.undefinedTrap = .noop ∨ definedVector v = true)
    (ign ign' : BitVec 4) : execTrap ign v s = execTrap ign' v s := by
  rcases h with hnoop | hdefined
  · simp only [execTrap, undefinedVector, hnoop]
  · simp only [definedVector, Bool.or_eq_true, beq_iff_eq] at hdefined
    obtain (((((rfl | rfl) | rfl) | rfl) | rfl) | rfl) := hdefined <;> rfl

/-! ### The forms with ignored bits -/

section
variable {w w' : Word}

theorem exec_decode_congr_regMode (h : w &&& 0xFFE7#16 = w' &&& 0xFFE7#16)
    (hop : Field.opcode w = 1#4 ∨ Field.opcode w = 5#4) (hmode : Field.mode5 w = 0#1) (s : State) :
    exec (decode w) s = exec (decode w') s := by
  have hop' : Field.opcode w' = Field.opcode w := extractLsb'_eq_of_and_eq h (by decide)
  have hmode' : Field.mode5 w' = Field.mode5 w := extractLsb'_eq_of_and_eq h (by decide)
  have hdr : Field.r11_9 w' = Field.r11_9 w := extractLsb'_eq_of_and_eq h (by decide)
  have hsr1 : Field.r8_6 w' = Field.r8_6 w := extractLsb'_eq_of_and_eq h (by decide)
  have hsr2 : Field.r2_0 w' = Field.r2_0 w := extractLsb'_eq_of_and_eq h (by decide)
  rcases hop with hop | hop <;> simp only [decode, hop', hop, hmode', hmode, if_true, hdr, hsr1, hsr2] <;> rfl

theorem exec_decode_congr_jsrr (h : w &&& 0xF9C0#16 = w' &&& 0xF9C0#16) (hop : Field.opcode w = 4#4)
    (hmode : Field.mode11 w = 0#1) (s : State) : exec (decode w) s = exec (decode w') s := by
  have hop' : Field.opcode w' = Field.opcode w := extractLsb'_eq_of_and_eq h (by decide)
  have hmode' : Field.mode11 w' = Field.mode11 w := extractLsb'_eq_of_and_eq h (by decide)
  have hbase : Field.r8_6 w' = Field.r8_6 w := extractLsb'_eq_of_and_eq h (by decide)
  simp only [decode, hop', hop, hmode', hmode, if_true, hbase]
  rfl

theorem exec_decode_congr_not (h : w &&& 0xFFC0#16 = w' &&& 0xFFC0#16) (hop : Field.opcode w = 9#4) (s : State) :
    exec (decode w) s = exec (decode w') s := by
  have hop' : Field.opcode w' = Field.opcode w := extractLsb'_eq_of_and_eq h (by decide)
  have hdr : Field.r11_9 w' = Field.r11_9 w := extractLsb'_eq_of_and_eq h (by decide)
  have hsr : Field.r8_6 w' = Field.r8_6 w := extractLsb'_eq_of_and_eq h (by decide)
  simp only [decode, hop', hop, hdr, hsr]
  rfl

theorem exec_decode_congr_jmp (h : w &&& 0xF1C0#16 = w' &&& 0xF1C0#16) (hop : Field.opcode w = 12#4) (s : State) :
    exec (decode w) s = exec (decode w') s := by
  have hop' : Field.opcode w' = Field.opcode w := extractLsb'_eq_of_and_eq h (by decide)
  have hbase : Field.r8_6 w' = Field.r8_6 w := extractLsb'_eq_of_and_eq h (by decide)
  simp only [decode, hop', hop, hbase]
  rfl

theorem exec_decode_congr_trap (h : w &&& 0xF0FF#16 = w' &&& 0xF0FF#16) (hop : Field.opcode w = 15#4) {s : State}
    (hs : s.cfg.undefinedTrap = .noop ∨ definedVector (Field.vect8 w) = true) :
    exec (decode w) s = exec (decode w') s := by
  have hop' : Field.opcode w' = Field.opcode w := extractLsb'_eq_of_and_eq h (by decide)
  have hv : Field.vect8 w' = Field.vect8 w := extractLsb'_eq_of_and_eq h (by decide)
  rw [decode_of_opcode_trap hop, decode_of_opcode_trap (hop'.trans hop), exec_decodeTrap, exec_decodeTrap, hv]
  exact execTrap_congr_ign hs _ _

end

/-- Settles O4: in each form with ignored bits the mask holds the opcode, the mode bit and every field the handler is
given; in the others it is the whole word. -/
theorem ignoredBitsChangeNothing : Obligations.IgnoredBitsChangeNothing := by
  intro w w' s h htrap
  unfold significantBits at h
  split at h
  case h_1 hop =>
    split at h
    case isTrue hmode => exact exec_decode_congr_regMode h (.inl hop) hmode s
    case isFalse => rw [eq_of_and_fullMask_eq h]
  case h_2 hop =>
    split at h
    case isTrue hmode => exact exec_decode_congr_regMode h (.inr hop) hmode s
    case isFalse => rw [eq_of_and_fullMask_eq h]
  case h_3 hop =>
    split at h
    case isTrue hmode => exact exec_decode_congr_jsrr h hop hmode s
    case isFalse => rw [eq_of_and_fullMask_eq h]
  case h_4 hop => exact exec_decode_congr_not h hop s
  case h_5 hop => exact exec_decode_congr_jmp h hop s
  case h_6 hop => exact exec_decode_congr_trap h hop (htrap hop)
  case h_7 => rw [eq_of_and_fullMask_eq h]

/-! ### Reserved opcodes -/

theorem exec_decode_reserved {w : Word} (hop : Field.opcode w = 8#4 ∨ Field.opcode w = 13#4) (s : State) :
    exec (decode w) s = .next (decodeFault (Field.opcode w) w s) := by
  have hword := fields_ignored w
  rcases hop with hop | hop <;> rw [hop] at hword ⊢
  · simp only [decode, hop, exec, execRti, hword]
  · simp only [decode, hop, exec, execRes, hword]

/-- Settles O33: the step that fetches the word raises the DecodeError of that word, and an engine whose latch is set
has no step. -/
theorem reservedWordsStopTheRun : Obligations.ReservedWordsStopTheRun := by
  intro s hfetch hop
  have ⟨henabled, _⟩ := hfetch
  have hrunning : s.running = true := (Bool.and_eq_true_iff.mp henabled).1
  have haddress : s.fetched.pc - 1#16 = s.pc := BitVec.add_sub_cancel _ _
  refine ⟨_, (step_of_fetching hfetch).trans (exec_decode_reserved hop _), ?fault, rfl, hrunning, fun _ => rfl, rfl,
    fun _ => rfl, rfl, ?stopped⟩
  case fault => rw [decodeFault, raise_fault, haddress]
  case stopped => simp [State.engineEnabled, decodeFault]

end Sys2Proof.Machine
end

section
/-! PROOFS. The step (40_execution_cycle.md R70 to R75): a fetching step runs the word at `pc`, the producer's entry is
its event, and a stopped engine never runs again. -/

namespace Sys2Proof.Machine

/-! ### The fetching step -/

/-- Settles O7: `State.fetched` is the state the statement writes out. -/
theorem stepRunsTheDecodedInstruction : Obligations.StepRunsTheDecodedInstruction := fun _ => step_of_fetching

theorem tableWord_toNat (w : Word) : tableWord 16 w.toNat = w := by
  rw [tableWord, Nat.mod_eq_of_lt w.isLt, BitVec.ofNat_toNat, BitVec.setWidth_eq]

/-- Past the entries of the producer at its front, a schedule gives the engine the next event. -/
theorem head?_dropWhile_producer (l : List Agent) :
    (l.dropWhile fun a => a == Agent.producer).head? ≠ some .producer := by
  intro hhead
  have hnot := List.head?_dropWhile_not (fun a => a == Agent.producer) l
  simp [hhead] at hnot

theorem withFetchWord_fetching (s : State) (nbits w : Nat) : (s.withFetchWord nbits w).Fetching :=
  ⟨rfl, rfl, head?_dropWhile_producer s.sched⟩

@[simp] theorem withFetchWord_readMem (s : State) (nbits w : Nat) (a : Word) :
    (s.withFetchWord nbits w).readMem a = (s.writeMem s.pc (tableWord nbits w)).readMem a := rfl

/-- Settles O8: the placed word is what the fetch reads, and nothing but it and the engine's readiness is set. -/
theorem placedWordIsRunNext : Obligations.PlacedWordIsRunNext := by
  intro s w
  have hword : (s.withFetchWord 16 w.toNat).readMem s.pc = w := by
    rw [withFetchWord_readMem, readMem_writeMem_self, tableWord_toNat]
  have hstep := step_of_fetching (withFetchWord_fetching s 16 w.toNat)
  have hpc : (s.withFetchWord 16 w.toNat).pc = s.pc := rfl
  rw [hpc, hword] at hstep
  exact ⟨_, hstep, rfl, fun _ => rfl, rfl, rfl, rfl, rfl, hword, fun _ ha => readMem_writeMem_ne s _ ha, rfl, rfl, rfl⟩

/-! ### The producer's step -/

theorem step_of_producer_entry {s : State} {rest : List Agent} (h : s.sched = .producer :: rest) :
    step s = .next (producerEvent { s with sched := rest }) := by
  simp only [step, machineStep, h]

/-- Settles O9: the entry is used up, and a producer event leaves what the engine alone can change. -/
theorem scheduledProducerMoves : Obligations.ScheduledProducerMoves := by
  intro s rest h
  have honly := (ProducerOnly.withSched s rest).trans (producerEvent_producerOnly _)
  exact ⟨_, step_of_producer_entry h, rfl, honly.sameEngineState, honly.pos, producerEvent_sched _⟩

/-! ### The stopped machine -/

theorem ProducerOnly.engineEnabled {s t : State} (h : ProducerOnly s t) : t.engineEnabled = s.engineEnabled := by
  rw [State.engineEnabled, State.engineEnabled, h.running, h.fault]

/-- A run of `k + 1` steps is one step and a run of `k`. -/
theorem next_of_run_succ {M : Host.Core} {k : Nat} {s t : M.State} (h : M.run (k + 1) s = .next t) :
    ∃ u, M.step s = .next u ∧ M.run k u = .next t := by
  unfold Host.Core.run at h
  split at h
  case h_1 u hstep => exact ⟨u, hstep, h⟩
  all_goals nomatch h

/-- A run of a machine whose engine has stopped is the producer's, and the engine stays stopped. -/
theorem run_of_not_enabled {k : Nat} {s t : State} (he : s.engineEnabled = false) (h : core.run k s = .next t) :
    ProducerOnly s t := by
  induction k generalizing s with
  | zero => exact Host.Outcome.next.inj h ▸ ProducerOnly.refl s
  | succ k ih =>
    obtain ⟨u, hstep, hrun⟩ := next_of_run_succ h
    have honly := step_of_not_enabled he hstep
    exact honly.trans (ih (honly.engineEnabled.trans he) hrun)

/-- Settles O13: every step of the run is the producer's (`run_of_not_enabled`). -/
theorem stoppedEngineNeverRunsAgain : Obligations.StoppedEngineNeverRunsAgain := by
  intro k s t he h
  have honly := run_of_not_enabled he h
  exact ⟨honly.sameEngineState, honly.engineEnabled.trans he, honly.pos⟩

/-! ### setcc -/

theorem condOf_eq_Z_iff (v : Word) : condOf v = .Z ↔ v = 0x0000#16 := by
  unfold condOf
  split_ifs with hzero hneg <;> simp [hzero]

theorem condOf_eq_N_iff (v : Word) : condOf v = .N ↔ v.getLsbD 15 = true := by
  rw [← BitVec.msb_eq_getLsbD_last v]
  unfold condOf
  split_ifs with hzero hneg
  · simp [hzero]
  · simp [hneg]
  · simp [hneg]

/-- P is what is left, since `cond` has three values. -/
theorem condOf_eq_P_iff (v : Word) : condOf v = .P ↔ v ≠ 0x0000#16 ∧ v.getLsbD 15 = false := by
  rw [← Bool.not_eq_true, ← condOf_eq_N_iff, Ne, ← condOf_eq_Z_iff]
  cases condOf v <;> decide

/-- Settles O21: each flag by its own test of the value; `setcc` updates the one field. -/
theorem setccFollowsTheWrittenValue : Obligations.SetccFollowsTheWrittenValue :=
  ⟨fun _ v => ⟨condOf_eq_Z_iff v, condOf_eq_N_iff v, condOf_eq_P_iff v, fun _ => rfl, rfl, fun _ => rfl,
    ⟨rfl, rfl, rfl, rfl, rfl, rfl, rfl, rfl, rfl⟩⟩, rfl, rfl, rfl, rfl, rfl⟩

end Sys2Proof.Machine
end

section
/-! PROOFS. `pc` and `cond` at the end of an instruction and of a step (40_execution_cycle.md R76, R77): the services
and the producer change neither, but for `cond` at the end of GETC and IN. -/

namespace Sys2Proof.Machine

/-! ### Frames -/

theorem ScanFrame.inputFrame {hold : Word → Position} {s t : State} (h : ScanFrame hold s t) : InputFrame s t :=
  ⟨h.pc, h.running, h.cfg, fun i _ => reg_congr h.regs i, .inl h.cond, h.mem, h.wf⟩

/-- What is emitted first does not widen the frame of a poll. -/
theorem InputFrame.after_emit {cs : List Byte} {s t : State} {r : State × Bool} (he : EmitFrame cs s r)
    (h : InputFrame r.1 t) : InputFrame s t where
  pc := h.pc.trans he.pc
  running := h.running.trans he.running
  cfg := h.cfg.trans he.cfg
  regs i hi := (h.regs i hi).trans (reg_congr he.regs i)
  cond := he.cond ▸ he.cfg ▸ h.cond
  mem a ha hb := (h.mem a ha hb).trans (readMem_congr he.mem a)
  wf hw := h.wf (he.mem ▸ hw)

/-- Everything IN, from its prompt on, leaves as it was. -/
theorem serviceIn_frame (s : State) : InputFrame s (serviceIn s) := by
  have hprompt := emit_frame s.cfg.inPrompt s
  unfold serviceIn
  split <;> rename_i t h <;> rw [h] at hprompt
  · exact .after_emit hprompt (serviceInAfterPrompt_frame t)
  · exact .after_emit hprompt (ProducerOnly.refl t).inputFrame

/-- A step that fetches nothing is within the frame of a held input trap, and writes `cond` only as one. -/
theorem step_frame_of_not_fetching {s t : State} (hfetch : ¬ s.Fetching) (h : step s = .next t) :
    InputFrame s t ∧ (t.cond = s.cond ∨ s.pos = .getcWait ∨ s.pos = .inWait) := by
  rcases step_cases h with ⟨hgo, -⟩ | ⟨-, rfl⟩ | ⟨⟨-, hpos, -⟩, rfl⟩ | ⟨⟨-, hpos, -⟩, rfl⟩ | ⟨a, -, rfl⟩ | ⟨a, -, rfl⟩
  · exact absurd hgo hfetch
  · have honly := producerEvent_takeEntry_producerOnly s
    exact ⟨honly.inputFrame, .inl honly.cond⟩
  · exact ⟨waitStep_frame (fun u => (serviceGetc_frame u).1) s, .inr (.inl hpos)⟩
  · exact ⟨waitStep_frame serviceInAfterPrompt_frame s, .inr (.inr hpos)⟩
  · have hscan := scan_frame putsChars .puts scanBound a s
    exact ⟨hscan.inputFrame, .inl hscan.cond⟩
  · have hscan := scan_frame putspChars .putsp scanBound a s
    exact ⟨hscan.inputFrame, .inl hscan.cond⟩

/-! ### pc -/

theorem undefinedVector_pc (ign : BitVec 4) (v : BitVec 8) (s : State) : (undefinedVector ign v s).pc = s.pc := by
  unfold undefinedVector
  split <;> rfl

theorem exec_pc_of_wf {i : Instr} {s t : State} (hi : i.wf = true) (h : exec i s = .next t) : t.pc = pcAfter i s := by
  cases i
  case trap ign v =>
    obtain rfl := Host.Outcome.next.inj ((exec_trap_of_wf hi s).symm.trans h)
    exact undefinedVector_pc ign v s
  all_goals obtain rfl := Host.Outcome.next.inj h
  case addReg | addImm | andReg | andImm | not | lea | rti | res | jmp | jsr | trapHalt => rfl
  case br => exact apply_ite State.pc _ _ _
  case jsrr ignHi base ignLo => exact reg_setReg s 7#3 base s.pc
  case ld | ldr | st | str => exact turn_pc s
  case ldi | sti => exact (turn_pc s.turn).trans (turn_pc s)
  case trapGetc => exact (serviceGetc_frame s).1.pc
  case trapOut => exact (emit_frame _ s).pc
  case trapPuts => exact (scan_frame putsChars .puts _ _ s).pc
  case trapIn => exact (serviceIn_frame s).pc
  case trapPutsp => exact (scan_frame putspChars .putsp _ _ s).pc

theorem pcAfter_decodeTrap (ign : BitVec 4) (v : BitVec 8) (s : State) : pcAfter (decodeTrap ign v) s = s.pc := by
  unfold decodeTrap
  split_ifs <;> rfl

/-- A TRAP term that is not well-formed means what the row of its vector means. -/
theorem exec_pc {i : Instr} {s t : State} (h : exec i s = .next t) : t.pc = pcAfter i s := by
  cases i
  case trap ign v =>
    exact (exec_pc_of_wf (wf_decodeTrap ign v) ((exec_decodeTrap ign v s).trans h)).trans (pcAfter_decodeTrap ign v s)
  all_goals exact exec_pc_of_wf rfl h

/-- Settles O34: `exec_pc`, for the fetching step at the incremented `pc`; every other step leaves `pc`. -/
theorem pcAtTheEndOfEveryInstruction : Obligations.PcAtTheEndOfEveryInstruction :=
  ⟨fun _ _ _ => exec_pc, fun _ _ hfetch h => exec_pc ((step_of_fetching hfetch).symm.trans h),
    fun _ _ hfetch h => (step_frame_of_not_fetching hfetch h).1.pc⟩

/-! ### cond -/

theorem writeDest_cond_eq (s : State) (dr : RegIdx) (v : Word) :
    (s.writeDest dr v).cond = condOf ((s.writeDest dr v).reg dr) := by
  rw [reg_writeDest, if_pos rfl, writeDest_cond]

theorem exec_cond_of_condDest {i : Instr} {s t : State} {dr : RegIdx} (hdest : condDest i = some dr)
    (h : exec i s = .next t) : t.cond = condOf (t.reg dr) := by
  cases i
  case addReg | addImm | andReg | andImm | not | ld | ldi | ldr | lea =>
    obtain rfl := Option.some.inj hdest
    obtain rfl := Host.Outcome.next.inj h
    exact writeDest_cond_eq _ _ _
  all_goals nomatch hdest

theorem undefinedVector_cond (ign : BitVec 4) (v : BitVec 8) (s : State) :
    (undefinedVector ign v s).cond = s.cond := by
  unfold undefinedVector
  split <;> rfl

theorem exec_cond_of_no_condDest {i : Instr} {s t : State} (hi : i.wf = true) (hdest : condDest i = none)
    (h : exec i s = .next t) :
    t.cond = s.cond ∨
      (((∃ ign, i = .trapGetc ign) ∨ ∃ ign, i = .trapIn ign) ∧ s.cfg.trapInputSetsCC = true ∧
        t.cond = condOf (t.reg 0#3)) := by
  cases i
  case addReg | addImm | andReg | andImm | not | ld | ldi | ldr | lea => nomatch hdest
  case trap ign v =>
    obtain rfl := Host.Outcome.next.inj ((exec_trap_of_wf hi s).symm.trans h)
    exact .inl (undefinedVector_cond ign v s)
  all_goals obtain rfl := Host.Outcome.next.inj h
  case trapGetc ign => exact (serviceGetc_frame s).1.cond.imp_right (⟨.inl ⟨ign, rfl⟩, ·⟩)
  case trapIn ign => exact (serviceIn_frame s).cond.imp_right (⟨.inr ⟨ign, rfl⟩, ·⟩)
  all_goals left
  case jmp | jsr | jsrr | rti | res | trapHalt => rfl
  case br => exact (apply_ite State.cond _ _ _).trans (ite_self _)
  case st | str => exact turn_cond s
  case sti => exact (turn_cond s.turn).trans (turn_cond s)
  case trapOut => exact (emit_frame _ s).cond
  case trapPuts => exact (scan_frame putsChars .puts _ _ s).cond
  case trapPutsp => exact (scan_frame putspChars .putsp _ _ s).cond

/-- Settles O23: by whether the instruction has a condition-setting destination; a step that fetches nothing writes
`cond` only as a held GETC or IN (`step_frame_of_not_fetching`). -/
theorem condIsWrittenOnlyByConditionSettingInstructions :
    Obligations.CondIsWrittenOnlyByConditionSettingInstructions := by
  refine ⟨fun i s t hi h => ⟨fun dr hdest => exec_cond_of_condDest hdest h, fun hdest =>
    exec_cond_of_no_condDest hi hdest h⟩, fun s t hfetch h => ?_⟩
  obtain ⟨hframe, hsame | hheld⟩ := step_frame_of_not_fetching hfetch h
  · exact .inl hsame
  · exact hframe.cond.imp_right (⟨hheld, ·⟩)

end Sys2Proof.Machine
end

section
/-! PROOFS. The operate instructions (41_operate.md R90 to R95): each is one condition-setting write of a value read
before it. -/

namespace Sys2Proof.Machine

theorem writesReg_writeDest (s : State) (dr : RegIdx) (v : Word) : WritesReg s (s.writeDest dr v) dr v where
  dest := (reg_writeDest s dr dr v).trans (if_pos rfl)
  cond := writeDest_cond s dr v
  others i hne := (reg_writeDest s dr i v).trans (if_neg hne)
  pc := writeDest_pc s dr v
  mem _ := rfl
  rest := ⟨rfl, rfl, rfl, rfl, rfl, rfl, rfl, rfl, rfl⟩

/-- R94: the complement "equals 0xFFFF - x[SR]". -/
theorem ffff_sub_eq_not (v : Word) : 0xFFFF#16 - v = ~~~v := BitVec.allOnes_sub_eq_not v

/-- Settles O22: each form is a `writeDest` of its result; the statement's sum and difference are brought to the
meaning's `+` and `~~~`. -/
theorem operateInstructionsWriteTheirResult : Obligations.OperateInstructionsWriteTheirResult := by
  intro s dr sr1 sr2 ign ign6 imm
  rw [← BitVec.add_def, ← BitVec.add_def, ffff_sub_eq_not]
  exact ⟨⟨_, rfl, writesReg_writeDest s dr _⟩, ⟨_, rfl, writesReg_writeDest s dr _⟩,
    ⟨_, rfl, writesReg_writeDest s dr _⟩, ⟨_, rfl, writesReg_writeDest s dr _⟩, ⟨_, rfl, writesReg_writeDest s dr _⟩⟩

end Sys2Proof.Machine
end

section
/-! PROOFS. Data movement (42_data_movement.md R100 to R108): each form is one write at the state the turns before its
last access left, of a destination register (`writesReg_writeDest`) or of a memory word (`writeMem_storesWord`). -/

namespace Sys2Proof.Machine

/-- Settles O24: LD and LDR write after one turn, LDI after two, LEA after none. -/
theorem loadsWriteTheAddressedWord : Obligations.LoadsWriteTheAddressedWord := by
  intro s dr base off off6
  exact ⟨⟨_, rfl, writesReg_writeDest s.turn dr _⟩, ⟨_, rfl, writesReg_writeDest s.turn.turn dr _⟩,
    ⟨_, rfl, writesReg_writeDest s.turn dr _⟩, ⟨_, rfl, writesReg_writeDest s dr _⟩⟩

/-- Settles O25: ST and STR store after one turn, STI after two, at the word its pointer read named; the source
register is the one before the turns. -/
theorem storesWriteTheAddressedWord : Obligations.StoresWriteTheAddressedWord := by
  intro s sr base off off6
  exact ⟨⟨_, rfl, writeMem_storesWord s.turn _ _⟩, ⟨_, rfl, writeMem_storesWord s.turn.turn _ _⟩,
    ⟨_, rfl, writeMem_storesWord s.turn _ _⟩⟩

end Sys2Proof.Machine
end

section
/-! PROOFS. Control (43_control.md R120 to R125): BR and JMP move `pc`, JSR and JSRR write the link register and then
move `pc`, RTI and RES set the latch. -/

namespace Sys2Proof.Machine

/-! ### BR's test -/

theorem and_twoPow_bne_zero (m : BitVec 3) {i : Nat} (hi : i < 3) :
    ((m &&& BitVec.twoPow 3 i) != 0#3) = m.getLsbD i := by
  have hbit : BitVec.twoPow 3 i ≠ 0#3 := fun h => by
    have hi' := congrArg (BitVec.getLsbD · i) h
    simp [hi] at hi'
  rw [BitVec.and_twoPow]
  cases m.getLsbD i
  · rfl
  · simpa using hbit

/-- The mask test by flags: `cond` is one-hot, so the mask meets it in the active flag's own bit (R120, D3). -/
theorem branchTaken_iff {nzp : BitVec 3} {c : Cond} :
    branchTaken nzp c = true ↔
      (nzp.getLsbD 2 = true ∧ c = .N) ∨ (nzp.getLsbD 1 = true ∧ c = .Z) ∨ (nzp.getLsbD 0 = true ∧ c = .P) := by
  have hactive {i : Nat} (hi : i < 3) (hc : condBits c = BitVec.twoPow 3 i) : branchTaken nzp c = nzp.getLsbD i := by
    rw [branchTaken, hc, and_twoPow_bne_zero nzp hi]
  cases c
  case P => simp [hactive (i := 0) (by decide) rfl]
  case Z => simp [hactive (i := 1) (by decide) rfl]
  case N => simp [hactive (i := 2) (by decide) rfl]

/-! ### The three effects -/

theorem movesPc_withPc (s : State) (target : Word) : MovesPc s { s with pc := target } target where
  pc := rfl
  regs _ := rfl
  cond := rfl
  mem _ := rfl
  rest := ⟨rfl, rfl, rfl, rfl, rfl, rfl, rfl, rfl, rfl⟩

theorem linksTo_setReg_withPc (s : State) (target : Word) :
    LinksTo s { s.setReg 7#3 s.pc with pc := target } target where
  link := reg_setReg_self s 7#3 s.pc
  pc := rfl
  others _ hne := reg_setReg_ne s s.pc hne
  cond := rfl
  mem _ := rfl
  rest := ⟨rfl, rfl, rfl, rfl, rfl, rfl, rfl, rfl, rfl⟩

theorem faults_raise (s : State) (r : FaultRecord) : Faults s (s.raise r) r where
  fault := raise_fault s r
  pos := raise_pos s r
  pc := rfl
  regs _ := rfl
  cond := rfl
  running := rfl
  mem _ := rfl
  output := rfl
  input := rfl
  readyDue := rfl
  cfg := rfl
  sched := rfl

/-! ### The instructions -/

/-- Settles O30: by whether the mask test succeeds, which `branchTaken_iff` reads flag by flag; a branch not taken
moves `pc` to where it is. -/
theorem branchTakenWhenANamedFlagIsActive : Obligations.BranchTakenWhenANamedFlagIsActive := by
  intro s nzp off
  by_cases htaken : branchTaken nzp s.cond = true
  · rw [if_pos (branchTaken_iff.mp htaken)]
    exact ⟨_, exec_br_of_taken htaken, movesPc_withPc s _⟩
  · rw [if_neg (mt branchTaken_iff.mpr htaken)]
    exact ⟨_, exec_br_of_not_taken htaken, movesPc_withPc s s.pc⟩

/-- Settles O31: JMP is one move of `pc`, JSR and JSRR a link write and a move; JSRR's target is its base register
read after the link write, `s.pc` for R7 (`reg_setReg`). -/
theorem jumpsAndCallsReachTheirTarget : Obligations.JumpsAndCallsReachTheirTarget := by
  intro s base off hi3 hi2 lo
  rw [← reg_setReg s 7#3 base s.pc]
  exact ⟨⟨_, rfl, movesPc_withPc s _⟩, ⟨_, rfl, linksTo_setReg_withPc s _⟩, ⟨_, rfl, linksTo_setReg_withPc s _⟩⟩

/-- Settles O32: both are one `raise` of the record of the word they encode to. -/
theorem reservedOpcodesRaiseDecodeError : Obligations.ReservedOpcodesRaiseDecodeError := fun s _ =>
  ⟨⟨_, rfl, faults_raise s _, raise_sinkPlan s _⟩, ⟨_, rfl, faults_raise s _, raise_sinkPlan s _⟩⟩

end Sys2Proof.Machine
end

section
/-! PROOFS. TRAP, and the services that end in one handler without a wait (44_trap.md R140, R142, R146 to R148): the
vector selects the service, and no service writes a register but `x[0]`, moves `pc` or stores. -/

namespace Sys2Proof.Machine

/-! ### The vector -/

/-- Settles O35: a TRAP word decodes to the row of its vector (`decode_trapWord`), and each defined vector's row means
its service whatever the ignored bits. -/
theorem trapVectorSelectsTheService : Obligations.TrapVectorSelectsTheService := by
  intro s ign ign'
  have hrow (v : BitVec 8) : exec (decode (0xF#4 ++ ign ++ v)) s = exec (decodeTrap ign v) s := by
    rw [decode_trapWord]
  have hundefined (v : BitVec 8) (hv : definedVector v = false) : decode (0xF#4 ++ ign ++ v) = .trap ign v :=
    (decode_trapWord ign v).trans (decodeTrap_of_wf (by rw [Instr.wf, hv, Bool.not_false]))
  exact ⟨hrow 0x20#8, hrow 0x21#8, hrow 0x22#8, hrow 0x23#8, hrow 0x24#8, hrow 0x25#8, hundefined,
    rfl, rfl, rfl, rfl, rfl, rfl⟩

/-- Settles O36: the parameter's two settings of `undefinedVector`, nothing or one `raise`. -/
theorem undefinedVectorIsANoopOrAFault : Obligations.UndefinedVectorIsANoopOrAFault := by
  intro s ign v hv
  have hexec := exec_trap_of_wf (ign := ign) (v := v) (by rw [Instr.wf, hv, Bool.not_false]) s
  refine ⟨fun hnoop => ?_, fun hfault => ?_⟩
  · rw [hexec, undefinedVector, hnoop]
  · rw [hexec, undefinedVector, hfault]
    exact ⟨_, rfl, faults_raise s _, raise_sinkPlan s _⟩

/-! ### HALT and OUT -/

/-- Settles O38: HALT's one update is of the flag that the statement sets back. -/
theorem haltClearsRunningAndNothingElse : Obligations.HaltClearsRunningAndNothingElse := fun s _ =>
  ⟨serviceHalt s, rfl, rfl, rfl, Agree.refl s⟩

theorem lowByte_eq_setWidth (w : Word) : lowByte w = w.setWidth 8 := rfl

/-- A character the sink does not refuse is one it accepts. -/
theorem sinkAccepts_one {s : State} (h : s.sinkRefuses = false) : s.SinkAccepts 1 := by
  intro hmay r hr
  rw [State.sinkRefuses, hmay, Bool.true_and] at h
  cases hplan : s.sinkPlan with
  | nil => simp [hplan] at hr
  | cons refuses plan =>
    rw [hplan] at h hr
    exact (List.mem_singleton.mp hr).trans h

/-- Settles O39: one character emitted on a sink that accepts it (`emit_of_accepts`). -/
theorem outEmitsTheLowByte : Obligations.OutEmitsTheLowByte := by
  intro s ign h
  have hemit := emit_of_accepts (cs := [lowByte (s.reg 0#3)]) (sinkAccepts_one h)
  have hexec : exec (.trapOut ign) s = .next _ := congrArg (fun r : State × Bool => Host.Outcome.next r.1) hemit
  refine ⟨_, hexec, ?output, ?plan, Agree.refl s⟩
  case output => rw [lowByte_eq_setWidth]
  case plan => rw [State.sinkAfter, List.length_singleton, List.drop_one]

/-! ### What no trap does -/

/-- The frame of R148 and R166: `pc`, every register but `x[0]`, and memory outside the device words are as they
were. -/
structure TrapFrame (s t : State) : Prop where
  pc : t.pc = s.pc
  regs : ∀ r, r ≠ 0#3 → t.reg r = s.reg r
  mem : ∀ a, a ≠ Config.kbsr → a ≠ Config.kbdr → t.readMem a = s.readMem a

theorem InputFrame.trapFrame {s t : State} (h : InputFrame s t) : TrapFrame s t := ⟨h.pc, h.regs, h.mem⟩

theorem EmitFrame.inputFrame {cs : List Byte} {s : State} {r : State × Bool} (h : EmitFrame cs s r) :
    InputFrame s r.1 :=
  .after_emit h (ProducerOnly.refl r.1).inputFrame

theorem undefinedVector_trapFrame (ign : BitVec 4) (v : BitVec 8) (s : State) :
    TrapFrame s (undefinedVector ign v s) := by
  unfold undefinedVector
  split <;> exact ⟨rfl, fun _ _ => rfl, fun _ _ _ => rfl⟩

theorem execTrap_trapFrame {ign : BitVec 4} {v : BitVec 8} {s t : State} (h : execTrap ign v s = .next t) :
    TrapFrame s t := by
  obtain rfl := Host.Outcome.next.inj h
  split_ifs
  · exact (serviceGetc_frame s).1.trapFrame
  · exact (emit_frame _ s).inputFrame.trapFrame
  · exact (scan_frame putsChars .puts _ _ s).inputFrame.trapFrame
  · exact (serviceIn_frame s).trapFrame
  · exact (scan_frame putspChars .putsp _ _ s).inputFrame.trapFrame
  · exact ⟨rfl, fun _ _ => rfl, fun _ _ _ => rfl⟩
  · exact undefinedVector_trapFrame ign v s

/-- Every trap, with a service or without, is TRAP's dispatch on some vector. -/
theorem exec_eq_execTrap {ign : BitVec 4} {v : BitVec 8} {i : Instr}
    (hi : i ∈ [Instr.trap ign v, .trapGetc ign, .trapOut ign, .trapPuts ign, .trapIn ign, .trapPutsp ign,
      .trapHalt ign]) (s : State) : ∃ v', exec i s = execTrap ign v' s := by
  simp only [List.mem_cons, List.not_mem_nil, or_false] at hi
  obtain rfl | rfl | rfl | rfl | rfl | rfl | rfl := hi
  · exact ⟨v, rfl⟩
  · exact ⟨0x20#8, rfl⟩
  · exact ⟨0x21#8, rfl⟩
  · exact ⟨0x22#8, rfl⟩
  · exact ⟨0x23#8, rfl⟩
  · exact ⟨0x24#8, rfl⟩
  · exact ⟨0x25#8, rfl⟩

/-- A step that fetches nothing writes a register only as a held GETC or IN. -/
theorem step_regs_of_not_input {s t : State} (hfetch : s.pos ≠ .fetch) (hgetc : s.pos ≠ .getcWait)
    (hin : s.pos ≠ .inWait) (h : step s = .next t) : t.regs = s.regs := by
  rcases step_cases h with
    ⟨⟨-, hp, -⟩, -⟩ | ⟨-, rfl⟩ | ⟨⟨-, hp, -⟩, -⟩ | ⟨⟨-, hp, -⟩, -⟩ | ⟨a, -, rfl⟩ | ⟨a, -, rfl⟩
  · exact absurd hp hfetch
  · exact (producerEvent_takeEntry_producerOnly s).regs
  · exact absurd hp hgetc
  · exact absurd hp hin
  · exact (scan_frame putsChars .puts scanBound a s).regs
  · exact (scan_frame putspChars .putsp scanBound a s).regs

/-- Settles O37: `execTrap_trapFrame` for the trap itself; a step that goes on with a service is within the frame of a
held input trap (`step_frame_of_not_fetching`). -/
theorem trapsLeaveTheLinkAndPcAlone : Obligations.TrapsLeaveTheLinkAndPcAlone := by
  refine ⟨fun s t ign v i hi h => ?instruction, fun s t hpos h => ?step⟩
  case instruction =>
    obtain ⟨v', hexec⟩ := exec_eq_execTrap hi s
    obtain ⟨hpc, hregs, hmem⟩ := execTrap_trapFrame (hexec.symm.trans h)
    exact ⟨hpc, hregs, hmem⟩
  case step =>
    have hfetch : ¬ s.Fetching := fun ⟨_, hfetch, _⟩ => hpos hfetch
    obtain ⟨hpc, hregs, hmem⟩ := (step_frame_of_not_fetching hfetch h).1.trapFrame
    exact ⟨hpc, hregs, fun hgetc hin => reg_congr (step_regs_of_not_input hpos hgetc hin h) _, hmem⟩

end Sys2Proof.Machine
end

section
/-! PROOFS. GETC and IN (44_trap.md R141, R144, R149; 20_memory.md R42): a poll that observes READY completes the trap
with the consume sequence, one that does not leaves the engine waiting, and a waiting engine goes on when the producer
has delivered. -/

namespace Sys2Proof.Machine

/-! ### A poll that observes READY -/

/-- The consume sequence whose poll observes READY answers a state that has consumed, but for the engine's position. -/
theorem consume_consumed {hold : Position} {s : State} (h : s.turn.ready = true) :
    ∃ t, consume hold s = (t, true) ∧ Consumed s { t with pos := .fetch } := by
  refine ⟨_, consume_of_ready h, ?_⟩
  cases hcc : s.cfg.trapInputSetsCC
  all_goals exact {
    data := reg_setReg_self _ _ _
    others := fun i hi => (reg_setReg_ne _ _ hi).trans (by simp)
    cond := by simp [hcc, State.reg, State.setReg, State.writeMem]
    pc := by simp
    kbsr := readMem_writeMem_self _ _ _
    mem := fun a ha => readMem_writeMem_ne _ _ ha
    input := rfl
    readyDue := rfl
    sched := rfl
    running := by simp
    pos := rfl
    cfg := by simp }

/-- From `s` to `t` an input trap has completed: the consume sequence, and `text` emitted on an accepting sink. -/
structure CompletesInput (s t : State) (text : List Byte) : Prop where
  consumed : Consumed s t
  output : t.output = s.output ++ text
  fault : t.fault = s.fault
  sinkPlan : t.sinkPlan = s.sinkAfter text.length

theorem serviceGetc_completes {s : State} (h : s.turn.ready = true) : CompletesInput s (serviceGetc s) [] := by
  obtain ⟨-, houtput, hfault, hplan⟩ := serviceGetc_frame s
  refine ⟨?_, by rw [houtput, List.append_nil], hfault, by simp [hplan, State.sinkAfter]⟩
  obtain ⟨t, ht, hconsumed⟩ := consume_consumed (hold := .getcWait) h
  rw [serviceGetc, ht]
  exact hconsumed

/-- No character has been emitted where the plan is as it was. -/
theorem AfterChars.of_sinkPlan_eq {s t : State} (hcfg : t.cfg = s.cfg) (hplan : t.sinkPlan = s.sinkPlan) :
    AfterChars s t 0 :=
  ⟨hcfg, by simp [hplan, State.sinkAfter]⟩

theorem serviceInAfterPrompt_completes {s : State} (h : s.turn.ready = true) (ha : s.SinkAccepts 1) :
    CompletesInput s (serviceInAfterPrompt s) [((serviceInAfterPrompt s).reg 0#3).setWidth 8] := by
  obtain ⟨t, ht, hconsumed⟩ := consume_consumed (hold := .inWait) h
  have hframe := consume_frame .inWait s
  rw [ht] at hframe
  have hafter : AfterChars s { t with pos := .fetch } 0 :=
    .of_sinkPlan_eq hframe.cfg hframe.sinkPlan
  have hemit := emit_of_accepts (cs := [lowByte (t.reg 0#3)]) (hafter.accepts ha)
  rw [serviceInAfterPrompt, ht]
  simp only [hemit]
  exact ⟨{ hconsumed with }, congrArg (· ++ _) hframe.output, hframe.fault, hafter.sinkAfter 1⟩

/-! ### IN's prompt -/

/-- What is emitted before the poll does not matter to the consume sequence. -/
theorem Consumed.of_withSink {s t : State} {o : List Byte} {p : List Bool}
    (h : Consumed { s with output := o, sinkPlan := p } t) : Consumed s t := by
  obtain ⟨data, others, cond, pc, kbsr, mem, input, readyDue, sched, running, pos, cfg⟩ := h
  simp only [turn_withSink] at data kbsr mem input readyDue sched
  exact ⟨data, others, cond, pc, kbsr, mem, input, readyDue, sched, running, pos, cfg⟩

/-- The state in which IN polls first, on a sink that accepts the prompt. -/
def State.prompted (s : State) : State :=
  { s with output := s.output ++ s.cfg.inPrompt, sinkPlan := s.sinkAfter s.cfg.inPrompt.length }

theorem prompted_afterChars (s : State) : AfterChars s s.prompted s.cfg.inPrompt.length := ⟨rfl, rfl⟩

theorem turn_prompted (s : State) :
    s.prompted.turn =
      { s.turn with output := s.output ++ s.cfg.inPrompt, sinkPlan := s.sinkAfter s.cfg.inPrompt.length } :=
  turn_withSink s _ _

theorem ready_turn_prompted (s : State) : s.prompted.turn.ready = s.turn.ready := by
  rw [turn_prompted]
  rfl

theorem serviceIn_of_accepts {s : State} (h : s.SinkAccepts s.cfg.inPrompt.length) :
    serviceIn s = serviceInAfterPrompt s.prompted := by
  rw [serviceIn, emit_of_accepts h]
  rfl

theorem serviceIn_completes {s : State} (h : s.turn.ready = true) (ha : s.SinkAccepts (s.cfg.inPrompt.length + 1)) :
    CompletesInput s (serviceIn s) (s.cfg.inPrompt ++ [((serviceIn s).reg 0#3).setWidth 8]) := by
  have hprompt := prompted_afterChars s
  rw [serviceIn_of_accepts (SinkAccepts.mono ha (Nat.le_succ _))]
  have hpoll := serviceInAfterPrompt_completes ((ready_turn_prompted s).trans h) (hprompt.accepts ha)
  refine ⟨hpoll.consumed.of_withSink, ?output, hpoll.fault, ?plan⟩
  case output => exact hpoll.output.trans (List.append_assoc _ _ _)
  case plan => rw [hpoll.sinkPlan, hprompt.sinkAfter, List.length_append]

/-! ### A poll that does not observe READY -/

theorem serviceGetc_of_not_ready {s : State} (h : s.turn.ready = false) :
    serviceGetc s = { s.turn with pos := .getcWait } := by
  rw [serviceGetc, consume_of_not_ready h]

theorem serviceInAfterPrompt_of_not_ready {s : State} (h : s.turn.ready = false) :
    serviceInAfterPrompt s = { s.turn with pos := .inWait } := by
  rw [serviceInAfterPrompt, consume_of_not_ready h]

theorem serviceIn_of_not_ready {s : State} (h : s.turn.ready = false) (ha : s.SinkAccepts s.cfg.inPrompt.length) :
    serviceIn s =
      { s.turn with
        pos := .inWait
        output := s.output ++ s.cfg.inPrompt
        sinkPlan := s.sinkAfter s.cfg.inPrompt.length } := by
  rw [serviceIn_of_accepts ha, serviceInAfterPrompt_of_not_ready ((ready_turn_prompted s).trans h), turn_prompted]

/-! ### A step of a waiting engine -/

/-- The steps of an engine waiting at `hold` run `service`, which waits on there until its poll observes READY. -/
structure WaitsAt (hold : Position) (service : State → State) : Prop where
  step_eq : ∀ {s : State}, s.GoesOnAt hold → step s = .next (waitStep service s)
  waits : ∀ {s : State}, s.turn.ready = false → service s = { s.turn with pos := hold }

theorem getc_waitsAt : WaitsAt .getcWait serviceGetc := ⟨step_of_getcWait, serviceGetc_of_not_ready⟩

theorem in_waitsAt : WaitsAt .inWait serviceInAfterPrompt := ⟨step_of_inWait, serviceInAfterPrompt_of_not_ready⟩

theorem exists_waitsAt {s : State} (h : s.GoesOnAt .getcWait ∨ s.GoesOnAt .inWait) :
    ∃ hold service, WaitsAt hold service ∧ s.GoesOnAt hold :=
  h.elim (fun hgo => ⟨_, _, getc_waitsAt, hgo⟩) fun hgo => ⟨_, _, in_waitsAt, hgo⟩

theorem goesOnAt_of_sched_nil {s : State} {p : Position} (he : s.engineEnabled = true) (hp : s.pos = p)
    (hs : s.sched = []) : s.GoesOnAt p :=
  ⟨he, hp, by simp [hs]⟩

theorem producerEvent_of_not_enabled {s : State} (h : s.producerEnabled = false) : producerEvent s = s := by
  rw [State.producerEnabled, Bool.or_eq_false_iff, Option.isSome_eq_false_iff, Option.isNone_iff_eq_none] at h
  exact producerEvent_of_none h.1 h.2

section
variable {hold : Position} {service : State → State} {s : State} (hw : WaitsAt hold service)
include hw

/-- A waiting engine whose poll does not observe READY stays where it stands. -/
theorem WaitsAt.service_of_not_ready (hpos : s.pos = hold) (h : s.turn.ready = false) : service s = s.turn := by
  rw [hw.waits h, ← hpos, ← turn_pos]

variable (hgo : s.GoesOnAt hold)
include hgo

theorem WaitsAt.step_of_ready (h : s.turn.ready = true) : step s = .next (service s) := by
  rw [hw.step_eq hgo, waitStep_of_ready service h]

theorem WaitsAt.step_of_entry {rest : List Agent} (h : s.ready = false) (hs : s.sched = .engine :: rest) :
    step s = .next { s with sched := rest } := by
  have hturn : s.turn = { s with sched := rest } := by rw [State.turn, hs, drain]
  have hready : s.turn.ready = false := by
    rw [hturn]
    exact h
  have ⟨_, hpos, _⟩ := hgo
  rw [hw.step_eq hgo, waitStep_of_entry service hs, hw.service_of_not_ready hpos hready, hturn]

/-- With nothing scheduled and READY clear, the step is the producer's event, which is nothing if it has none. -/
theorem WaitsAt.step_of_sched_nil (h : s.ready = false) (hs : s.sched = []) : step s = .next (producerEvent s) := by
  have hturn := turn_of_sched_nil hs
  rw [hw.step_eq hgo, waitStep]
  cases henabled : s.producerEnabled with
  | true => simp [hs, h]
  | false =>
    have ⟨_, hpos, _⟩ := hgo
    have hpoll := hw.service_of_not_ready hpos (by rw [hturn, h])
    simp [hpoll, hturn, producerEvent_of_not_enabled henabled]

end

/-! ### The two traps, started and held -/

/-- Settles O40: `serviceGetc_completes`, from the instruction and from the wait. -/
theorem getcConsumesWhenReady : Obligations.GetcConsumesWhenReady := by
  have hcompletes (s : State) (h : s.turn.ready = true) :
      Consumed s (serviceGetc s) ∧ (serviceGetc s).output = s.output ∧ (serviceGetc s).fault = s.fault ∧
        (serviceGetc s).sinkPlan = s.sinkPlan :=
    ⟨(serviceGetc_completes h).consumed, (serviceGetc_frame s).2⟩
  exact ⟨fun s ign h => ⟨_, rfl, hcompletes s h⟩,
    fun s hgo h => ⟨_, getc_waitsAt.step_of_ready hgo h, hcompletes s h⟩⟩

/-- Settles O42: `serviceIn_completes` from the instruction, `serviceInAfterPrompt_completes` from the wait. -/
theorem inPromptsConsumesAndEchoes : Obligations.InPromptsConsumesAndEchoes := by
  refine ⟨fun s ign h ha => ⟨_, rfl, ?_⟩, fun s hgo h ha => ⟨_, in_waitsAt.step_of_ready hgo h, ?_⟩⟩
  · obtain ⟨hconsumed, houtput, hfault, hplan⟩ := serviceIn_completes h ha
    rw [← List.append_assoc] at houtput
    rw [List.length_append] at hplan
    exact ⟨hconsumed, houtput, hfault, hplan⟩
  · obtain ⟨hconsumed, houtput, hfault, hplan⟩ := serviceInAfterPrompt_completes h ha
    exact ⟨hconsumed, houtput, hfault, hplan⟩

/-- Settles O41: the started traps by their poll, the held ones by what a step of a waiting engine is (`WaitsAt`). -/
theorem inputTrapsHoldUntilReady : Obligations.InputTrapsHoldUntilReady := by
  refine ⟨fun s ign h => ⟨congrArg Host.Outcome.next (serviceGetc_of_not_ready h),
    fun ha => congrArg Host.Outcome.next (serviceIn_of_not_ready h ha)⟩, fun s hheld h => ?held⟩
  case held =>
    obtain ⟨hold, service, hw, hgo⟩ := exists_waitsAt hheld
    exact ⟨fun rest hs => hw.step_of_entry hgo h hs, fun hs => hw.step_of_sched_nil hgo h hs⟩

/-! ### Runs of a waiting engine -/

theorem run_succ_of_step {s u : State} (h : step s = .next u) (k : Nat) : core.run (k + 1) s = core.run k u := by
  have hcore : core.step s = .next u := h
  simp only [Host.Core.run, hcore]

theorem run_of_step_self {s : State} (h : step s = .next s) (k : Nat) : core.run k s = .next s := by
  induction k with
  | zero => rfl
  | succ k ih => rw [run_succ_of_step h, ih]

/-- Settles O49: with no event left to the producer each step answers the state it started from. -/
theorem waitWithNoInputNeverEnds : Obligations.WaitWithNoInputNeverEnds := by
  intro s k he hpos hs hnone h
  obtain ⟨hold, service, hw, hgo⟩ :=
    exists_waitsAt (hpos.imp (goesOnAt_of_sched_nil he · hs) (goesOnAt_of_sched_nil he · hs))
  have hstep := hw.step_of_sched_nil hgo h hs
  rw [producerEvent_of_not_enabled hnone] at hstep
  exact run_of_step_self hstep k

theorem State.GoesOnAt.producerEvent {s : State} {p : Position} (h : s.GoesOnAt p) : (producerEvent s).GoesOnAt p := by
  obtain ⟨he, hp, hs⟩ := h
  have honly := producerEvent_producerOnly s
  exact ⟨honly.engineEnabled.trans he, honly.pos.trans hp, by rwa [producerEvent_sched]⟩

theorem ProducerOnly.afterChars {s t : State} (h : ProducerOnly s t) : AfterChars s t 0 :=
  .of_sinkPlan_eq h.cfg h.sinkPlan

theorem turn_producerEvent_twice {s : State} (hs : s.sched = []) :
    (producerEvent (producerEvent s)).turn = producerEvent (producerEvent s) :=
  turn_producerEvent_of_sched_nil ((producerEvent_sched s).trans hs)

section
variable {s : State} {b : Byte} {rest : Input} (hs : s.sched = []) (hdue : s.readyDue = false)
  (hnext : s.input.next = some (b, rest))
include hs hdue hnext

theorem ready_turn_after_delivery : (producerEvent (producerEvent s)).turn.ready = true := by
  obtain ⟨-, -, -, hready, -⟩ := producerEvent_delivers hdue hnext
  rw [turn_producerEvent_twice hs, hready]

/-- The producer's two events, and then the service, which finds READY set. -/
theorem WaitsAt.run_three {hold : Position} {service : State → State} (hw : WaitsAt hold service)
    (hgo : s.GoesOnAt hold) (h : s.ready = false) :
    core.run 3 s = .next (service (producerEvent (producerEvent s))) := by
  have hdata : (producerEvent s).ready = false := by
    rw [State.ready, readMem_producerEvent_of_not_due hdue (by decide)]
    exact h
  rw [run_succ_of_step (hw.step_of_sched_nil hgo h hs),
    run_succ_of_step (hw.step_of_sched_nil hgo.producerEvent hdata ((producerEvent_sched s).trans hs)),
    run_succ_of_step (hw.step_of_ready hgo.producerEvent.producerEvent (ready_turn_after_delivery hs hdue hnext))]
  rfl

/-- What a consume sequence right after a delivery takes: the delivered byte, and READY. -/
theorem Consumed.after_delivery {t : State} (h : Consumed (producerEvent (producerEvent s)) t) :
    t.reg 0#3 = zext b ∧ t.ready = false ∧ t.input = rest ∧ t.readyDue = false := by
  obtain ⟨data, -, -, -, kbsr, -, input, readyDue, -⟩ := h
  simp only [turn_producerEvent_twice hs] at data kbsr input readyDue
  obtain ⟨-, -, hdata, -, hdue'⟩ := producerEvent_delivers hdue hnext
  refine ⟨data.trans hdata, ?_, input.trans ?_, readyDue.trans hdue'⟩
  · rw [State.ready, kbsr, BitVec.msb_and]
    exact Bool.and_false _
  · rw [producerEvent_of_byte hdue hnext]
    rfl

/-- Either held trap completes in the three steps; IN echoes the delivered byte. -/
theorem exists_run_three_completes {echo : List Byte} (he : s.engineEnabled = true)
    (hheld : s.pos = .getcWait ∧ echo = [] ∨ s.pos = .inWait ∧ s.sinkRefuses = false ∧ echo = [b])
    (h : s.ready = false) :
    ∃ t, core.run 3 s = .next t ∧ CompletesInput (producerEvent (producerEvent s)) t echo := by
  have hready := ready_turn_after_delivery hs hdue hnext
  obtain ⟨hpos, rfl⟩ | ⟨hpos, hsink, rfl⟩ := hheld
  · exact ⟨_, getc_waitsAt.run_three hs hdue hnext (goesOnAt_of_sched_nil he hpos hs) h,
      serviceGetc_completes hready⟩
  · have honly := (producerEvent_producerOnly s).trans (producerEvent_producerOnly _)
    have hcompletes := serviceInAfterPrompt_completes hready (honly.afterChars.accepts (sinkAccepts_one hsink))
    refine ⟨_, in_waitsAt.run_three hs hdue hnext (goesOnAt_of_sched_nil he hpos hs) h, ?_⟩
    rwa [(hcompletes.consumed.after_delivery hs hdue hnext).1, setWidth_zext b (by decide)] at hcompletes

end

/-- Settles O48: the trap completes (`exists_run_three_completes`) from the state the producer's two events left, which
differs from the first one in the producer's share alone. -/
theorem heldInputTrapReceivesTheNextByte : Obligations.HeldInputTrapReceivesTheNextByte := by
  intro s b rest echo he hs hheld hdue h hnext
  obtain ⟨t, hrun, hconsumed, houtput, hfault, hplan⟩ := exists_run_three_completes hs hdue hnext he hheld h
  obtain ⟨hdata, hready, hinput, hdue'⟩ := hconsumed.after_delivery hs hdue hnext
  have honly := (producerEvent_producerOnly s).trans (producerEvent_producerOnly _)
  have hturn := turn_producerEvent_twice hs
  refine ⟨t, hrun, hdata, fun i hi => ?regs, hconsumed.pos, ?cond, hready, hinput, hdue', hconsumed.pc.trans honly.pc,
    ?output, ?plan, hconsumed.running.trans honly.running, hfault.trans honly.fault, fun a hkbsr hkbdr => ?mem⟩
  case regs => rw [hconsumed.others i hi, reg_congr honly.regs]
  case cond => rw [hconsumed.cond, hdata, honly.cfg, honly.cond]
  case output => rw [houtput, honly.output]
  case plan => rw [hplan, honly.afterChars.sinkAfter, Nat.zero_add]
  case mem =>
    rw [hconsumed.mem a hkbsr, hturn, hturn, hturn]
    exact honly.mem a hkbsr hkbdr

end Sys2Proof.Machine
end

section
/-! PROOFS. PUTS and PUTSP (44_trap.md R143, R145): both are one scan of the string, whose characters are those the
statements name; a string that ends within the scan is emitted, one that never ends is emitted pass after pass. -/

namespace Sys2Proof.Machine

/-! ### The characters of a string -/

theorem putsText_eq_flatMap (ws : List Word) : putsText ws = ws.flatMap putsChars := by
  rw [putsText, List.map_eq_flatMap]
  rfl

theorem highByte_eq_setWidth (w : Word) : highByte w = (w >>> 8).setWidth 8 := by
  apply BitVec.eq_of_getLsbD_eq
  intro i hi
  simp [highByte, hi]

theorem zext_highByte (w : Word) : zext (highByte w) = w >>> 8 := by
  have hlt := w.isLt
  apply BitVec.eq_of_toNat_eq
  rw [highByte_eq_setWidth, zext, BitVec.toNat_setWidth, BitVec.toNat_setWidth, BitVec.toNat_ushiftRight,
    Nat.shiftRight_eq_div_pow]
  omega

theorem highByte_eq_zero_iff (w : Word) : highByte w = 0x00#8 ↔ w >>> 8 = 0x0000#16 := by
  rw [← zext_highByte]
  constructor
  · intro h
    rw [h]
    rfl
  · intro h
    rw [← setWidth_zext (highByte w) (by decide), h]
    rfl

theorem putspChars_eq_cons (w : Word) :
    putspChars w = w.setWidth 8 :: (if w >>> 8 = 0x0000#16 then [] else [(w >>> 8).setWidth 8]) := by
  by_cases hhigh : w >>> 8 = 0x0000#16
  · rw [if_pos hhigh, putspChars, if_pos ((highByte_eq_zero_iff w).mpr hhigh), lowByte_eq_setWidth]
  · rw [if_neg hhigh, putspChars, if_neg (mt (highByte_eq_zero_iff w).mp hhigh), lowByte_eq_setWidth,
      highByte_eq_setWidth]

theorem putspText_eq_flatMap (ws : List Word) : putspText ws = ws.flatMap putspChars := by
  rw [funext putspChars_eq_cons, putspText]

/-! ### Strings that end -/

/-- Settles O43: the instruction and the step that goes on are one scan from their address (`scan_of_string`). -/
theorem putsEmitsTheStringAtR0 : Obligations.PutsEmitsTheStringAtR0 := by
  simp only [Obligations.PutsEmitsTheStringAtR0, putsText_eq_flatMap]
  exact ⟨fun s ign ws hlen hs hz hu ha => ⟨_, rfl, scan_of_string putsChars .puts hlen hs hz hu ha⟩,
    fun s a ws hgo hlen hs hz hu ha => ⟨_, step_of_puts hgo, scan_of_string putsChars .puts hlen hs hz hu ha⟩⟩

/-- Settles O44, as for PUTS, with the characters of a packed string (`putspText_eq_flatMap`). -/
theorem putspEmitsThePackedStringAtR0 : Obligations.PutspEmitsThePackedStringAtR0 := by
  simp only [Obligations.PutspEmitsThePackedStringAtR0, putspText_eq_flatMap]
  exact ⟨fun s ign ws hlen hs hz hu ha => ⟨_, rfl, scan_of_string putspChars .putsp hlen hs hz hu ha⟩,
    fun s a ws hgo hlen hs hz hu ha => ⟨_, step_of_putsp hgo, scan_of_string putspChars .putsp hlen hs hz hu ha⟩⟩

/-! ### Strings that never end -/

/-- Nothing is scheduled, the sink never refuses, and no word in memory is zero. -/
structure Unterminated (s : State) : Prop where
  sched : s.sched = []
  accepts : ∀ n, s.SinkAccepts n
  nonzero : ∀ b, s.readMem b ≠ 0x0000#16

/-- The words of one whole pass over memory from `a` on. -/
def State.pass (s : State) (a : Word) : List Word :=
  (List.range scanBound).map fun k => s.readMem (a + BitVec.ofNat 16 k)

theorem length_pass (s : State) (a : Word) : (s.pass a).length = 65536 := by
  rw [State.pass, List.length_map, List.length_range]
  rfl

/-- The state after one whole pass from `a` on, but for the engine's position. -/
def State.afterPass (chars : Word → List Byte) (a : Word) (s : State) : State :=
  { s with
    output := s.output ++ (s.pass a).flatMap chars
    sinkPlan := s.sinkAfter ((s.pass a).flatMap chars).length }

section
variable (chars : Word → List Byte) (hold : Word → Position) {s : State} {a : Word}

/-- A pass emits and uses up the sink's plan, and neither ends an unterminated string. -/
theorem Unterminated.afterPass (h : Unterminated s) : Unterminated (s.afterPass chars a) where
  sched := h.sched
  accepts _ := AfterChars.accepts (s := s) (m := ((s.pass a).flatMap chars).length) ⟨rfl, rfl⟩ (h.accepts _)
  nonzero := h.nonzero

/-- A scan of a whole pass stands at the address it started from. -/
theorem scan_pass (h : Unterminated s) :
    scan chars hold scanBound a s = { s.afterPass chars a with pos := hold a } := by
  have hwrap : a + BitVec.ofNat 16 scanBound = a := BitVec.add_zero a
  rw [scan_of_no_zero chars hold scanBound a h.sched h.accepts h.nonzero rfl, hwrap]
  rfl

/-- Steps of a service that are scans emit a pass each, for as many steps as there are. -/
theorem run_passes (hstep : ∀ {s : State}, s.GoesOnAt (hold a) → step s = .next (scan chars hold scanBound a s))
    (he : s.engineEnabled = true) (hpos : s.pos = hold a) (h : Unterminated s) (k : Nat) :
    ∃ o p, core.run k s = .next { s with output := o, sinkPlan := p } ∧
      o.length = s.output.length + k * ((s.pass a).flatMap chars).length := by
  induction k generalizing s with
  | zero => exact ⟨s.output, s.sinkPlan, rfl, by simp⟩
  | succ k ih =>
    have hfirst : step s = .next (s.afterPass chars a) := by
      rw [hstep (goesOnAt_of_sched_nil he hpos h.sched), scan_pass chars hold h, ← hpos]
      rfl
    obtain ⟨o, p, hrun, hlength⟩ := ih (s := s.afterPass chars a) he hpos (h.afterPass chars)
    refine ⟨o, p, (run_succ_of_step hfirst k).trans hrun, hlength.trans ?_⟩
    rw [State.afterPass, List.length_append, Nat.succ_mul, Nat.add_assoc, Nat.add_comm (k * _)]
    rfl

end

theorem length_flatMap_putsChars (ws : List Word) : (ws.flatMap putsChars).length = ws.length := by
  rw [← putsText_eq_flatMap, putsText, List.length_map]

/-- Every word of a packed string has its low byte emitted at least. -/
theorem length_le_length_flatMap_putspChars (ws : List Word) : ws.length ≤ (ws.flatMap putspChars).length := by
  induction ws with
  | nil => simp
  | cons w ws ih =>
    have hw : 1 ≤ (putspChars w).length := by
      unfold putspChars
      split <;> simp
    rw [List.flatMap_cons, List.length_append, List.length_cons]
    omega

/-- Settles O45: the instruction is one pass (`scan_pass`), each later step is one more (`run_passes`). -/
theorem unterminatedStringsNeverEnd : Obligations.UnterminatedStringsNeverEnd := by
  refine ⟨fun s ign hs ha hz => ?instruction, fun s a he hs ha hz => ?steps⟩
  case instruction =>
    have h : Unterminated s := ⟨hs, ha, hz⟩
    refine ⟨⟨_, congrArg Host.Outcome.next (scan_pass putsChars .puts h), rfl, ?_, Agree.refl s⟩,
      ⟨_, congrArg Host.Outcome.next (scan_pass putspChars .putsp h), rfl, ?_, Agree.refl s⟩⟩
    · rw [putsText_eq_flatMap]
      rfl
    · rw [putspText_eq_flatMap]
      rfl
  case steps =>
    have h : Unterminated s := ⟨hs, ha, hz⟩
    refine ⟨fun hpos k => ?puts, fun hpos k => ?putsp⟩
    case puts =>
      obtain ⟨o, p, hrun, hlength⟩ := run_passes putsChars .puts step_of_puts he hpos h k
      rw [length_flatMap_putsChars, length_pass] at hlength
      exact ⟨_, hrun, hpos, hlength, Agree.refl s⟩
    case putsp =>
      obtain ⟨o, p, hrun, hlength⟩ := run_passes putspChars .putsp step_of_putsp he hpos h k
      have hpass := length_le_length_flatMap_putspChars (s.pass a)
      rw [length_pass] at hpass
      refine ⟨_, hrun, hpos, ?_, Agree.refl s⟩
      calc o.length = _ := hlength
        _ ≥ s.output.length + k * 65536 := Nat.add_le_add_left (Nat.mul_le_mul_left k hpass) _

end Sys2Proof.Machine
end

section
/-! PROOFS. The producer's two events, and what every step answers (60_exceptions.md R160, R171; 40_execution_cycle.md
R70): an instruction, and an enabled engine, always has a next state. -/

namespace Sys2Proof.Machine

/-! ### The producer's events -/

theorem getLsbD_or_readyBit (w : Word) (i : Nat) :
    (w ||| 0x8000#16).getLsbD i = (decide (i = 15) || w.getLsbD i) := by
  have hbit : (0x8000#16).getLsbD i = decide (i = 15) := by
    rw [show 0x8000#16 = BitVec.twoPow 16 15 from rfl, BitVec.getLsbD_twoPow]
    simp [eq_comm]
  rw [BitVec.getLsbD_or, hbit, Bool.or_comm]

theorem kbdReady_kbsr (s : State) :
    (kbdReady s).readMem Config.kbsr = s.readMem Config.kbsr ||| 0x8000#16 :=
  read_write_self s.mem Config.kbsr _

/-- Settles O11: an event of the producer leaves the engine's state alone (`ProducerOnly`) and every word but its own;
it is `kbdData` of the next byte, `kbdReady`, or nothing. -/
theorem producerEventsWriteOnlyTheDeviceWords : Obligations.ProducerEventsWriteOnlyTheDeviceWords := by
  have hframe (s : State) : SameEngineState s (producerEvent s) ∧ (producerEvent s).pos = s.pos ∧
      (producerEvent s).sched = s.sched :=
    ⟨(producerEvent_producerOnly s).sameEngineState, (producerEvent_producerOnly s).pos, producerEvent_sched s⟩
  refine ⟨fun s b rest hdue hnext => ?data, fun s hdue => ?ready, fun s => producerEvent_of_none⟩
  case data =>
    obtain ⟨hdata, hdue', -⟩ := producerEvent_delivers hdue hnext
    refine ⟨hdata, fun a => readMem_producerEvent_of_not_due hdue, ?_, hdue', hframe s⟩
    rw [producerEvent_of_byte hdue hnext]
    rfl
  case ready =>
    refine ⟨fun i => ?_, fun a => readMem_producerEvent_of_due hdue, ?_, ?_, hframe s⟩ <;>
      rw [producerEvent_of_due hdue]
    · rw [kbdReady_kbsr, getLsbD_or_readyBit]
    · rfl
    · rfl

/-! ### What a step answers -/

theorem exec_answers_next (i : Instr) (s : State) : ∃ t, exec i s = .next t := by
  cases i <;> exact ⟨_, rfl⟩

theorem engineStep_answers_next (s : State) : ∃ t, engineStep s = .next t := by
  unfold engineStep
  cases s.pos with
  | fetch => exact exec_answers_next _ _
  | getcWait | inWait | puts | putsp => exact ⟨_, rfl⟩

/-- The engine's step when the schedule does not name the producer. -/
theorem step_of_not_producer_entry {s : State} (h : s.sched.head? ≠ some .producer) :
    step s = if s.engineEnabled then engineStep s else stoppedStep s := by
  unfold step machineStep
  split
  case h_1 hs => simp [hs] at h
  case h_2 => rfl

/-- Every answer of a step: a next state, or the end of a machine in which neither agent can move. -/
theorem step_answers (s : State) :
    (∃ t, step s = .next t) ∨
      s.engineEnabled = false ∧ s.producerEnabled = false ∧
        step s = .fault (if s.fault.isSome then .faulted else .halted) := by
  by_cases hentry : s.sched.head? = some .producer
  · obtain ⟨rest, hs⟩ := List.head?_eq_some_iff.mp hentry
    exact .inl ⟨_, step_of_producer_entry hs⟩
  rw [step_of_not_producer_entry hentry, stoppedStep]
  cases s.engineEnabled with
  | true => exact .inl (engineStep_answers_next s)
  | false =>
    cases s.producerEnabled with
    | true => exact .inl ⟨_, rfl⟩
    | false => exact .inr ⟨rfl, rfl, rfl⟩

/-- Settles O12: `exec_answers_next`, and `step_answers` for the step. -/
theorem enabledEngineAlwaysHasANextState : Obligations.EnabledEngineAlwaysHasANextState := by
  refine ⟨exec_answers_next, fun s he => ?enabled, fun s f hf => ?fault, fun s r hr => ?refused⟩ <;>
    obtain ⟨t, hnext⟩ | ⟨hstopped, hnone, hend⟩ := step_answers s
  case enabled.inl => exact ⟨t, hnext⟩
  case enabled.inr => simp [he] at hstopped
  case fault.inl => simp [hnext] at hf
  case fault.inr =>
    obtain rfl := Host.Outcome.fault.inj (hend.symm.trans hf)
    refine ⟨hstopped, hnone, ?_⟩
    cases s.fault <;> simp
  case refused.inl => simp [hnext] at hr
  case refused.inr => simp [hend] at hr

end Sys2Proof.Machine
end

section
/-! PROOFS. A sink that refuses a character (60_exceptions.md R163): the service stops there, and what it did before
stays done. -/

namespace Sys2Proof.Machine

theorem emit_stops {s : State} {cs : List Byte} {n : Nat} (h : s.SinkRefusesAt n) (hn : n < cs.length) :
    (emit cs s).2 = false ∧ Faults { s with output := s.output ++ cs.take n } (emit cs s).1 .ioError ∧
      (emit cs s).1.sinkPlan = s.sinkAfter (n + 1) := by
  rw [emit_of_refuses h hn]
  exact ⟨rfl, { faults_raise _ _ with }, rfl⟩

theorem serviceIn_of_refuses {s : State} {n : Nat} (h : s.SinkRefusesAt n) (hn : n < s.cfg.inPrompt.length) :
    serviceIn s = (emit s.cfg.inPrompt s).1 := by
  rw [serviceIn, emit_of_refuses h hn]

/-! ### IN's echo -/

/-- What is emitted after a consume sequence, refused or not, leaves what it consumed. -/
theorem Consumed.after_emit {s t : State} (h : Consumed s t) (cs : List Byte) : Consumed s (emit cs t).1 := by
  have f := emit_frame cs t
  have hreg := reg_congr f.regs
  have hmem := readMem_congr f.mem
  have hpos : (emit cs t).1.pos = .fetch := by
    cases haccepted : (emit cs t).2 with
    | true => exact (f.accepted haccepted).2.1.trans h.pos
    | false => exact (f.refused haccepted).2.1
  exact {
    data := (hreg _).trans h.data
    others := fun i hi => (hreg i).trans (h.others i hi)
    cond := by rw [f.cond, hreg, h.cond]
    pc := f.pc.trans h.pc
    kbsr := (hmem _).trans h.kbsr
    mem := fun a ha => (hmem a).trans (h.mem a ha)
    input := f.input.trans h.input
    readyDue := f.readyDue.trans h.readyDue
    sched := f.sched.trans h.sched
    running := f.running.trans h.running
    pos := hpos
    cfg := f.cfg.trans h.cfg }

/-- IN from its poll on, when the poll observes READY: what is consumed does not depend on the sink. -/
theorem serviceInAfterPrompt_consumed {s : State} (h : s.turn.ready = true) :
    Consumed s (serviceInAfterPrompt s) := by
  obtain ⟨t, ht, hconsumed⟩ := consume_consumed (hold := .inWait) h
  rw [serviceInAfterPrompt, ht]
  exact hconsumed.after_emit _

/-- From `s` to `t` IN has emitted `text`, consumed, and stopped at its refused echo. -/
structure StopsAtEcho (s t : State) (text : List Byte) : Prop where
  consumed : Consumed s t
  fault : t.fault = some .ioError
  output : t.output = s.output ++ text
  sinkPlan : t.sinkPlan = s.sinkAfter (text.length + 1)

theorem serviceInAfterPrompt_stops {s : State} (h : s.turn.ready = true) (hr : s.SinkRefusesAt 0) :
    StopsAtEcho s (serviceInAfterPrompt s) [] := by
  obtain ⟨t, ht, hconsumed⟩ := consume_consumed (hold := .inWait) h
  have hframe := consume_frame .inWait s
  rw [ht] at hframe
  have hafter : AfterChars s { t with pos := .fetch } 0 := .of_sinkPlan_eq hframe.cfg hframe.sinkPlan
  obtain ⟨-, hfaults, hplan⟩ := emit_stops (cs := [lowByte (t.reg 0#3)]) (hafter.refusesAt hr) Nat.one_pos
  rw [serviceInAfterPrompt, ht]
  exact ⟨hconsumed.after_emit _, hfaults.fault, hfaults.output.trans (congrArg (· ++ []) hframe.output),
    hplan.trans (hafter.sinkAfter 1)⟩

theorem serviceIn_stops {s : State} (h : s.turn.ready = true) (hr : s.SinkRefusesAt s.cfg.inPrompt.length) :
    StopsAtEcho s (serviceIn s) s.cfg.inPrompt := by
  have hprompt := prompted_afterChars s
  rw [serviceIn_of_accepts (SinkRefusesAt.accepts hr (Nat.le_refl _))]
  obtain ⟨hconsumed, hfault, houtput, hplan⟩ :=
    serviceInAfterPrompt_stops ((ready_turn_prompted s).trans h) (hprompt.refusesAt hr)
  exact ⟨hconsumed.of_withSink, hfault, houtput.trans (List.append_nil _), hplan.trans (hprompt.sinkAfter 1)⟩

/-- Settles O47: the prompt is emitted, and IN stops at its echo (`serviceIn_stops`). -/
theorem refusedEchoKeepsTheConsumedCharacter : Obligations.RefusedEchoKeepsTheConsumedCharacter := by
  intro s ign hr h
  obtain ⟨hconsumed, hfault, houtput, hplan⟩ := serviceIn_stops h hr
  exact ⟨_, rfl, hconsumed, hfault, houtput, hplan⟩

/-! ### Every service -/

/-- Settles O46: a sequence of `out` stops at the refused character (`emit_stops`), so OUT and IN's prompt do; the held
IN stops at its echo, the string services inside their scan (`scan_of_refusal`). -/
theorem refusedCharacterStopsTheService : Obligations.RefusedCharacterStopsTheService := by
  simp only [Obligations.RefusedCharacterStopsTheService, putsText_eq_flatMap, putspText_eq_flatMap]
  refine ⟨fun s cs n => emit_stops, fun s ign hr => ?out, fun s ign n hr hn => ?prompt,
    fun s he hpos hsched h hr => ?echo, fun s ign ws n hlen hs hu hr => ?strings,
    fun s a ws n he hsched hlen hs hu hr => ?heldStrings⟩
  case out =>
    obtain ⟨-, hfaults, hplan⟩ := emit_stops (cs := [lowByte (s.reg 0#3)]) hr Nat.one_pos
    rw [List.take_zero, List.append_nil] at hfaults
    exact ⟨_, rfl, hfaults, hplan⟩
  case prompt =>
    obtain ⟨-, hfaults, hplan⟩ := emit_stops hr hn
    exact ⟨_, congrArg Host.Outcome.next (serviceIn_of_refuses hr hn), hfaults, hplan⟩
  case echo =>
    obtain ⟨hconsumed, hfault, houtput, hplan⟩ := serviceInAfterPrompt_stops h hr
    rw [List.append_nil] at houtput
    exact ⟨_, in_waitsAt.step_of_ready ⟨he, hpos, hsched⟩ h, hconsumed, hfault, houtput, hplan⟩
  case strings =>
    exact ⟨fun hn => ⟨_, rfl, scan_of_refusal putsChars .puts hlen hs hu hr hn⟩,
      fun hn => ⟨_, rfl, scan_of_refusal putspChars .putsp hlen hs hu hr hn⟩⟩
  case heldStrings =>
    exact ⟨fun hpos hn =>
        ⟨_, step_of_puts ⟨he, hpos, hsched⟩, scan_of_refusal putsChars .puts hlen hs hu hr hn⟩,
      fun hpos hn =>
        ⟨_, step_of_putsp ⟨he, hpos, hsched⟩, scan_of_refusal putspChars .putsp hlen hs hu hr hn⟩⟩

end Sys2Proof.Machine
end

section
/-! PROOFS. The keyboard handshake (60_exceptions.md R172, R174): what the consume sequence of GETC and IN finds in
KBDR, and what it leaves of the two device words, by how many producer events fall before each of its accesses. -/

namespace Sys2Proof.Machine

/-! ### The word that is consumed -/

/-- What KBDR holds at `t` it held at `s`, or it is a byte that `s` had still to deliver. -/
def KbdrComesFrom (s t : State) : Prop :=
  t.readMem Config.kbdr = s.readMem Config.kbdr ∨ ∃ b, s.input.Holds b ∧ t.readMem Config.kbdr = zext b

theorem KbdrComesFrom.trans {s t u : State} (h : KbdrComesFrom s t) (hinput : ∀ b, t.input.Holds b → s.input.Holds b)
    (k : KbdrComesFrom t u) : KbdrComesFrom s u := by
  obtain hkept | ⟨b, hb, hbyte⟩ := k
  · rw [KbdrComesFrom, hkept]
    exact h
  · exact .inr ⟨b, hinput b hb, hbyte⟩

theorem producerEvent_kbdrComesFrom (s : State) : KbdrComesFrom s (producerEvent s) := by
  cases hdue : s.readyDue with
  | true => exact .inl (readMem_producerEvent_of_due hdue (by decide))
  | false =>
    cases hnext : s.input.next with
    | none => exact .inl (by rw [producerEvent_of_none hdue hnext])
    | some next => exact .inr ⟨next.1, Input.holds_next hnext, (producerEvent_delivers hdue hnext).1⟩

theorem drain_kbdrComesFrom (l : List Agent) (s : State) : KbdrComesFrom s (drain l s) := by
  induction l generalizing s with
  | nil => exact .inl rfl
  | cons agent l ih =>
    cases agent with
    | engine => exact .inl rfl
    | producer =>
      exact (producerEvent_kbdrComesFrom s).trans (producerEvent_producerOnly s).input (ih (producerEvent s))

theorem turn_kbdrComesFrom (s : State) : KbdrComesFrom s s.turn := drain_kbdrComesFrom s.sched s

theorem Consumed.data_comes_from {s t : State} (h : Consumed s t) :
    t.reg 0#3 = s.readMem Config.kbdr ∨ ∃ b, s.input.Holds b ∧ t.reg 0#3 = zext b := by
  rw [h.data]
  exact (turn_kbdrComesFrom s).trans (turn_producerOnly s).input (turn_kbdrComesFrom s.turn)

theorem serviceIn_consumed {s : State} (h : s.turn.ready = true) (ha : s.SinkAccepts s.cfg.inPrompt.length) :
    Consumed s (serviceIn s) := by
  rw [serviceIn_of_accepts ha]
  exact (serviceInAfterPrompt_consumed ((ready_turn_prompted s).trans h)).of_withSink

/-- Settles O51: both traps consume the word of KBDR two turns on (`Consumed.data_comes_from`). -/
theorem consumedWordIsTheHeldWordOrADeliveredByte : Obligations.ConsumedWordIsTheHeldWordOrADeliveredByte := by
  intro s t ign h htrap
  have hconsumed : Consumed s t := by
    obtain hgetc | ⟨hin, ha⟩ := htrap
    · exact Host.Outcome.next.inj hgetc ▸ (serviceGetc_completes h).consumed
    · exact Host.Outcome.next.inj hin ▸ serviceIn_consumed h ha
  exact hconsumed.data_comes_from

/-! ### The handshake's table

A byte `b` is ready in KBDR and one byte `b'` is still to be delivered. The producer's events are then `KbdData` of
`b'`, its `KbdReady`, and no more; what GETC ends with depends on how many fall before its second access, the read of
KBDR, and how many between that and its third, the clear of READY. -/

/-- KBDR's byte after `k` of the producer's events. -/
def byteAfter (b b' : Byte) : Nat → Byte
  | 0 => b
  | _ + 1 => b'

/-- What the producer has still to deliver after `k` of its events. -/
def leftAfter (b' : Byte) : Nat → List Byte
  | 0 => [b']
  | _ + 1 => []

/-- Whether `KbdReady` is due after `k` of the producer's events. -/
def dueAfter : Nat → Bool
  | 0 => false
  | 1 => true
  | _ + 2 => false

/-- The keyboard after `k` of the producer's events. -/
structure KeyboardAfter (b b' : Byte) (k : Nat) (s : State) : Prop where
  ready : s.ready = true
  data : s.readMem Config.kbdr = zext (byteAfter b b' k)
  input : s.input = .finite (leftAfter b' k)
  readyDue : s.readyDue = dueAfter k

section
variable {b b' : Byte} {k : Nat} {s : State}

/-- The schedule is no part of the keyboard. -/
theorem KeyboardAfter.withSched (h : KeyboardAfter b b' k s) (l : List Agent) :
    KeyboardAfter b b' k { s with sched := l } :=
  ⟨h.ready, h.data, h.input, h.readyDue⟩

theorem KeyboardAfter.succ (h : KeyboardAfter b b' k s) : KeyboardAfter b b' (k + 1) (producerEvent s) := by
  obtain ⟨hready, hdata, hinput, hdue⟩ := h
  match k with
  | 0 =>
    have hnext : s.input.next = some (b', .finite []) := by
      rw [hinput]
      rfl
    obtain ⟨hdata', hdue', -⟩ := producerEvent_delivers hdue hnext
    refine ⟨?_, hdata', ?_, hdue'⟩
    · rw [State.ready, readMem_producerEvent_of_not_due hdue (by decide)]
      exact hready
    · rw [producerEvent_of_byte hdue hnext]
      rfl
  | 1 =>
    have hdata' := (readMem_producerEvent_of_due hdue (by decide)).trans hdata
    rw [producerEvent_of_due hdue] at hdata' ⊢
    refine ⟨?_, hdata', hinput, rfl⟩
    rw [State.ready, kbdReady_kbsr, BitVec.msb_or]
    exact Bool.or_true _
  | k + 2 =>
    rw [producerEvent_of_none hdue (by rw [hinput]; rfl)]
    exact ⟨hready, hdata, hinput, hdue⟩

theorem KeyboardAfter.iterate (j : Nat) (h : KeyboardAfter b b' k s) :
    KeyboardAfter b b' (j + k) (producerEvent^[j] s) := by
  induction j with
  | zero => rwa [Nat.zero_add]
  | succ j ih =>
    rw [Nat.succ_add, Function.iterate_succ_apply']
    exact ih.succ

theorem KeyboardAfter.turn (h : KeyboardAfter b b' k s) : ∃ j, KeyboardAfter b b' (j + k) s.turn := by
  obtain ⟨j, hj⟩ := (turn_onlyEvents s).events
  have hturn := (h.withSched []).iterate j
  rw [← State.unscheduled, ← hj] at hturn
  exact ⟨j, hturn.withSched s.turn.sched⟩

/-- A turn in which the schedule puts exactly `j` producer events. -/
theorem KeyboardAfter.turn_of_sched (h : KeyboardAfter b b' k s) (j : Nat) {rest : List Agent}
    (hs : s.sched = List.replicate j .producer ++ .engine :: rest) :
    KeyboardAfter b b' (j + k) s.turn ∧ s.turn.sched = rest := by
  obtain ⟨hturn, -⟩ := turnPerformsTheScheduledProducerEvents
  rw [hturn s j rest hs]
  exact ⟨(h.iterate j).withSched rest, rfl⟩

end

theorem Consumed.not_ready {s t : State} (h : Consumed s t) : t.ready = false := by
  rw [State.ready, h.kbsr, BitVec.msb_and]
  exact Bool.and_false _

/-- GETC has ended, with `m` of the producer's events before its second access and `k` between that and its third. -/
def HandshakeEnds (b b' : Byte) (m k : Nat) (t : State) : Prop :=
  t.reg 0#3 = zext (byteAfter b b' m) ∧ t.readMem Config.kbdr = zext (byteAfter b b' (k + m)) ∧ t.ready = false ∧
    t.input = .finite (leftAfter b' (k + m)) ∧ t.readyDue = dueAfter (k + m)

theorem serviceGetc_ends {b b' : Byte} {m k : Nat} {s : State} (h : s.turn.ready = true)
    (hread : KeyboardAfter b b' m s.turn.turn) (hclear : KeyboardAfter b b' (k + m) s.turn.turn.turn) :
    HandshakeEnds b b' m k (serviceGetc s) := by
  have hconsumed := (serviceGetc_completes h).consumed
  exact ⟨hconsumed.data.trans hread.data, (hconsumed.mem _ (by decide)).trans hclear.data, hconsumed.not_ready,
    hconsumed.input.trans hclear.input, hconsumed.readyDue.trans hclear.readyDue⟩

/-- The schedule that puts `m` producer events before GETC's first access and `k` before its third. -/
def handshakeSchedule (m k : Nat) : List Agent :=
  List.replicate m .producer ++ .engine :: .engine :: (List.replicate k .producer ++ [.engine])

section
variable {b b' : Byte} {s : State} (h : KeyboardAfter b b' 0 s)
include h

theorem exists_handshakeEnds : ∃ m k, HandshakeEnds b b' m k (serviceGetc s) := by
  obtain ⟨_, hpoll⟩ := h.turn
  obtain ⟨_, hread⟩ := hpoll.turn
  obtain ⟨k, hclear⟩ := hread.turn
  exact ⟨_, k, serviceGetc_ends hpoll.ready hread hclear⟩

theorem handshakeEnds_of_schedule (m k : Nat) :
    HandshakeEnds b b' m k (serviceGetc { s with sched := handshakeSchedule m k }) := by
  obtain ⟨hpoll, hsched⟩ := (h.withSched (handshakeSchedule m k)).turn_of_sched m rfl
  obtain ⟨hread, hsched⟩ := hpoll.turn_of_sched 0 hsched
  obtain ⟨hclear, -⟩ := hread.turn_of_sched k hsched
  rw [Nat.zero_add] at hread hclear
  exact serviceGetc_ends hpoll.ready hread hclear

end

/-- Settles O50: GETC ends as its numbers of events say (`exists_handshakeEnds`), from two on they say the same, and any
two numbers are a schedule's (`handshakeEnds_of_schedule`). -/
theorem handshakeHasExactlyTheListedOutcomes : Obligations.HandshakeHasExactlyTheListedOutcomes := by
  intro s ign b b' hready hdata hdue hinput
  have h : KeyboardAfter b b' 0 s := ⟨hready, hdata, hinput, hdue⟩
  have hreached := handshakeEnds_of_schedule h
  refine ⟨fun l => ⟨_, rfl, ?outcome⟩, ⟨_, _, rfl, hreached 0 0⟩, ⟨_, _, rfl, hreached 1 0⟩,
    ⟨_, _, rfl, hreached 0 1⟩, ⟨_, _, rfl, hreached 2 0⟩, ⟨_, _, rfl, hreached 0 2⟩⟩
  case outcome =>
    obtain ⟨m, k, hends⟩ := exists_handshakeEnds (h.withSched l)
    match m, k with
    | 0, 0 => exact .inl hends
    | 1, 0 => exact .inr (.inl hends)
    | 0, 1 => exact .inr (.inr (.inl hends))
    | 1, _ + 1 | _ + 2, _ => exact .inr (.inr (.inr (.inl hends)))
    | 0, _ + 2 => exact .inr (.inr (.inr (.inr hends)))

end Sys2Proof.Machine
end

section
/-! PROOFS. The machine invariant (10_state.md R17, R24; 70_reset_and_hazards.md R194). A stopped engine's step is the
producer's, which leaves what the invariant speaks of. A step of an enabled engine keeps the parameters and the
canonical form; it stops the engine by HALT, or by a record of the listed causes, in either case between instructions. -/

namespace Sys2Proof.Machine

/-! ### The parameters and the canonical form of memory -/

/-- From `s` to `t` the parameters are as they were, and memory stays canonical. -/
structure KeepsForm (s t : State) : Prop where
  cfg : t.cfg = s.cfg
  wf : Memory.wf s.mem → Memory.wf t.mem

theorem KeepsForm.trans {s t u : State} (h : KeepsForm s t) (k : KeepsForm t u) : KeepsForm s u :=
  ⟨k.cfg.trans h.cfg, k.wf ∘ h.wf⟩

theorem InputFrame.keepsForm {s t : State} (h : InputFrame s t) : KeepsForm s t := ⟨h.cfg, h.wf⟩

theorem turn_keepsForm (s : State) : KeepsForm s s.turn := (turn_producerOnly s).inputFrame.keepsForm

theorem writeMem_keepsForm (s : State) (a v : Word) : KeepsForm s (s.writeMem a v) :=
  ⟨rfl, fun hwf => write_wf hwf a v⟩

theorem exec_keepsForm {i : Instr} {s t : State} (hi : i.wf = true) (h : exec i s = .next t) : KeepsForm s t := by
  have hturns : KeepsForm s s.turn.turn := (turn_keepsForm s).trans (turn_keepsForm s.turn)
  cases i
  case trap ign v =>
    obtain rfl := Host.Outcome.next.inj ((exec_trap_of_wf hi s).symm.trans h)
    unfold undefinedVector
    split <;> exact ⟨rfl, id⟩
  all_goals obtain rfl := Host.Outcome.next.inj h
  case addReg | addImm | andReg | andImm | not | lea | jmp | jsr | jsrr | rti | res | trapHalt => exact ⟨rfl, id⟩
  case br => split <;> exact ⟨rfl, id⟩
  case ld | ldr => exact (turn_keepsForm s).trans ⟨rfl, id⟩
  case ldi => exact hturns.trans ⟨rfl, id⟩
  case st | str => exact (turn_keepsForm s).trans (writeMem_keepsForm _ _ _)
  case sti => exact hturns.trans (writeMem_keepsForm _ _ _)
  case trapGetc => exact (serviceGetc_frame s).1.keepsForm
  case trapOut => exact (emit_frame _ s).inputFrame.keepsForm
  case trapPuts => exact (scan_frame putsChars .puts _ _ s).inputFrame.keepsForm
  case trapIn => exact (serviceIn_frame s).keepsForm
  case trapPutsp => exact (scan_frame putspChars .putsp _ _ s).inputFrame.keepsForm

theorem step_keepsForm {s t : State} (h : step s = .next t) : KeepsForm s t := by
  by_cases hfetch : s.Fetching
  · have hform := exec_keepsForm (wf_decode _) ((step_of_fetching hfetch).symm.trans h)
    exact ⟨hform.cfg, hform.wf⟩
  · exact (step_frame_of_not_fetching hfetch h).1.keepsForm

/-! ### Where the engine stands once the latch is set -/

/-- From `s` to `t` the latch is as it was, or the engine stands between instructions. -/
def LatchesBetweenInstructions (s t : State) : Prop := t.fault = s.fault ∨ t.pos = .fetch

theorem emit_latchesBetweenInstructions (cs : List Byte) (s : State) :
    LatchesBetweenInstructions s (emit cs s).1 := by
  have f := emit_frame cs s
  cases haccepted : (emit cs s).2 with
  | true => exact .inl (f.accepted haccepted).1
  | false =>
    obtain ⟨-, hpos, -⟩ := f.refused haccepted
    exact .inr hpos

theorem ScanFrame.latchesBetweenInstructions {hold : Word → Position} {s t : State} (h : ScanFrame hold s t) :
    LatchesBetweenInstructions s t :=
  h.ending.imp And.left fun ⟨_, hpos, _⟩ => hpos

theorem serviceGetc_latchesBetweenInstructions (s : State) : LatchesBetweenInstructions s (serviceGetc s) := by
  obtain ⟨-, -, hfault, -⟩ := serviceGetc_frame s
  exact .inl hfault

theorem serviceInAfterPrompt_latchesBetweenInstructions (s : State) :
    LatchesBetweenInstructions s (serviceInAfterPrompt s) := by
  have f := consume_frame .inWait s
  unfold serviceInAfterPrompt
  split <;> rename_i t h <;> rw [h] at f
  · exact (emit_latchesBetweenInstructions _ _).imp_left (·.trans f.fault)
  · exact .inl f.fault

theorem serviceIn_latchesBetweenInstructions (s : State) : LatchesBetweenInstructions s (serviceIn s) := by
  have f := emit_frame s.cfg.inPrompt s
  have hprompt := emit_latchesBetweenInstructions s.cfg.inPrompt s
  unfold serviceIn
  split <;> rename_i t h <;> rw [h] at f hprompt
  · exact (serviceInAfterPrompt_latchesBetweenInstructions t).imp_left (·.trans (f.accepted rfl).1)
  · exact hprompt

theorem exec_latchesBetweenInstructions {i : Instr} {s t : State} (hi : i.wf = true) (h : exec i s = .next t) :
    LatchesBetweenInstructions s t := by
  cases exec_effect hi h with
  | quiet _ fault => exact .inl fault
  | rti | res | undefinedTrap => exact .inr rfl
  | halt => exact .inl rfl
  | emits hservice =>
    obtain ⟨ign, rfl⟩ | ⟨ign, rfl⟩ | ⟨ign, rfl⟩ | ⟨ign, rfl⟩ := hservice <;> obtain rfl := Host.Outcome.next.inj h
    · exact emit_latchesBetweenInstructions _ s
    · exact (scan_frame putsChars .puts _ _ s).latchesBetweenInstructions
    · exact serviceIn_latchesBetweenInstructions s
    · exact (scan_frame putspChars .putsp _ _ s).latchesBetweenInstructions

theorem waitStep_latchesBetweenInstructions {service : State → State}
    (hs : ∀ s, LatchesBetweenInstructions s (service s)) (s : State) :
    LatchesBetweenInstructions s (waitStep service s) := by
  obtain ⟨-, -, -, h⟩ | h := waitStep_cases service s <;> rw [h]
  · exact .inl (producerEvent_producerOnly s).fault
  · exact hs s

theorem step_latchesBetweenInstructions {s t : State} (h : step s = .next t) : LatchesBetweenInstructions s t := by
  rcases step_cases h with ⟨-, hexec⟩ | ⟨-, rfl⟩ | ⟨-, rfl⟩ | ⟨-, rfl⟩ | ⟨a, -, rfl⟩ | ⟨a, -, rfl⟩
  · exact exec_latchesBetweenInstructions (s := s.fetched) (wf_decode _) hexec
  · exact .inl (producerEvent_takeEntry_producerOnly s).fault
  · exact waitStep_latchesBetweenInstructions serviceGetc_latchesBetweenInstructions s
  · exact waitStep_latchesBetweenInstructions serviceInAfterPrompt_latchesBetweenInstructions s
  · exact (scan_frame putsChars .puts _ a s).latchesBetweenInstructions
  · exact (scan_frame putspChars .putsp _ a s).latchesBetweenInstructions

/-! ### The step of a stopped engine -/

/-- What a record says of a state depends on the parameters and `pc`. -/
theorem FaultRecord.Allowed.congr {s t : State} {r : FaultRecord} (h : r.Allowed s) (hcfg : t.cfg = s.cfg)
    (hpc : t.pc = s.pc) : r.Allowed t := by
  cases r <;> simpa only [FaultRecord.Allowed, hcfg, hpc] using h

theorem ProducerOnly.inv {s t : State} (h : ProducerOnly s t) (hs : s.Inv) : t.Inv := by
  obtain ⟨hwf, hpos, hhalt, hlatch⟩ := hs
  refine ⟨h.wf hwf, ?_, ?_, ?_⟩
  · rw [State.engineEnabled, h.running, h.fault, h.pos]
    exact hpos
  · rw [h.running, h.fault]
    exact hhalt
  · rw [h.fault]
    exact fun r hr => (hlatch r hr).congr h.cfg h.pc

/-! ### The step of an enabled engine -/

theorem engineEnabled_iff (s : State) : s.engineEnabled = true ↔ s.running = true ∧ s.fault = none := by
  rw [State.engineEnabled, Bool.and_eq_true, Option.isNone_iff_eq_none]

/-- The step that clears `running` is HALT's. -/
theorem step_halts {s t : State} (h : step s = .next t) (hs : s.running = true) (ht : t.running = false) :
    s.Fetching ∧ t = serviceHalt s.fetched := by
  obtain ⟨-, hcleared, -, -⟩ := runningIsClearedOnlyByHalt
  obtain ⟨ign, hfetch, hhalt⟩ := hcleared s t h hs ht
  rw [step_of_fetching hfetch, hhalt] at h
  exact ⟨hfetch, (Host.Outcome.next.inj h).symm⟩

/-- The forms whose words a fault record can hold leave `pc` incremented. -/
theorem pcAfter_decode_of_faulting {w : Word} (hop : Field.opcode w = 8#4 ∨ Field.opcode w = 13#4 ∨
    Field.opcode w = 15#4) (s : State) : pcAfter (decode w) s = s.pc := by
  obtain hop | hop | hop := hop
  · simp only [decode, hop, pcAfter]
  · simp only [decode, hop, pcAfter]
  · rw [decode_of_opcode_trap hop, pcAfter_decodeTrap]

/-- A record a step puts in the latch is allowed by the state it leaves. -/
theorem step_latches_allowed {s t : State} {r : FaultRecord} (h : step s = .next t) (hs : s.fault = none)
    (ht : t.fault = some r) : r.Allowed t := by
  have hcfg := (step_keepsForm h).cfg
  have hpc (hfetch : s.Fetching) (hop : Field.opcode (s.readMem s.pc) = 8#4 ∨
      Field.opcode (s.readMem s.pc) = 13#4 ∨ Field.opcode (s.readMem s.pc) = 15#4) : s.pc + 1#16 = t.pc :=
    ((exec_pc ((step_of_fetching hfetch).symm.trans h)).trans (pcAfter_decode_of_faulting hop _)).symm
  obtain ⟨-, hcauses⟩ := faultLatchIsSetByTheListedCausesAndNeverCleared
  obtain ⟨hfetch, rfl, hop⟩ | ⟨rfl, hmay⟩ | ⟨hfetch, hundefined, hop, hv, rfl⟩ := hcauses s t r h hs ht
  · exact ⟨hop, rfl, hpc hfetch (hop.imp_right .inl)⟩
  · exact (congrArg Config.sinkMayFail hcfg).trans hmay
  · exact ⟨(congrArg Config.undefinedTrap hcfg).trans hundefined, hv, hop, rfl, hpc hfetch (.inr (.inr hop))⟩

theorem step_inv_of_enabled {s t : State} (he : s.engineEnabled = true) (hwf : Memory.wf s.mem)
    (h : step s = .next t) : t.Inv := by
  obtain ⟨hrunning, hfault⟩ := (engineEnabled_iff s).mp he
  refine ⟨(step_keepsForm h).wf hwf, fun hstopped => ?position, fun hhalted => ?halt,
    fun r => step_latches_allowed h hfault⟩
  case position =>
    cases hrun : t.running with
    | false =>
      obtain ⟨⟨-, hpos, -⟩, rfl⟩ := step_halts h hrunning hrun
      exact hpos
    | true =>
      refine (step_latchesBetweenInstructions h).resolve_left fun hsame => ?_
      have henabled := (engineEnabled_iff t).mpr ⟨hrun, hsame.trans hfault⟩
      simp [henabled] at hstopped
  case halt =>
    obtain ⟨-, rfl⟩ := step_halts h hrunning hhalted
    exact hfault

/-- Settles O16: a stopped engine's step is the producer's (`ProducerOnly.inv`); an enabled one's keeps memory canonical
(`step_keepsForm`) and stops it only between instructions, by HALT (`step_halts`) or by an allowed record
(`step_latchesBetweenInstructions`, `step_latches_allowed`). -/
theorem stepKeepsTheInvariant : Obligations.StepKeepsTheInvariant := by
  intro s t hs h
  have ⟨hwf, _⟩ := hs
  cases he : s.engineEnabled with
  | true => exact step_inv_of_enabled he hwf h
  | false => exact (step_of_not_enabled he h).inv hs

end Sys2Proof.Machine
end

section
/-! PROOFS. The loader (70_reset_and_hazards.md R191, R192): an image is the bytes of its words, read back as those
words, and storing them at consecutive addresses that do not wrap leaves each word where it was put. -/

namespace Sys2Proof.Machine

/-! ### The words of a byte stream -/

theorem highByte_append_lowByte (w : Word) : highByte w ++ lowByte w = w := by
  unfold highByte lowByte
  rw [append_next_field w 0 8, BitVec.extractLsb'_eq_self]

theorem wordsOfBytes_flatMap_bytes (ws : List Word) :
    wordsOfBytes (ws.flatMap fun w => [highByte w, lowByte w]) = some ws := by
  induction ws with
  | nil => rfl
  | cons w ws ih =>
    simp only [List.flatMap_cons, List.cons_append, List.nil_append, wordsOfBytes, ih, highByte_append_lowByte,
      Option.map_some]

theorem wordsOfBytes_of_odd {image : List Byte} (h : image.length % 2 = 1) : wordsOfBytes image = none := by
  induction image using wordsOfBytes.induct with
  | case1 => simp at h
  | case2 => rfl
  | case3 hi lo rest ih =>
    have hrest : rest.length % 2 = 1 := by
      simp only [List.length_cons] at h
      omega
    rw [wordsOfBytes, ih hrest, Option.map_none]

/-- What the loader answers to an image, by whether it fits. -/
theorem load_imageBytes (origin : Word) (ws : List Word) (s : State) :
    load (imageBytes origin ws) s =
      if origin.toNat + ws.length ≤ 65536 then .ok { s with mem := storeWords ws origin s.mem }
      else .error .pastEnd := by
  have hlength : ¬ (imageBytes origin ws).length < 2 := by simp [imageBytes]
  have hwords : wordsOfBytes (imageBytes origin ws) = some (origin :: ws) := wordsOfBytes_flatMap_bytes _
  rw [load, if_neg hlength, hwords]

/-! ### Words stored at consecutive addresses -/

theorem storeWords_wf (ws : List Word) (a : Word) {m : Memory} (h : Memory.wf m) :
    Memory.wf (storeWords ws a m) := by
  induction ws generalizing a m with
  | nil => exact h
  | cons w ws ih => exact ih (a + 1#16) (write_wf h a w)

theorem read_storeWords_of_ne {ws : List Word} {a b : Word} (h : ∀ k < ws.length, b ≠ a + BitVec.ofNat 16 k)
    (m : Memory) : Memory.read (storeWords ws a m) b = Memory.read m b := by
  induction ws generalizing a m with
  | nil => rfl
  | cons w ws ih =>
    have hhead : b ≠ a := by simpa using h 0 (Nat.succ_pos _)
    have htail : ∀ k < ws.length, b ≠ a + 1#16 + BitVec.ofNat 16 k := fun k hk => by
      rw [next_address]
      exact h (k + 1) (Nat.succ_lt_succ hk)
    exact (ih htail _).trans (read_write_ne m w hhead)

theorem toNat_add_ofNat {a : Word} {k : Nat} (h : a.toNat + k < 65536) :
    (a + BitVec.ofNat 16 k).toNat = a.toNat + k := by
  rw [BitVec.toNat_add, BitVec.toNat_ofNat]
  omega

/-- The words after the first do not reach its address again, since the image does not wrap. -/
theorem read_storeWords_getElem {ws : List Word} {a : Word} (hfits : a.toNat + ws.length ≤ 65536) {i : Nat}
    (hi : i < ws.length) (m : Memory) : Memory.read (storeWords ws a m) (a + BitVec.ofNat 16 i) = ws[i] := by
  induction ws generalizing a i m with
  | nil => nomatch hi
  | cons w ws ih =>
    rw [List.length_cons] at hfits hi
    cases i with
    | zero =>
      have hrest : ∀ k < ws.length, a ≠ a + 1#16 + BitVec.ofNat 16 k := fun k hk heq => by
        have hto := congrArg BitVec.toNat heq
        rw [next_address, toNat_add_ofNat (by omega)] at hto
        omega
      rw [BitVec.add_zero]
      exact (read_storeWords_of_ne hrest _).trans (read_write_self m a w)
    | succ i =>
      have hnext : (a + 1#16).toNat = a.toNat + 1 := toNat_add_ofNat (by omega)
      rw [← next_address]
      exact ih (by omega) (Nat.lt_of_succ_lt_succ hi) _

/-! ### The load -/

/-- Settles O52: the image fits, so its words are stored (`load_imageBytes`), each read back at its place
(`read_storeWords_getElem`) and no other address written (`read_storeWords_of_ne`). -/
theorem loadPlacesTheImage : Obligations.LoadPlacesTheImage := by
  intro s origin ws hfits
  refine ⟨_, (load_imageBytes origin ws s).trans (if_pos hfits), fun i hi => read_storeWords_getElem hfits hi s.mem,
    fun a ha => ?outside, fun _ => rfl, rfl, rfl, ⟨rfl, rfl, rfl, rfl, rfl, rfl, rfl, rfl, rfl⟩,
    storeWords_wf ws origin⟩
  case outside =>
    refine read_storeWords_of_ne (fun k hk heq => ?_) s.mem
    have hto := congrArg BitVec.toNat heq
    rw [toNat_add_ofNat (by omega)] at hto
    omega

/-- Settles O53: the length guard, a trailing byte (`wordsOfBytes_of_odd`), and an image that does not fit
(`load_imageBytes`). -/
theorem loadRejectsMalformedImages : Obligations.LoadRejectsMalformedImages := by
  refine ⟨fun s image hshort => if_pos hshort, fun s image hlength hodd => ?odd, fun s origin ws hpast => ?past⟩
  case odd => rw [load, if_neg hlength.not_gt, wordsOfBytes_of_odd hodd]
  case past => rw [load_imageBytes, if_neg hpast.not_ge]

end Sys2Proof.Machine
end
